-- ==== Sys2Proof/Word.lean ====
section
/-! DEFINITION. The word types of the block, with the widths the spec fixes (spec/00_scope.md R7; spec/10_state.md R20). -/

namespace Sys2Proof

/-- Every data byte, register address and slave address operand is 8 bits (R7). -/
abbrev Byte := BitVec 8

/-- An address of caller memory: `P_ADDR_WIDTH` = 32 bits (R20, D32). -/
abbrev Addr := BitVec 32

/-- A byte count or cursor: `P_COUNT_WIDTH` = 32 bits (R6, D5). -/
abbrev Count := BitVec 32

/-- A micro-address: an index of the 256-word control store (R27). -/
abbrev MicroAddr := BitVec 8

/-- A micro-op word, format MOP16 (spec/30_encoding.md R84). -/
abbrev MicroWord := BitVec 16

/-- A command word, format CMD32 (spec/30_encoding.md R81). -/
abbrev CommandWord := BitVec 32

end Sys2Proof
end

