-- ==== Sys2Proof/Config.lean ====
section
/-! DEFINITION. The launch parameters of spec/00_scope.md R6 and the values the spec leaves free (R40, R230): the free
values are opaque constants without a body, so nothing in Lean can say what they are. -/

namespace Sys2Proof

/-- `P_ADDR_LSB` (R6): what accept does with a slave address whose bit 0 is set. -/
inductive AddrLsb where
  | pass
  | normalize
  | reject
  deriving DecidableEq, Repr

/-- `P_SCHED` (R6; spec/46_bus_engine.md R230, R231). -/
inductive SchedMode where
  | free
  | seqPriority
  deriving DecidableEq, Repr

/-- Who moves next (spec/46_bus_engine.md R230): the sequencer, the bus engine or the caller. -/
inductive Agent where
  | sequencer
  | engine
  | caller
  deriving DecidableEq, Repr, Inhabited

/-- The launch parameters of R6, fixed for a launch (spec/10_state.md R41). `P_COUNT_WIDTH` and `P_ADDR_WIDTH` are the
widths of `Count` and `Addr`. -/
structure Params where
  /-- `P_EMIT_STOP_ON_WRITE` -/
  emitStopOnWrite : Bool
  /-- `P_CHECKED` -/
  checked : Bool
  /-- `P_POLL_BUDGET`, read only when `checked`; at least 1 (`Params.wellFormed`) -/
  pollBudget : Nat
  /-- `P_SCHED` -/
  sched : SchedMode
  /-- `P_ADDR_LSB` -/
  addrLsb : AddrLsb
  /-- `P_EXT_BUSY` (R9) -/
  extBusy : Bool
  /-- `P_PERIPH_LIVE` (R9) -/
  periphLive : Bool
  /-- `P_BRI_BASE`, informative: only the register images' addresses use it (R47) -/
  briBase : Addr
  deriving DecidableEq, Repr

/-- The parameters of the reset state: the defaults of R6 and, for P_SCHED and the OPEN parameters, the values of the spec's
start state S0 (spec/95_test_vectors.md section 0). DESIGN CHOICE, unsafe, log 3: a claim about every state holds for every
value of every parameter; only the reset state takes these. -/
def Params.s0 : Params where
  emitStopOnWrite := false
  checked := false
  pollBudget := 1
  sched := .seqPriority
  addrLsb := .pass
  extBusy := false
  periphLive := true
  briBase := 0

/-- `draw_addr_ack(b)` of R40: the slave's answer to address byte `b`, at the draw of that number. Free. -/
opaque Config.freeAddrAck : Nat → Byte → Bool

/-- `draw_data_ack(b)` of R40: the slave's answer to written data byte `b`, at the draw of that number. Free. -/
opaque Config.freeDataAck : Nat → Byte → Bool

/-- `draw_rx_byte()` of R40: the byte the slave sends at the draw of that number. Free. -/
opaque Config.freeRxByte : Nat → Byte

/-- The scheduler's choice at a turn of that number under `P_SCHED = FREE` (R230). Free. -/
opaque Config.freeAgent : Nat → Agent

end Sys2Proof
end

