-- ==== Sys2Proof/Syntax.lean ====
section
/-! DEFINITION. The instructions of spec/opcode_table.json, one constructor per row: 3 commands (spec/41_commands.md) and 23
micro-ops (spec/42_bus_control.md to spec/45_control_flow.md). -/

namespace Sys2Proof

/-- One constructor per row of the opcode table, in the table's order. A command carries the two operands of its word
(R81); its count and buffer reference are presented beside the word (R80). A branch carries its target (R85). -/
inductive Instr where
  /-- BYTE_READ, R101 -/
  | byteRead (sa ra : Byte)
  /-- BURST_READ, R102 -/
  | burstRead (sa ra : Byte)
  /-- BURST_WRITE, R103 -/
  | burstWrite (sa ra : Byte)
  /-- WAIT_IDLE, R144 -/
  | waitIdle
  /-- GEN_START, R120 -/
  | genStart
  /-- WAIT_SB, R145 -/
  | waitSb
  /-- WR_ADDR_W, R160 -/
  | wrAddrW
  /-- WR_ADDR_R_OR, R161 -/
  | wrAddrROr
  /-- WR_ADDR_R_INC, R162 -/
  | wrAddrRInc
  /-- WAIT_ADDR, R146 -/
  | waitAddr
  /-- CLR_ADDR, R150 -/
  | clrAddr
  /-- WR_REG, R163 -/
  | wrReg
  /-- WAIT_TXE, R147 -/
  | waitTxe
  /-- WAIT_BTF, R148 -/
  | waitBtf
  /-- WAIT_RXNE, R149 -/
  | waitRxne
  /-- RD_DATA, R165 -/
  | rdData
  /-- RD_RES, R164 -/
  | rdRes
  /-- WR_DATA, R166 -/
  | wrData
  /-- ACK_ON, R123 -/
  | ackOn
  /-- ACK_OFF, R124 -/
  | ackOff
  /-- GEN_STOP, R121 -/
  | genStop
  /-- OPT_STOP, R122 -/
  | optStop
  /-- BR_REM_ZERO t, R180 -/
  | brRemZero (t : MicroAddr)
  /-- BR_REM_ONE t, R181 -/
  | brRemOne (t : MicroAddr)
  /-- JMP t, R182 -/
  | jmp (t : MicroAddr)
  /-- RET, R183 -/
  | ret
  deriving DecidableEq, Repr

/-- Where an instruction's word is presented: a command at the caller's port (R80), a micro-op in the control store (R88). -/
inductive Space where
  | port
  | store
  deriving DecidableEq, Repr

/-- The word of an instruction in the format of its space: 32 bits CMD32 (R81) or 16 bits MOP16 (R84). -/
inductive Code where
  | command (c : CommandWord)
  | microOp (w : MicroWord)
  deriving DecidableEq, Repr

/-- The space of each instruction (spec/opcode_table.json, "format"). -/
def Instr.space : Instr → Space
  | .byteRead _ _ => .port
  | .burstRead _ _ => .port
  | .burstWrite _ _ => .port
  | .waitIdle => .store
  | .genStart => .store
  | .waitSb => .store
  | .wrAddrW => .store
  | .wrAddrROr => .store
  | .wrAddrRInc => .store
  | .waitAddr => .store
  | .clrAddr => .store
  | .wrReg => .store
  | .waitTxe => .store
  | .waitBtf => .store
  | .waitRxne => .store
  | .rdData => .store
  | .rdRes => .store
  | .wrData => .store
  | .ackOn => .store
  | .ackOff => .store
  | .genStop => .store
  | .optStop => .store
  | .brRemZero _ => .store
  | .brRemOne _ => .store
  | .jmp _ => .store
  | .ret => .store

/-- The space of a word is that of its format. -/
def Code.space : Code → Space
  | .command _ => .port
  | .microOp _ => .store

end Sys2Proof
end

