-- ==== Sys2Proof/WellFormed.lean ====
section
/-! DEFINITION. Well-formedness of what the block is handed. The operands of an instruction are bytes by their type, so the
instruction's own check is where it may stand (R80, R84); a launch's parameters have one bound (R6). -/

namespace Sys2Proof

/-- An instruction is well formed in a space when its word has that space's format: a command only at the port (R80, R81), a
micro-op only in the control store (R84, R88). -/
def WellFormed (sp : Space) (i : Instr) : Bool :=
  decide (i.space = sp)

/-- `P_POLL_BUDGET` is "at least 1" (R6). Where 0 is given all the same, R140's test makes it act as 1. -/
def Params.wellFormed (p : Params) : Bool :=
  decide (1 ≤ p.pollBudget)

end Sys2Proof
end

