-- ==== Sys2Proof/Decode.lean ====
section
/-! DEFINITION. Decoding and encoding (spec/30_encoding.md R80 to R87). Both formats are single words, each in its own space
(log 14), so the decoder takes a word of the format: 32 bits CMD32 or 16 bits MOP16. It is total and rejects by name. -/

namespace Sys2Proof

/-- Why a word spells no instruction (R83, R87). -/
inductive DecodeError where
  /-- a command word with `op = 11` (R83) -/
  | reservedOp
  /-- a command word with `z0 ≠ 0` (R83) -/
  | reservedLow
  /-- a command word with `z1 ≠ 0` (R83) -/
  | reservedHigh
  /-- a micro-op word with `opc` 0x00 or 0x18 to 0x1F (R87) -/
  | illegalOpc
  /-- a micro-op word with `z ≠ 0` (R87) -/
  | illegalZ
  /-- a micro-op word with `imm8 ≠ 0` on a non-branch (R87) -/
  | illegalImm
  deriving DecidableEq, Repr

/-- The fields of a command word, format CMD32 (R81). -/
abbrev cmdOp (c : CommandWord) : BitVec 2 := c.extractLsb' 0 2
/-- `z0`, bits [7:2] (R81). -/
abbrev cmdZ0 (c : CommandWord) : BitVec 6 := c.extractLsb' 2 6
/-- `sa`, bits [15:8] (R81). -/
abbrev cmdSa (c : CommandWord) : Byte := c.extractLsb' 8 8
/-- `ra`, bits [23:16] (R81). -/
abbrev cmdRa (c : CommandWord) : Byte := c.extractLsb' 16 8
/-- `z1`, bits [31:24] (R81). -/
abbrev cmdZ1 (c : CommandWord) : BitVec 8 := c.extractLsb' 24 8

/-- The fields of a micro-op word, format MOP16 (R84): `opc`, bits [15:11]. -/
abbrev mopOpc (w : MicroWord) : BitVec 5 := w.extractLsb' 11 5
/-- `z`, bits [10:8] (R84). -/
abbrev mopZ (w : MicroWord) : BitVec 3 := w.extractLsb' 8 3
/-- `imm8`, bits [7:0] (R84, R85). -/
abbrev mopImm (w : MicroWord) : Byte := w.extractLsb' 0 8

/-- The command map of R82; every other word is reserved (R83). -/
def decodeCommand (c : CommandWord) : Except DecodeError Instr :=
  if cmdZ1 c ≠ 0 then .error .reservedHigh
  else if cmdZ0 c ≠ 0 then .error .reservedLow
  else
    match (cmdOp c).toNat with
    | 0 => .ok (.byteRead (cmdSa c) (cmdRa c))
    | 1 => .ok (.burstRead (cmdSa c) (cmdRa c))
    | 2 => .ok (.burstWrite (cmdSa c) (cmdRa c))
    | _ => .error .reservedOp

/-- A micro-op without an operand: its `imm8` must be 0 (R84, R87). -/
def plainOp (imm : Byte) (i : Instr) : Except DecodeError Instr :=
  if imm = 0 then .ok i else .error .illegalImm

/-- The micro-opcode map of R86 on the fields `opc` and `imm8`. -/
def decodeOpc (opc : BitVec 5) (imm : Byte) : Except DecodeError Instr :=
  match opc.toNat with
  | 0x01 => plainOp imm .waitIdle
  | 0x02 => plainOp imm .genStart
  | 0x03 => plainOp imm .waitSb
  | 0x04 => plainOp imm .wrAddrW
  | 0x05 => plainOp imm .wrAddrROr
  | 0x06 => plainOp imm .wrAddrRInc
  | 0x07 => plainOp imm .waitAddr
  | 0x08 => plainOp imm .clrAddr
  | 0x09 => plainOp imm .wrReg
  | 0x0A => plainOp imm .waitTxe
  | 0x0B => plainOp imm .waitBtf
  | 0x0C => plainOp imm .waitRxne
  | 0x0D => plainOp imm .rdData
  | 0x0E => plainOp imm .rdRes
  | 0x0F => plainOp imm .wrData
  | 0x10 => plainOp imm .ackOn
  | 0x11 => plainOp imm .ackOff
  | 0x12 => plainOp imm .genStop
  | 0x13 => plainOp imm .optStop
  | 0x14 => .ok (.brRemZero imm)
  | 0x15 => .ok (.brRemOne imm)
  | 0x16 => .ok (.jmp imm)
  | 0x17 => plainOp imm .ret
  | _ => .error .illegalOpc

/-- A micro-op word decodes by R86; the illegal words are those of R87. -/
def decodeMicroOp (w : MicroWord) : Except DecodeError Instr :=
  if mopZ w ≠ 0 then .error .illegalZ else decodeOpc (mopOpc w) (mopImm w)

/-- The decoder on a word of either format. -/
def decode : Code → Except DecodeError Instr
  | .command c => decodeCommand c
  | .microOp w => decodeMicroOp w

/-- A command word from its fields (R81): `z1 = 0`, `ra`, `sa`, `z0 = 0`, `op`. -/
def commandWord (op : BitVec 2) (sa ra : Byte) : CommandWord :=
  0#8 ++ ra ++ sa ++ 0#6 ++ op

/-- A micro-op word from its fields (R84): `opc`, `z = 0`, `imm8`; the word is `opc << 11 | imm8` (R86). -/
def microWord (opc : BitVec 5) (imm : Byte) : MicroWord :=
  opc ++ 0#3 ++ imm

/-- The word of an instruction, from the same maps (R82, R86). -/
def encode : Instr → Code
  | .byteRead sa ra => .command (commandWord 0b00 sa ra)
  | .burstRead sa ra => .command (commandWord 0b01 sa ra)
  | .burstWrite sa ra => .command (commandWord 0b10 sa ra)
  | .waitIdle => .microOp (microWord 0x01 0)
  | .genStart => .microOp (microWord 0x02 0)
  | .waitSb => .microOp (microWord 0x03 0)
  | .wrAddrW => .microOp (microWord 0x04 0)
  | .wrAddrROr => .microOp (microWord 0x05 0)
  | .wrAddrRInc => .microOp (microWord 0x06 0)
  | .waitAddr => .microOp (microWord 0x07 0)
  | .clrAddr => .microOp (microWord 0x08 0)
  | .wrReg => .microOp (microWord 0x09 0)
  | .waitTxe => .microOp (microWord 0x0A 0)
  | .waitBtf => .microOp (microWord 0x0B 0)
  | .waitRxne => .microOp (microWord 0x0C 0)
  | .rdData => .microOp (microWord 0x0D 0)
  | .rdRes => .microOp (microWord 0x0E 0)
  | .wrData => .microOp (microWord 0x0F 0)
  | .ackOn => .microOp (microWord 0x10 0)
  | .ackOff => .microOp (microWord 0x11 0)
  | .genStop => .microOp (microWord 0x12 0)
  | .optStop => .microOp (microWord 0x13 0)
  | .brRemZero t => .microOp (microWord 0x14 t)
  | .brRemOne t => .microOp (microWord 0x15 t)
  | .jmp t => .microOp (microWord 0x16 t)
  | .ret => .microOp (microWord 0x17 0)

/-- The word of `nbits` bits whose value is `w`, in the format of that width: 16 bits is MOP16, 32 bits is CMD32. There is no
other length (R81, R84). -/
def tableCode (nbits w : Nat) : Option Code :=
  if nbits = 16 ∧ w < 2 ^ 16 then some (.microOp (BitVec.ofNat 16 w))
  else if nbits = 32 ∧ w < 2 ^ 32 then some (.command (BitVec.ofNat 32 w))
  else none

/-- What the decoder reads from a word of the opcode table (`nbits` is the table's width of its row). -/
def decodeTableWord (nbits w : Nat) : Option Instr :=
  match tableCode nbits w with
  | none => none
  | some c => (decode c).toOption

end Sys2Proof
end

