-- ==== Sys2Proof/Machine/ControlStore.lean ====
section
/-! DEFINITION. The image of the control store (spec/30_encoding.md R88, R91), word for word from R91. -/

namespace Sys2Proof.Machine

/-- The 256 words of 16 bits of the control store (R88). -/
abbrev ControlStore := Vector MicroWord 256

/-- BYTE_READ, words 0x00 to 0x11 (R91). -/
def byteReadProgram : List MicroWord :=
  [0x0800, 0x1000, 0x1800, 0x2000, 0x3800, 0x4000, 0x4800, 0x5000, 0x1000, 0x1800,
   0x2800, 0x3800, 0x8800, 0x4000, 0x9000, 0x6000, 0x7000, 0xB800]

/-- BURST_READ, words 0x20 to 0x36 (R91). -/
def burstReadProgram : List MicroWord :=
  [0x1000, 0x1800, 0x2000, 0x3800, 0x4000, 0x4800, 0x5000, 0x1000, 0x1800, 0x3000, 0x3800, 0x8000,
   0x4000, 0xA036, 0xA832, 0x6000, 0x6800, 0xB02D, 0x8800, 0x9000, 0x6000, 0x6800, 0xB800]

/-- BURST_WRITE, words 0x40 to 0x4E (R91). -/
def burstWriteProgram : List MicroWord :=
  [0x1000, 0x1800, 0x2000, 0x3800, 0x4000, 0x5000, 0x4800, 0x5800, 0xA04D, 0x5000, 0x7800, 0x5800,
   0xB048, 0x9800, 0xB800]

/-- The words in address order; every word outside the programs is 0x0000 (R88). -/
def imageWords : List MicroWord :=
  byteReadProgram ++ List.replicate 14 0 ++ burstReadProgram ++ List.replicate 9 0 ++
    burstWriteProgram ++ List.replicate 177 0

/-- The image has the store's size. -/
theorem imageWords_toArray_size : imageWords.toArray.size = 256 := by
  simp only [imageWords, List.size_toArray, List.length_append, List.length_replicate]
  rfl

/-- The image every launch starts with (R89, R91). -/
def storeImage : ControlStore := ⟨imageWords.toArray, imageWords_toArray_size⟩

end Sys2Proof.Machine
end

