-- ==== Sys2Proof/Machine/State.lean ====
section
/-! DEFINITION. The state of the block as plain data (spec/10_state.md) and the reset state (spec/70_reset_and_hazards.md
R270). The fields `slave`, `turns`, `caller` and `port` hold the environment's inputs (log 6, 7, 10, 11). -/

namespace Sys2Proof.Machine

/-- `SEQ.run` (spec/10_state.md R20, R21). -/
inductive RunState where
  | ready
  | busy
  deriving DecidableEq, Repr

/-- `BRI.ph`, the bus phase (R39); `addrAcked d` carries the direction bit of the acknowledged address byte. -/
inductive Phase where
  | idle
  | started
  | addrQueued
  | addrAcked (d : Bool)
  | addrNacked
  | tx
  | txNacked
  | rx
  | rxDone
  deriving DecidableEq, Repr

/-- The sequencer's registers, and no others (R20). A register that is `none` holds no value: the spec's own reset value of
these registers (R20, and R270: "no value (a read faults)"); reading it then raises UNWRITTEN_REG (R29, R243). -/
structure Seq where
  run : RunState
  op : Option (BitVec 2)
  sa : Option Byte
  ra : Option Byte
  rem : Option Count
  cur : Option Count
  buf : Option Addr
  res : Option Byte
  status : BitVec 3
  upc : MicroAddr
  polls : Nat
  deriving DecidableEq, Repr

/-- The Bus Register Interface's stored fields (R30); `busy` is derived (R31, `State.busy`). -/
structure Bri where
  sb : Bool
  addr : Bool
  txe : Bool
  btf : Bool
  rxne : Bool
  ack : Bool
  start : Bool
  stop : Bool
  dr : Byte
  shift : Option Byte
  af : Bool
  addrSeen : Bool
  ph : Phase
  deriving DecidableEq, Repr

/-- Caller memory: (address, byte) pairs, addresses strictly rising, no entry equal to what an unlisted address reads as
(`Memory.wf`). -/
abbrev Memory := List Host.Cell

/-- A wire event (R42); an answer bit is `true` for ACK. -/
inductive WireEvent where
  /-- `S` -/
  | start
  /-- `Sr` -/
  | repStart
  /-- `P` -/
  | stop
  /-- `A(b, k)` -/
  | address (b : Byte) (ack : Bool)
  /-- `T(b, k)` -/
  | transmit (b : Byte) (ack : Bool)
  /-- `R(b, k)` -/
  | receive (b : Byte) (ack : Bool)
  deriving DecidableEq, Repr

/-- The fault kinds of spec/60_exceptions.md R243. The step that raises one answers a next state whose fault record holds it
(R244); `step` answers the kind as its fault from every state that holds a record, because then no agent steps. All are safe:
the model stops where the spec defines nothing more. -/
inductive Fault where
  /-- A read of a sequencer register that holds no value (R29, R243, R270); raised by `latch`. Safe. -/
  | unwrittenReg
  /-- The sequencer fetched an illegal word (R87, R185); raised by `sequencerTurn`. Safe. -/
  | illegalMicroop
  /-- A data-register write or START request the spec leaves undefined (R67, R68); raised by `Bri.writeDr` and
  `Bri.requestStart`. Safe. -/
  | briUnspec
  /-- A command refused at accept (R107); raised by `State.accept` and `issueTurn`. Safe. -/
  | cmdRefused
  /-- RD_DATA or WR_DATA with `rem = 0` (R165, R166); raised by `takeByteCount`. Safe. -/
  | bufOverrun
  deriving DecidableEq, Repr

/-- The reasons to refuse an instruction. Every instruction of this hardware has its meaning, so no arm of `exec` uses one. -/
inductive Refusal where
  /-- An instruction whose meaning is not written: none. Safe. -/
  | notModelled (mnemonic : String)
  deriving DecidableEq, Repr

/-- The fault record (R43, R243): the kind and the `upc` of the faulting micro-op, no `upc` for CMD_REFUSED. -/
structure FaultRecord where
  kind : Fault
  upc : Option MicroAddr
  deriving DecidableEq, Repr

/-- The slave oracle of R40 as inputs: the answers already decided for the next draws, oldest first, and the number of draws
made beyond them, each of which is a free value of Config (log 6). -/
structure Slave where
  addrAcks : List Bool
  dataAcks : List Bool
  rxBytes : List Byte
  draws : Nat
  deriving DecidableEq, Repr

/-- The scheduler's choices under `P_SCHED = FREE` (R230): those already decided for the next turns, oldest first, and the
number of turns taken beyond them, each of which is a free value of Config (log 7). -/
structure Turns where
  script : List Agent
  count : Nat
  deriving DecidableEq, Repr

/-- What stands at the command port beside the command word (R80, R107): the byte count, the buffer reference and the length of
the buffer handed over. `n` and `len` are the caller's numbers, of any size: R107 refuses an `n` that does not fit. -/
structure Port where
  n : Nat
  buf : Addr
  len : Nat
  deriving DecidableEq, Repr

/-- A command as the caller hands it over (R80): the word and what goes beside it. -/
structure Request where
  word : CommandWord
  port : Port
  deriving DecidableEq, Repr

/-- What the caller does next (R106 to R110; log 10). -/
inductive CallerAct where
  /-- hand over a command; it waits for READY (R106, R230) -/
  | issue (r : Request)
  /-- hand over a command without waiting for READY, breaking R106; R107 says what comes of it -/
  | overlap (r : Request)
  /-- write a byte of its own memory; it waits for READY (R24, R108) -/
  | fill (a : Addr) (b : Byte)
  deriving DecidableEq, Repr

/-- The whole state: the sequencer, the Bus Register Interface, caller memory, the control store, the wire trace `W` (R42,
oldest first), the fault record (R43), the launch parameters (R41), and the environment's inputs. -/
structure State where
  seq : Seq
  bri : Bri
  mem : Memory
  store : ControlStore
  wire : List WireEvent
  fault : Option FaultRecord
  params : Params
  slave : Slave
  turns : Turns
  caller : List CallerAct
  port : Port
  deriving DecidableEq, Repr

/-- The reset state of R270 for launch parameters `p` and the two values R270 leaves to the launch, `ack` and `dr`. -/
def State.launch (p : Params) (ack : Bool) (dr : Byte) : State where
  seq :=
    { run := .ready, op := none, sa := none, ra := none, rem := none, cur := none, buf := none, res := none
      status := 0, upc := 0x00, polls := 0 }
  bri :=
    { sb := false, addr := false, txe := false, btf := false, rxne := false, ack := ack, start := false, stop := false
      dr := dr, shift := none, af := false, addrSeen := false, ph := .idle }
  mem := []
  store := storeImage
  wire := []
  fault := none
  params := p
  slave := { addrAcks := [], dataAcks := [], rxBytes := [], draws := 0 }
  turns := { script := [], count := 0 }
  caller := []
  port := { n := 0, buf := 0, len := 0 }

/-- The machine right after reset: R270 with the start state S0's values where R270 and R6 leave one open (DESIGN CHOICE,
unsafe, log 2, 3). -/
def State.reset : State := State.launch Params.s0 true 0x00

end Sys2Proof.Machine
end

