-- ==== Sys2Proof/Machine/Flags.lean ====
section
/-! DEFINITION. The status flags as the sequencer sees them (spec/10_state.md R30, R31, R45, R46), the conditions of the waits
(spec/43_flag_waits.md R144 to R149), the register images (R44 to R47) and the transaction phase (R48). -/

namespace Sys2Proof.Machine

/-- What `ReadSR1` returns (spec/20_memory.md R64). -/
structure Sr1 where
  af : Bool
  txe : Bool
  rxne : Bool
  btf : Bool
  addr : Bool
  sb : Bool
  deriving DecidableEq, Repr

/-- What `ReadSR2` returns (R65, R46). -/
structure Sr2 where
  busy : Bool
  msl : Bool
  tra : Bool
  deriving DecidableEq, Repr

/-- `BRI.busy = (BRI.ph ≠ IDLE) or P_EXT_BUSY` (R31). -/
def State.busy (s : State) : Bool := decide (s.bri.ph ≠ .idle) || s.params.extBusy

/-- `MSL` (R46). -/
def Bri.msl (b : Bri) : Bool := decide (b.ph ≠ .idle)

/-- `TRA` (R46). -/
def Bri.tra (b : Bri) : Bool :=
  match b.ph with
  | .addrAcked false => true
  | .tx => true
  | .txNacked => true
  | _ => false

/-- The value of `ReadSR1` (R64). -/
def State.sr1 (s : State) : Sr1 where
  af := s.bri.af
  txe := s.bri.txe
  rxne := s.bri.rxne
  btf := s.bri.btf
  addr := s.bri.addr
  sb := s.bri.sb

/-- The value of `ReadSR2` (R65). -/
def State.sr2 (s : State) : Sr2 where
  busy := s.busy
  msl := s.bri.msl
  tra := s.bri.tra

/-- WAIT_IDLE's condition: `busy = 0` (R144). -/
def idleMet (v : Sr2) : Bool := !v.busy
/-- WAIT_SB's condition: `sb = 1` (R145). -/
def sbMet (v : Sr1) : Bool := v.sb
/-- WAIT_ADDR's condition: `addr = 1` (R146). -/
def addrMet (v : Sr1) : Bool := v.addr
/-- WAIT_TXE's condition: `txe = 1` (R147). -/
def txeMet (v : Sr1) : Bool := v.txe
/-- WAIT_BTF's condition: `btf = 1` (R148). -/
def btfMet (v : Sr1) : Bool := v.btf
/-- WAIT_RXNE's condition: `rxne = 1` (R149). -/
def rxneMet (v : Sr1) : Bool := v.rxne

/-- Whether an instruction is a wait whose condition is false on the current state, without performing the read
(spec/46_bus_engine.md R231). -/
def waitBlocked (s : State) : Instr → Bool
  | .byteRead _ _ => false
  | .burstRead _ _ => false
  | .burstWrite _ _ => false
  | .waitIdle => !idleMet s.sr2
  | .genStart => false
  | .waitSb => !sbMet s.sr1
  | .wrAddrW => false
  | .wrAddrROr => false
  | .wrAddrRInc => false
  | .waitAddr => !addrMet s.sr1
  | .clrAddr => false
  | .wrReg => false
  | .waitTxe => !txeMet s.sr1
  | .waitBtf => !btfMet s.sr1
  | .waitRxne => !rxneMet s.sr1
  | .rdData => false
  | .rdRes => false
  | .wrData => false
  | .ackOn => false
  | .ackOff => false
  | .genStop => false
  | .optStop => false
  | .brRemZero _ => false
  | .brRemOne _ => false
  | .jmp _ => false
  | .ret => false

/-- A word with only bit `i` set where `b` holds. -/
def bitAt (i : Nat) (b : Bool) : BitVec 32 := if b then BitVec.twoPow 32 i else 0

/-- `CR1`'s image (R44): START bit 8, STOP bit 9, ACK bit 10; every other bit is whatever the external set-up left, `rest`. -/
def Bri.cr1Image (b : Bri) (rest : BitVec 32) : BitVec 32 :=
  (rest &&& ~~~(0x700 : BitVec 32)) ||| bitAt 8 b.start ||| bitAt 9 b.stop ||| bitAt 10 b.ack

/-- `SR1`'s image (R45). -/
def State.sr1Image (s : State) : BitVec 32 :=
  bitAt 0 s.sr1.sb ||| bitAt 1 s.sr1.addr ||| bitAt 2 s.sr1.btf ||| bitAt 6 s.sr1.rxne ||| bitAt 7 s.sr1.txe |||
    bitAt 10 s.sr1.af

/-- `SR2`'s image (R46). -/
def State.sr2Image (s : State) : BitVec 32 :=
  bitAt 0 s.sr2.msl ||| bitAt 1 s.sr2.busy ||| bitAt 2 s.sr2.tra

/-- `DR`'s image (R47): bits [31:8] read 0. -/
def Bri.drImage (b : Bri) : BitVec 32 := b.dr.setWidth 32

/-- The byte a write of the image of `DR` carries: bits [31:8] are ignored on write (R47). -/
def drImageByte (w : BitVec 32) : Byte := w.setWidth 8

/-- The four BRI registers (R60). -/
inductive BriReg where
  | cr1
  | dr
  | sr1
  | sr2
  deriving DecidableEq, Repr

/-- The register addresses relative to `P_BRI_BASE` (R47, informative); the sum is taken modulo 2^32 (DESIGN CHOICE, unsafe,
log 20). -/
def Params.regAddr (p : Params) : BriReg → Addr
  | .cr1 => p.briBase + 0x00
  | .dr => p.briBase + 0x10
  | .sr1 => p.briBase + 0x14
  | .sr2 => p.briBase + 0x18

/-- D0's transaction phases (R48). -/
inductive TxnPhase where
  | idle
  | startPending
  | restart
  | stopPending
  | addrSent (dir : Bool)
  | addrAcked (dir : Bool)
  | transferring
  deriving DecidableEq, Repr

/-- The transaction phase, a function of the state (R48). -/
def txnPhase (s : State) : TxnPhase :=
  if s.bri.start then (if s.bri.ph = .idle then .startPending else .restart)
  else if s.bri.stop then .stopPending
  else
    match s.bri.ph with
    | .idle => .idle
    | .started => .startPending
    | .addrQueued => .addrSent (s.bri.dr.getLsbD 0)
    | .addrAcked d => .addrAcked d
    | .addrNacked => .addrSent (s.bri.dr.getLsbD 0)
    | .tx => .transferring
    | .txNacked => .transferring
    | .rx => .transferring
    | .rxDone => .transferring

end Sys2Proof.Machine
end

