-- ==== Sys2Proof/Machine/Operands.lean ====
section
/-! DEFINITION. Where the operands of commands and micro-ops come from: the sequencer's latches, the forms of the address byte
(spec/44_data_transfer.md R160 to R162), the buffer address (spec/20_memory.md R62), the entry addresses (spec/30_encoding.md
R82). -/

namespace Sys2Proof.Machine

/-- Reading a sequencer register: a register that holds no value raises UNWRITTEN_REG (spec/10_state.md R29; the first row of
spec/60_exceptions.md R243; spec/70_reset_and_hazards.md R270, "no value (a read faults)"). -/
def latch {α : Type} (x : Option α) : Except Fault α :=
  match x with
  | some v => .ok v
  | none => .error .unwrittenReg

/-- WR_ADDR_W's byte: `sa` as given (R160). -/
def addrByteW (sa : Byte) : Byte := sa

/-- WR_ADDR_R_OR's byte: `sa | 0x01` (R161). -/
def addrByteROr (sa : Byte) : Byte := sa ||| 0x01

/-- WR_ADDR_R_INC's byte: `(sa + 1) mod 256` (R162). -/
def addrByteRInc (sa : Byte) : Byte := sa + 1

/-- WR_REG's byte: `ra` unchanged (R163). -/
def regByte (ra : Byte) : Byte := ra

/-- The address of the next buffer byte, `SEQ.buf + SEQ.cur` (R62); the sum is taken modulo 2^32 (DESIGN CHOICE, unsafe,
log 5). -/
def bufAddr (buf : Addr) (cur : Count) : Nat := (buf + cur).toNat

/-- The command codes of R82. -/
abbrev opByteRead : BitVec 2 := 0b00
/-- BURST_READ's code (R82). -/
abbrev opBurstRead : BitVec 2 := 0b01
/-- BURST_WRITE's code (R82). -/
abbrev opBurstWrite : BitVec 2 := 0b10

/-- `entry(op)`: the entry micro-address of a command (R82). The code 11 is reserved and no command has it. -/
def entryOf (op : BitVec 2) : MicroAddr :=
  if op = opByteRead then 0x00 else if op = opBurstRead then 0x20 else 0x40

/-- The slave address accept latches (spec/41_commands.md R100): NORMALIZE clears bit 0. -/
def latchedSa (p : Params) (sa : Byte) : Byte :=
  if p.addrLsb = .normalize then sa &&& 0xFE else sa

/-- The count accept latches: 1 for BYTE_READ, else the presented `n` (R100). -/
def latchedRem (op : BitVec 2) (port : Port) : Count :=
  if op = opByteRead then 1 else BitVec.ofNat 32 port.n

/-- Whether a count fits in `P_COUNT_WIDTH` bits (R107). -/
def countFits (n : Nat) : Bool := decide (n < 2 ^ 32)

/-- The refusal conditions of accept on a word that spells a command (R107): BUSY; for a burst command a buffer shorter than `n`
or an `n` that does not fit. `byteRead` ignores `n` and the buffer (R80; log 9). -/
def acceptRefuses (op : BitVec 2) (s : State) : Bool :=
  decide (s.seq.run = .busy) ||
    (decide (op ≠ opByteRead) && (decide (s.port.len < s.port.n) || !countFits s.port.n))

end Sys2Proof.Machine
end

