-- ==== Sys2Proof/Machine/Ops.lean ====
section
/-! DEFINITION. The operations every meaning is made of: caller memory (spec/20_memory.md R61), the BRI accesses with their side
effects (R64 to R68), the sequencer's updates, raising a fault (spec/60_exceptions.md R244), ending a command (R184, R252),
accept (spec/41_commands.md R100), a poll (spec/43_flag_waits.md R140) and a wire event (spec/10_state.md R42). -/

namespace Sys2Proof.Machine

/-! ### Caller memory -/

/-- What an address the caller's memory does not list reads as (DESIGN CHOICE, unsafe, log 4). -/
def Memory.blank : Byte := 0x00

/-- `MemRead(addr, 1)` (R61). -/
def Memory.read : Memory → Nat → Byte
  | [], _ => Memory.blank
  | (k, v) :: m, a => if k = a then v else Memory.read m a

/-- `MemWrite(addr, 1, b)` (R61), keeping the canonical form. -/
def Memory.write : Memory → Nat → Byte → Memory
  | [], a, b => if b = Memory.blank then [] else [(a, b)]
  | (k, v) :: m, a, b =>
    if k < a then (k, v) :: Memory.write m a b
    else if k = a then (if b = Memory.blank then m else (a, b) :: m)
    else if b = Memory.blank then (k, v) :: m
    else (a, b) :: (k, v) :: m

/-- The canonical form: addresses of the 32-bit space, strictly rising, no entry equal to what an unlisted address reads as. -/
abbrev Memory.wf (m : Memory) : Prop :=
  m.Pairwise (fun c d => c.1 < d.1) ∧ ∀ c ∈ m, c.1 < 2 ^ 32 ∧ c.2 ≠ Memory.blank

/-! ### BRI accesses -/

/-- The side effect of `ReadSR1` (R64). -/
def Bri.afterSr1 (b : Bri) : Bri := if b.addr then { b with addrSeen := true } else b

/-- The phase change of `ReadSR2` when it completes the two-read clear (R65). In a phase other than ADDR_ACKED, for which R65's case
has no arm, `addr` is cleared all the same and the phase stays (DEDUCED, unsafe there, log 1). -/
def Bri.endAddrPhase (b : Bri) : Bri :=
  match b.ph with
  | .addrAcked false => { b with addr := false, ph := .tx, txe := true, btf := false }
  | .addrAcked true => { b with addr := false, ph := .rx }
  | _ => { b with addr := false }

/-- The side effect of `ReadSR2` (R65). -/
def Bri.afterSr2 (b : Bri) : Bri :=
  if b.addrSeen && b.addr then { b.endAddrPhase with addrSeen := false } else { b with addrSeen := false }

/-- The side effect of `ReadDR` (R66): the shift register's byte moves into `dr`, else `rxne` is cleared. A read with `rxne = 0`
has no effect (R66's prose and U8; log 12). -/
def Bri.afterDr (b : Bri) : Bri :=
  if b.rxne then
    match b.shift with
    | some v => { b with dr := v, shift := none, btf := false }
    | none => { b with rxne := false }
  else b

/-- `WriteDR(v)` (R67). -/
def Bri.writeDr (v : Byte) (b : Bri) : Except Fault Bri :=
  if b.rxne then .error .briUnspec
  else
    match b.ph with
    | .started => .ok { b with dr := v, sb := false, ph := .addrQueued }
    | .tx => if b.txe then .ok { b with dr := v, txe := false, btf := false } else .error .briUnspec
    | _ => .error .briUnspec

/-- Whether a START request is defined in a phase with no STOP pending (R68). -/
def Phase.takesStart : Phase → Bool
  | .idle => true
  | .tx => true
  | .txNacked => true
  | _ => false

/-- `WriteCR(START, 1)` (R68). -/
def Bri.requestStart (b : Bri) : Except Fault Bri :=
  if b.stop || b.ph.takesStart then .ok { b with start := true } else .error .briUnspec

/-- `WriteCR(STOP, 1)` (R68). -/
def Bri.requestStop (b : Bri) : Bri := { b with stop := true }

/-- `WriteCR(ACK, v)` (R68). -/
def Bri.setAck (v : Bool) (b : Bri) : Bri := { b with ack := v }

/-! ### Updates of the whole state -/

/-- The state with another Bus Register Interface. -/
def State.setBri (s : State) (b : Bri) : State := { s with bri := b }

/-- `ReadSR1` on the state (R64); its value is `State.sr1`. -/
def State.readSr1 (s : State) : State := s.setBri s.bri.afterSr1

/-- `ReadSR2` on the state (R65); its value is `State.sr2`. -/
def State.readSr2 (s : State) : State := s.setBri s.bri.afterSr2

/-- `emit(ev)` (R42). -/
def State.emit (s : State) (ev : WireEvent) : State := { s with wire := s.wire ++ [ev] }

/-- A micro-op completes and goes to `t`: `SEQ.polls <- 0; SEQ.upc <- t` (spec/45_control_flow.md R185). -/
def State.goto (s : State) (t : MicroAddr) : State := { s with seq := { s.seq with polls := 0, upc := t } }

/-- A micro-op completes and the next one follows: `SEQ.upc + 1` modulo 256 (R185, R186). -/
def State.advance (s : State) : State := s.goto (s.seq.upc + 1)

/-- `SEQ.res <- v` (spec/44_data_transfer.md R164). -/
def State.setRes (s : State) (v : Byte) : State := { s with seq := { s.seq with res := some v } }

/-- `SEQ.cur <- cur + 1; SEQ.rem <- rem - 1` for the values read (R165, R166). -/
def State.moveCursor (s : State) (cur rem : Count) : State :=
  { s with seq := { s.seq with cur := some (cur + 1), rem := some (rem - 1) } }

/-- `MemWrite(a, 1, v)` on the state (spec/20_memory.md R61). -/
def State.memWrite (s : State) (a : Nat) (v : Byte) : State := { s with mem := s.mem.write a v }

/-! ### Faults -/

/-- `raise Fault(kind)` in a micro-op step (spec/60_exceptions.md R244): nothing changes but the fault record, which holds the
kind and `SEQ.upc` (R243). -/
def State.raise (k : Fault) (s : State) : State := { s with fault := some { kind := k, upc := some s.seq.upc } }

/-- `Fault(CMD_REFUSED)` at accept (spec/41_commands.md R107): nothing changes but the record, which holds no `upc` (R243). -/
def State.refuse (s : State) : State := { s with fault := some { kind := .cmdRefused, upc := none } }

/-- The end of a micro-op step begun in `s`: its effect, or the fault it raised and no other effect (R244). -/
def settle (s : State) (r : Except Fault State) : Host.Outcome State Fault Refusal :=
  match r with
  | .ok t => .next t
  | .error k => .next (s.raise k)

/-! ### The end of a command -/

/-- `finish(code)` (spec/45_control_flow.md R184). -/
def State.finish (code : BitVec 3) (s : State) : State :=
  { s with seq := { s.seq with status := code, polls := 0, run := .ready } }

/-- What `abort` does to the BRI (spec/60_exceptions.md R252). -/
def Bri.release (b : Bri) : Bri :=
  { b with
    start := false
    ack := if b.ph = .rx then false else b.ack
    stop := if b.ph = .idle then b.stop else true
    af := false }

/-- `abort(code)` (R252): the one trap-like transfer of the block (R255). -/
def State.abort (code : BitVec 3) (s : State) : State := (s.setBri s.bri.release).finish code

/-! ### Accept -/

/-- The registers accept writes (spec/41_commands.md R100), before it starts the program. -/
def State.latchCommand (op : BitVec 2) (sa ra : Byte) (s : State) : State :=
  { s with
    seq :=
      { s.seq with
        op := some op
        sa := some (latchedSa s.params sa)
        ra := some ra
        buf := some s.port.buf
        cur := some 0
        rem := some (latchedRem op s.port)
        status := 0
        polls := 0
        run := .busy } }

/-- `accept` (R100) with the refusals of R107. -/
def State.accept (op : BitVec 2) (sa ra : Byte) (s : State) : State :=
  if acceptRefuses op s then s.refuse
  else if s.params.addrLsb = .reject && sa.getLsbD 0 then (s.latchCommand op sa ra).finish 4
  else (s.latchCommand op sa ra).goto (entryOf op)

/-! ### Polls -/

/-- The budget test of R140: this false poll is the last the budget allows. -/
def State.outOfPolls (s : State) : Bool := decide (s.params.pollBudget ≤ s.seq.polls + 1)

/-- A false poll that does not abort: counted in checked mode only (R140). -/
def State.countPoll (s : State) : State :=
  if s.params.checked then { s with seq := { s.seq with polls := s.seq.polls + 1 } } else s

/-- `wait_step` after its read (spec/43_flag_waits.md R140, R141): `met` is the condition on the value read, `nak` the
acknowledge failure it shows to WAIT_ADDR and false for every other wait. -/
def State.waitStep (met nak : Bool) (s : State) : State :=
  if met then s.advance
  else if s.params.checked && nak then s.abort 2
  else if s.params.checked && s.outOfPolls then s.abort 1
  else s.countPoll

/-! ### Moving bytes -/

/-- Writing a byte made from a latch into the data register, then the next micro-op (spec/44_data_transfer.md R160 to R163). -/
def sendByte (x : Option Byte) (form : Byte → Byte) (s : State) : Except Fault State :=
  match latch x with
  | .error k => .error k
  | .ok v =>
    match s.bri.writeDr (form v) with
    | .error k => .error k
    | .ok b => .ok (s.setBri b).advance

/-- The operands of a burst byte move: `rem`, `buf` and `cur`. -/
structure Cursor where
  rem : Count
  buf : Addr
  cur : Count
  deriving DecidableEq, Repr

/-- Reading `rem`, which must not be 0 (BUF_OVERRUN, R165, R166), then `buf` and `cur`. -/
def takeByteCount (s : State) : Except Fault Cursor :=
  match latch s.seq.rem with
  | .error k => .error k
  | .ok rem =>
    if rem = 0 then .error .bufOverrun
    else
      match latch s.seq.buf, latch s.seq.cur with
      | .ok buf, .ok cur => .ok { rem := rem, buf := buf, cur := cur }
      | .error k, _ => .error k
      | .ok _, .error k => .error k

/-- A branch on the remaining count (spec/45_control_flow.md R180, R181). -/
def branchOnRem (n : Count) (t : MicroAddr) (s : State) : Except Fault State :=
  match latch s.seq.rem with
  | .error k => .error k
  | .ok rem => .ok (if rem = n then s.goto t else s.advance)

end Sys2Proof.Machine
end

