-- ==== Sys2Proof/Machine/BusControl.lean ====
section
/-! DEFINITION. The bus-control micro-ops (spec/42_bus_control.md): each makes one control-register write (R68) and advances. -/

namespace Sys2Proof.Machine

/-- GEN_START (R120). -/
def execGenStart (s : State) : Host.Outcome State Fault Refusal :=
  settle s
    (match s.bri.requestStart with
    | .error k => .error k
    | .ok b => .ok (s.setBri b).advance)

/-- GEN_STOP (R121). -/
def execGenStop (s : State) : Host.Outcome State Fault Refusal :=
  .next (s.setBri s.bri.requestStop).advance

/-- OPT_STOP (R122). -/
def execOptStop (s : State) : Host.Outcome State Fault Refusal :=
  .next (if s.params.emitStopOnWrite then s.setBri s.bri.requestStop else s).advance

/-- ACK_ON (R123). -/
def execAckOn (s : State) : Host.Outcome State Fault Refusal :=
  .next (s.setBri (s.bri.setAck true)).advance

/-- ACK_OFF (R124). -/
def execAckOff (s : State) : Host.Outcome State Fault Refusal :=
  .next (s.setBri (s.bri.setAck false)).advance

end Sys2Proof.Machine
end

