-- ==== Sys2Proof/Machine/Commands.lean ====
section
/-! DEFINITION. The commands (spec/41_commands.md): each is accepted (R100) or refused (R107); its program then runs from the
control store (R101 to R103). -/

namespace Sys2Proof.Machine

/-- BYTE_READ, `byteRead(sa, ra)` (R100, R101): starts the program at 0x00. -/
def execByteRead (sa ra : Byte) (s : State) : Host.Outcome State Fault Refusal :=
  .next (s.accept opByteRead sa ra)

/-- BURST_READ, `burstRead(sa, ra, n, buf)` (R100, R102): starts the program at 0x20; `n` and `buf` stand at the port. -/
def execBurstRead (sa ra : Byte) (s : State) : Host.Outcome State Fault Refusal :=
  .next (s.accept opBurstRead sa ra)

/-- BURST_WRITE, `burstWrite(sa, ra, n, buf)` (R100, R103): starts the program at 0x40; `n` and `buf` stand at the port. -/
def execBurstWrite (sa ra : Byte) (s : State) : Host.Outcome State Fault Refusal :=
  .next (s.accept opBurstWrite sa ra)

end Sys2Proof.Machine
end

