-- ==== Sys2Proof/Machine/ControlFlow.lean ====
section
/-! DEFINITION. The branches and RET (spec/45_control_flow.md R180 to R184). -/

namespace Sys2Proof.Machine

/-- BR_REM_ZERO t (R180): to `t` when no byte remains. -/
def execBrRemZero (t : MicroAddr) (s : State) : Host.Outcome State Fault Refusal :=
  settle s (branchOnRem 0 t s)

/-- BR_REM_ONE t (R181): to `t` when exactly one byte remains. -/
def execBrRemOne (t : MicroAddr) (s : State) : Host.Outcome State Fault Refusal :=
  settle s (branchOnRem 1 t s)

/-- JMP t (R182). -/
def execJmp (t : MicroAddr) (s : State) : Host.Outcome State Fault Refusal :=
  .next (s.goto t)

/-- RET (R183): INCOMPLETE for a checked `burstWrite` without its STOP, else OK. `SEQ.op` is read only when the test comes to it
(DESIGN CHOICE, safe, log 13). -/
def execRet (s : State) : Host.Outcome State Fault Refusal :=
  settle s
    (if s.params.checked then
      match latch s.seq.op with
      | .error k => .error k
      | .ok op => .ok (s.finish (if op = opBurstWrite && !s.params.emitStopOnWrite then 3 else 0))
    else .ok (s.finish 0))

end Sys2Proof.Machine
end

