-- ==== Sys2Proof/Machine/DataTransfer.lean ====
section
/-! DEFINITION. The address and data transfer micro-ops (spec/44_data_transfer.md): one data-register access each (R69). -/

namespace Sys2Proof.Machine

/-- WR_ADDR_W (R160): writes `sa`. -/
def execWrAddrW (s : State) : Host.Outcome State Fault Refusal :=
  settle s (sendByte s.seq.sa addrByteW s)

/-- WR_ADDR_R_OR (R161): writes `sa | 0x01`. -/
def execWrAddrROr (s : State) : Host.Outcome State Fault Refusal :=
  settle s (sendByte s.seq.sa addrByteROr s)

/-- WR_ADDR_R_INC (R162): writes `(sa + 1) mod 256`. -/
def execWrAddrRInc (s : State) : Host.Outcome State Fault Refusal :=
  settle s (sendByte s.seq.sa addrByteRInc s)

/-- WR_REG (R163): writes `ra`. -/
def execWrReg (s : State) : Host.Outcome State Fault Refusal :=
  settle s (sendByte s.seq.ra regByte s)

/-- RD_RES (R164): `SEQ.res <- ReadDR()`. -/
def execRdRes (s : State) : Host.Outcome State Fault Refusal :=
  .next ((s.setBri s.bri.afterDr).setRes s.bri.dr).advance

/-- RD_DATA (R165): the received byte goes to `buf[cur]`; the cursor advances and the count goes down. -/
def execRdData (s : State) : Host.Outcome State Fault Refusal :=
  settle s
    (match takeByteCount s with
    | .error k => .error k
    | .ok c =>
      .ok (((s.setBri s.bri.afterDr).memWrite (bufAddr c.buf c.cur) s.bri.dr).moveCursor c.cur c.rem).advance)

/-- WR_DATA (R166): the byte `buf[cur]` goes to the data register; the cursor advances and the count goes down. -/
def execWrData (s : State) : Host.Outcome State Fault Refusal :=
  settle s
    (match takeByteCount s with
    | .error k => .error k
    | .ok c =>
      match s.bri.writeDr (s.mem.read (bufAddr c.buf c.cur)) with
      | .error k => .error k
      | .ok b => .ok ((s.setBri b).moveCursor c.cur c.rem).advance)

end Sys2Proof.Machine
end

