-- ==== Sys2Proof/Machine/FlagWaits.lean ====
section
/-! DEFINITION. The flag waits and the address-flag clear (spec/43_flag_waits.md). A wait is one read of its status register
(R142) and one poll on the value read (R140); only WAIT_ADDR looks at the acknowledge failure (R143). -/

namespace Sys2Proof.Machine

/-- WAIT_IDLE (R144): reads SR2. -/
def execWaitIdle (s : State) : Host.Outcome State Fault Refusal :=
  .next (s.readSr2.waitStep (idleMet s.sr2) false)

/-- WAIT_SB (R145): reads SR1. -/
def execWaitSb (s : State) : Host.Outcome State Fault Refusal :=
  .next (s.readSr1.waitStep (sbMet s.sr1) false)

/-- WAIT_ADDR (R146): reads SR1; the acknowledge failure aborts it in checked mode. -/
def execWaitAddr (s : State) : Host.Outcome State Fault Refusal :=
  .next (s.readSr1.waitStep (addrMet s.sr1) s.sr1.af)

/-- WAIT_TXE (R147): reads SR1. -/
def execWaitTxe (s : State) : Host.Outcome State Fault Refusal :=
  .next (s.readSr1.waitStep (txeMet s.sr1) false)

/-- WAIT_BTF (R148): reads SR1. -/
def execWaitBtf (s : State) : Host.Outcome State Fault Refusal :=
  .next (s.readSr1.waitStep (btfMet s.sr1) false)

/-- WAIT_RXNE (R149): reads SR1. -/
def execWaitRxne (s : State) : Host.Outcome State Fault Refusal :=
  .next (s.readSr1.waitStep (rxneMet s.sr1) false)

/-- CLR_ADDR (R150): reads SR2 and discards the value. -/
def execClrAddr (s : State) : Host.Outcome State Fault Refusal :=
  .next s.readSr2.advance

end Sys2Proof.Machine
end

