-- ==== Sys2Proof/Machine/Dispatch.lean ====
section
/-! DEFINITION. One arm per instruction of the opcode table, in the table's order. -/

namespace Sys2Proof.Machine

def exec (i : Instr) (s : State) : Host.Outcome State Fault Refusal :=
  match i with
  -- commands (spec/41_commands.md)
  | .byteRead sa ra => Sys2Proof.Machine.execByteRead sa ra s
  | .burstRead sa ra => Sys2Proof.Machine.execBurstRead sa ra s
  | .burstWrite sa ra => Sys2Proof.Machine.execBurstWrite sa ra s
  -- micro-ops (spec/42_bus_control.md to spec/45_control_flow.md)
  | .waitIdle => Sys2Proof.Machine.execWaitIdle s
  | .genStart => Sys2Proof.Machine.execGenStart s
  | .waitSb => Sys2Proof.Machine.execWaitSb s
  | .wrAddrW => Sys2Proof.Machine.execWrAddrW s
  | .wrAddrROr => Sys2Proof.Machine.execWrAddrROr s
  | .wrAddrRInc => Sys2Proof.Machine.execWrAddrRInc s
  | .waitAddr => Sys2Proof.Machine.execWaitAddr s
  | .clrAddr => Sys2Proof.Machine.execClrAddr s
  | .wrReg => Sys2Proof.Machine.execWrReg s
  | .waitTxe => Sys2Proof.Machine.execWaitTxe s
  | .waitBtf => Sys2Proof.Machine.execWaitBtf s
  | .waitRxne => Sys2Proof.Machine.execWaitRxne s
  | .rdData => Sys2Proof.Machine.execRdData s
  | .rdRes => Sys2Proof.Machine.execRdRes s
  | .wrData => Sys2Proof.Machine.execWrData s
  | .ackOn => Sys2Proof.Machine.execAckOn s
  | .ackOff => Sys2Proof.Machine.execAckOff s
  | .genStop => Sys2Proof.Machine.execGenStop s
  | .optStop => Sys2Proof.Machine.execOptStop s
  | .brRemZero t => Sys2Proof.Machine.execBrRemZero t s
  | .brRemOne t => Sys2Proof.Machine.execBrRemOne t s
  | .jmp t => Sys2Proof.Machine.execJmp t s
  | .ret => Sys2Proof.Machine.execRet s

end Sys2Proof.Machine
end

