-- ==== Sys2Proof/Machine/Engine.lean ====
section
/-! DEFINITION. The bus engine (spec/46_bus_engine.md): nine steps, each a guard and an effect; in every state at most one is
enabled (R221). -/

namespace Sys2Proof.Machine

/-- The engine's steps (R200 to R213). -/
inductive EngineStep where
  /-- E_START, R200 -/
  | start
  /-- E_ADDR, R202 -/
  | addr
  /-- E_TXLOAD, R204 -/
  | txLoad
  /-- E_TXDONE, R205 -/
  | txDone
  /-- E_RX, R206 -/
  | rx
  /-- E_STOP_TX, R210 -/
  | stopTx
  /-- E_STOP_RXDONE, R211 -/
  | stopRxDone
  /-- E_STOP_HELD, R212 -/
  | stopHeld
  /-- E_STOP_IDLE, R213 -/
  | stopIdle
  deriving DecidableEq, Repr

/-! ### The slave's answers (R40) -/

/-- `draw_addr_ack(b)`: the answer. -/
def Slave.addrAck (v : Slave) (b : Byte) : Bool :=
  match v.addrAcks with
  | k :: _ => k
  | [] => Config.freeAddrAck v.draws b

/-- `draw_addr_ack(b)`: the oracle afterwards. -/
def Slave.afterAddrAck (v : Slave) : Slave :=
  match v.addrAcks with
  | _ :: ks => { v with addrAcks := ks }
  | [] => { v with draws := v.draws + 1 }

/-- `draw_data_ack(b)`: the answer. -/
def Slave.dataAck (v : Slave) (b : Byte) : Bool :=
  match v.dataAcks with
  | k :: _ => k
  | [] => Config.freeDataAck v.draws b

/-- `draw_data_ack(b)`: the oracle afterwards. -/
def Slave.afterDataAck (v : Slave) : Slave :=
  match v.dataAcks with
  | _ :: ks => { v with dataAcks := ks }
  | [] => { v with draws := v.draws + 1 }

/-- `draw_rx_byte()`: the byte. -/
def Slave.rxByte (v : Slave) : Byte :=
  match v.rxBytes with
  | b :: _ => b
  | [] => Config.freeRxByte v.draws

/-- `draw_rx_byte()`: the oracle afterwards. -/
def Slave.afterRxByte (v : Slave) : Slave :=
  match v.rxBytes with
  | _ :: bs => { v with rxBytes := bs }
  | [] => { v with draws := v.draws + 1 }

/-! ### Guards -/

/-- `BRI.ph in {TX, TX_NACKED}`. -/
def Phase.isTx : Phase → Bool
  | .tx => true
  | .txNacked => true
  | _ => false

/-- The phases a STOP leaves at once with the bus held before a data phase (R212). -/
def Phase.isHeld : Phase → Bool
  | .started => true
  | .addrAcked _ => true
  | .addrNacked => true
  | _ => false

/-- Every byte written to the data register has been sent, or the slave has refused data (R200, R210). -/
def Bri.txDrained (b : Bri) : Bool := b.ph.isTx && b.shift.isNone && (b.txe || decide (b.ph = .txNacked))

/-- The guard of each step beyond `live` (R200 to R213). -/
def EngineStep.guard (s : State) : EngineStep → Bool
  | .start => s.bri.start && !s.bri.stop && ((decide (s.bri.ph = .idle) && !s.params.extBusy) || s.bri.txDrained)
  | .addr => decide (s.bri.ph = .addrQueued)
  | .txLoad => decide (s.bri.ph = .tx) && !s.bri.txe && s.bri.shift.isNone
  | .txDone => decide (s.bri.ph = .tx) && s.bri.shift.isSome
  | .rx => decide (s.bri.ph = .rx) && s.bri.shift.isNone
  | .stopTx => s.bri.stop && s.bri.txDrained
  | .stopRxDone => s.bri.stop && decide (s.bri.ph = .rxDone)
  | .stopHeld => s.bri.stop && s.bri.ph.isHeld
  | .stopIdle => s.bri.stop && decide (s.bri.ph = .idle)

/-- A step is enabled when the peripheral is live (R215) and its guard holds. -/
def EngineStep.enabled (s : State) (e : EngineStep) : Bool := s.params.periphLive && e.guard s

/-! ### Effects -/

/-- `toIdle()` (R214). -/
def Bri.toIdle (b : Bri) : Bri :=
  { b with
    ph := .idle
    stop := false
    sb := false
    txe := false
    addr := false
    addrSeen := false
    btf := if b.ph.isTx then false else b.shift.isSome }

/-- `emit(P); toIdle()`, the end of every STOP that reaches the wire (R206, R210 to R212). -/
def State.stopBus (s : State) : State := (s.setBri s.bri.toIdle).emit .stop

/-- E_START (R200). -/
def engineStart (s : State) : State :=
  (s.setBri { s.bri with start := false, sb := true, txe := false, btf := false, af := false, ph := .started }).emit
    (if s.bri.ph = .idle then .start else .repStart)

/-- E_ADDR (R202): the direction of the data phase is bit 0 of the byte sent. -/
def engineAddr (s : State) : State :=
  let b := s.bri.dr
  let k := s.slave.addrAck b
  { s with
    slave := s.slave.afterAddrAck
    bri :=
      if k then { s.bri with addr := true, ph := .addrAcked (b.getLsbD 0) } else { s.bri with af := true, ph := .addrNacked }
    wire := s.wire ++ [.address b k] }

/-- E_TXLOAD (R204). -/
def engineTxLoad (s : State) : State :=
  s.setBri { s.bri with shift := some s.bri.dr, txe := true }

/-- E_TXDONE (R205) for the byte `b` in the shift register. -/
def engineTxDone (b : Byte) (s : State) : State :=
  let k := s.slave.dataAck b
  { s with
    slave := s.slave.afterDataAck
    bri :=
      if k then { s.bri with shift := none, btf := if s.bri.txe then true else s.bri.btf }
      else { s.bri with shift := none, af := true, ph := .txNacked }
    wire := s.wire ++ [.transmit b k] }

/-- Where a received byte goes (spec/10_state.md R35; R206): the data register, or the shift register behind it. -/
def Bri.receive (v : Byte) (b : Bri) : Bri :=
  if b.rxne then { b with shift := some v, btf := true } else { b with dr := v, rxne := true }

/-- E_RX (R206): the answer is the acknowledge enable's value now; after a NACK a pending STOP follows in the same step. -/
def engineRx (s : State) : State :=
  let v := s.slave.rxByte
  let k := s.bri.ack
  let got : State :=
    { s with
      slave := s.slave.afterRxByte
      bri := s.bri.receive v
      wire := s.wire ++ [.receive v k] }
  if k then got
  else
    let done := got.setBri { got.bri with ph := .rxDone }
    if s.bri.stop then done.stopBus else done

/-- E_STOP_TX (R210). -/
def engineStopTx (s : State) : State := s.stopBus

/-- E_STOP_RXDONE (R211). -/
def engineStopRxDone (s : State) : State := s.stopBus

/-- E_STOP_HELD (R212); `toIdle` clears `sb`, `addr` and `addrSeen`. -/
def engineStopHeld (s : State) : State := s.stopBus

/-- E_STOP_IDLE (R213): discarded without a wire event. -/
def engineStopIdle (s : State) : State := s.setBri { s.bri with stop := false }

/-- The effect of a step. -/
def EngineStep.effect (s : State) : EngineStep → State
  | .start => engineStart s
  | .addr => engineAddr s
  | .txLoad => engineTxLoad s
  | .txDone =>
    match s.bri.shift with
    | some b => engineTxDone b s
    | none => s
  | .rx => engineRx s
  | .stopTx => engineStopTx s
  | .stopRxDone => engineStopRxDone s
  | .stopHeld => engineStopHeld s
  | .stopIdle => engineStopIdle s

/-- The nine steps. -/
def engineSteps : List EngineStep :=
  [.start, .addr, .txLoad, .txDone, .rx, .stopTx, .stopRxDone, .stopHeld, .stopIdle]

/-- The enabled engine step, if any (R221). -/
def engineNext (s : State) : Option EngineStep := engineSteps.find? (EngineStep.enabled s)

/-- Whether an engine step is enabled. -/
def engineCan (s : State) : Bool := (engineNext s).isSome

/-- The engine's turn: the enabled step, or nothing (log 7). -/
def engineTurn (s : State) : State :=
  match engineNext s with
  | some e => e.effect s
  | none => s

end Sys2Proof.Machine
end

