-- ==== Sys2Proof/Machine/Schedule.lean ====
section
/-! DEFINITION. Fetching (spec/45_control_flow.md R185) and who moves next (spec/46_bus_engine.md R230, R231). -/

namespace Sys2Proof.Machine

/-- `CS[upc]`: a word of the control store (R185). -/
def storeWord (cs : ControlStore) (a : MicroAddr) : MicroWord :=
  cs[a.toNat]'(by have := a.isLt; omega)

/-- The control store with the word at `a` replaced; only `State.withFetchWord` uses it, no step does (spec/20_memory.md R63). -/
def setStoreWord (cs : ControlStore) (a : MicroAddr) (w : MicroWord) : ControlStore :=
  cs.set a.toNat w (by have := a.isLt; omega)

/-- The micro-op at `SEQ.upc`, or why its word is illegal (R185, spec/30_encoding.md R87). -/
def fetch (s : State) : Except DecodeError Instr := decodeMicroOp (storeWord s.store s.seq.upc)

/-- `CS[SEQ.upc]` is a wait whose condition is false now (R231). -/
def atBlockedWait (s : State) : Bool :=
  match fetch s with
  | .ok i => waitBlocked s i
  | .error _ => false

/-- `next_step()` of R231. -/
def priorityAgent (s : State) : Agent :=
  match s.seq.run with
  | .busy => if atBlockedWait s && engineCan s then .engine else .sequencer
  | .ready => if engineCan s then .engine else .caller

/-- The agent the scheduler gives this turn: a function of the state under SEQ_PRIORITY (R231), a free choice under FREE
(R230; log 7). -/
def pickAgent (s : State) : Agent :=
  match s.params.sched with
  | .seqPriority => priorityAgent s
  | .free =>
    match s.turns.script with
    | a :: _ => a
    | [] => Config.freeAgent s.turns.count

/-- The scheduler's inputs after a turn: under FREE one choice is used up. -/
def Turns.after (t : Turns) : Turns :=
  match t.script with
  | _ :: rest => { t with script := rest }
  | [] => { t with count := t.count + 1 }

/-- The state an agent moves in: the scheduler's inputs are past this turn, everything else is as it was. -/
def State.turnTaken (s : State) : State :=
  match s.params.sched with
  | .seqPriority => s
  | .free => { s with turns := s.turns.after }

/-- The state in which the caller has put a request at the port (spec/30_encoding.md R80) and its remaining acts are `rest`. -/
def State.present (r : Request) (rest : List CallerAct) (s : State) : State :=
  { s with caller := rest, port := r.port }

end Sys2Proof.Machine
end

