-- ==== Sys2Proof/Machine/Turns.lean ====
section
/-! DEFINITION. What the sequencer and the caller do when the turn is theirs (spec/45_control_flow.md R185; spec/41_commands.md
R100, R106, R107), and how a word is placed so that the next step runs it. -/

namespace Sys2Proof.Machine

/-- The sequencer's step (R185): none when READY; else the micro-op at `SEQ.upc`, or ILLEGAL_MICROOP. -/
def sequencerTurn (s : State) : Host.Outcome State Fault Refusal :=
  match s.seq.run with
  | .ready => .next s
  | .busy =>
    match fetch s with
    | .error _ => .next (s.raise .illegalMicroop)
    | .ok i => exec i s

/-- A command handed over: a reserved word is refused (spec/30_encoding.md R83), any other is the command it spells. -/
def issueTurn (r : Request) (s : State) : Host.Outcome State Fault Refusal :=
  match decodeCommand r.word with
  | .error _ => .next s.refuse
  | .ok i => exec i s

/-- The caller's next act (log 10): `issue` and `fill` wait for READY (R106, R108, R230), `overlap` does not. -/
def callerTurn (s : State) : Host.Outcome State Fault Refusal :=
  match s.caller with
  | [] => .next s
  | .overlap r :: rest => issueTurn r (s.present r rest)
  | .issue r :: rest =>
    match s.seq.run with
    | .ready => issueTurn r (s.present r rest)
    | .busy => .next s
  | .fill a b :: rest =>
    match s.seq.run with
    | .ready => .next { s.memWrite a.toNat b with caller := rest }
    | .busy => .next s

/-- The turn of an agent. -/
def agentTurn (a : Agent) (s : State) : Host.Outcome State Fault Refusal :=
  match a with
  | .sequencer => sequencerTurn s
  | .engine => .next (engineTurn s)
  | .caller => callerTurn s

/-- The scheduler's inputs when the next turn is to be `a`'s (log 15). -/
def State.givingTurn (a : Agent) (s : State) : State :=
  { s with params := { s.params with sched := .free }, turns := { s.turns with script := a :: s.turns.script } }

/-- A sequencer in the course of a command: BUSY, and every operand latch that holds no value as accepting `byteRead(0, 0)`
leaves it (log 15). -/
def Seq.inCommand (q : Seq) : Seq :=
  { q with
    run := .busy
    op := some (q.op.getD opByteRead)
    sa := some (q.sa.getD 0)
    ra := some (q.ra.getD 0)
    rem := some (q.rem.getD 1)
    cur := some (q.cur.getD 0)
    buf := some (q.buf.getD 0) }

/-- `s` with a word placed where the next step takes its instruction from: a command at the port of a READY block, a micro-op in
the control store at `SEQ.upc` of a BUSY one; a fault record, with which no step is taken, is gone (log 15). -/
def placeCode (c : Code) (s : State) : State :=
  match c with
  | .command w =>
    { s with
      fault := none
      seq := { s.seq with run := .ready }
      caller := .issue { word := w, port := s.port } :: s.caller }.givingTurn .caller
  | .microOp w =>
    { s with
      fault := none
      seq := s.seq.inCommand
      store := setStoreWord s.store s.seq.upc w }.givingTurn .sequencer

end Sys2Proof.Machine
end

