-- ==== Sys2Proof/Machine/Step.lean ====
section
/-! DEFINITION. One step of the block: after a fault no agent steps (spec/60_exceptions.md R244); else the agent the scheduler
picks (spec/46_bus_engine.md R230, R231) takes its turn. -/

namespace Sys2Proof.Machine

/-- One step. -/
def step (s : State) : Host.Outcome State Fault Refusal :=
  match s.fault with
  | some r => .fault r.kind
  | none => agentTurn (pickAgent s) s.turnTaken

/-- `s` with the word `w` of `nbits` bits placed so that the very next step runs it (`placeCode`); `s` itself when no word has
that width. -/
def State.withFetchWord (s : State) (nbits w : Nat) : State :=
  match tableCode nbits w with
  | none => s
  | some c => placeCode c s

end Sys2Proof.Machine
end

