-- ==== Sys2Proof/Machine/Runs.lean ====
section
/-! DEFINITION. Runs of the block as interleavings of its agents' steps (spec/46_bus_engine.md R230 to R232), and what it is
for a command to hang (spec/60_exceptions.md R240). A run is a sequence of `step`s; which agent moves at each point of a FREE
run is a function of the point, so a claim can be about every interleaving, or about some. -/

namespace Sys2Proof.Machine

/-- `s` with `a` as the scheduler's next choice; under SEQ_PRIORITY no choice is read (R231). -/
def State.offering (a : Agent) (s : State) : State :=
  match s.params.sched with
  | .free => { s with turns := { s.turns with script := a :: s.turns.script } }
  | .seqPriority => s

/-- The state after a step in which, under FREE, it is `a`'s turn; once a fault is recorded no agent steps (R244). -/
def stepBy (a : Agent) (s : State) : State :=
  match step (s.offering a) with
  | .next t => t
  | .fault _ => s
  | .refused _ => s

/-- The state at point `k` of the run from `s` in which `who j` moves at point `j`. -/
def runBy (who : Nat → Agent) (s : State) : Nat → State
  | 0 => s
  | k + 1 => stepBy (who k) (runBy who s k)

/-- Which agents may move next: under FREE any whose step is enabled (R230), under SEQ_PRIORITY the one R231 gives. The caller
of a READY block may also leave its turn unused: it is not required to issue any command (R232; log 21). -/
def mayMove (s : State) (a : Agent) : Bool :=
  match s.params.sched with
  | .seqPriority => decide (a = priorityAgent s)
  | .free =>
    match a with
    | .sequencer => decide (s.seq.run = .busy)
    | .engine => engineCan s
    | .caller => decide (s.seq.run = .ready)

/-- `who` is an interleaving from `s`: until a fault is recorded, only an agent that may move is given the turn. -/
def Interleaves (who : Nat → Agent) (s : State) : Prop :=
  ∀ k, (runBy who s k).fault = none → mayMove (runBy who s k) (who k) = true

/-- Weak fairness (R232): an engine step that stays enabled from some point on is taken. It is asked of FREE runs only; under
SEQ_PRIORITY the state says who moves. -/
def WeaklyFair (who : Nat → Agent) (s : State) : Prop :=
  s.params.sched = .free → ∀ (e : EngineStep) (k : Nat),
    (∀ j, k ≤ j → (runBy who s j).fault = none ∧ e.enabled (runBy who s j) = true) → ∃ j, k ≤ j ∧ who j = .engine

/-- The executing command of `s` hangs (R240): some fair interleaving keeps the block BUSY for ever, and no fault is recorded
(log 21). -/
def Hangs (s : State) : Prop :=
  ∃ who, Interleaves who s ∧ WeaklyFair who s ∧
    ∀ k, (runBy who s k).seq.run = .busy ∧ (runBy who s k).fault = none

end Sys2Proof.Machine
end

