-- ==== Sys2Proof/Safety.lean ====
section
/-! DEFINITION. The ends of a run (spec/46_bus_engine.md R233), and the invariants the claims are stated with. -/

namespace Sys2Proof.Machine

/-! ### Ends of a run (R233) -/

/-- A *stuck* state (R233): a command hangs at a wait whose condition is false and no engine step is enabled. -/
structure Stuck (s : State) : Prop where
  busy : s.seq.run = .busy
  noFault : s.fault = none
  blocked : atBlockedWait s = true
  engineOff : engineNext s = none
  faithful : s.params.checked = false

/-- A *quiescent* state (R233): READY and no engine step is enabled. -/
structure Quiescent (s : State) : Prop where
  ready : s.seq.run = .ready
  noFault : s.fault = none
  engineOff : engineNext s = none

/-- The command that executes in `s` comes to a stuck state, BUSY all the way (R240). -/
def ReachesStuck (s : State) : Prop :=
  ∃ k t, Sys2Proof.core.run k s = .next t ∧ Stuck t ∧ ∀ j < k, ∃ u, Sys2Proof.core.run j s = .next u ∧ u.seq.run = .busy

/-- A run ends when it is quiescent, stuck or faulted (R233). -/
def RunEnds (s : State) : Prop := Quiescent s ∨ Stuck s ∨ s.fault ≠ none

/-! ### What the fixed control store never does (spec/60_exceptions.md R243, last column) -/

/-- The micro-addresses of the three programs (spec/30_encoding.md R88). -/
def inProgram (a : MicroAddr) : Bool :=
  decide (a.toNat ≤ 0x11) || (decide (0x20 ≤ a.toNat) && decide (a.toNat ≤ 0x36)) ||
    (decide (0x40 ≤ a.toNat) && decide (a.toNat ≤ 0x4E))

/-- The micro-addresses the programs reach only while a byte remains (R91: after BR_REM_ZERO at 0x2D and 0x48 was not taken,
up to the byte's RD_DATA or WR_DATA). -/
def holdsByte (a : MicroAddr) : Bool :=
  decide (a.toNat ∈ [0x2E, 0x2F, 0x30, 0x32, 0x33, 0x34, 0x35, 0x49, 0x4A])

/-- Every operand latch of accept holds a value (spec/10_state.md R20, R29). -/
structure Latched (q : Seq) : Prop where
  op : q.op.isSome
  sa : q.sa.isSome
  ra : q.ra.isSome
  rem : q.rem.isSome
  cur : q.cur.isSome
  buf : q.buf.isSome

/-- The sequencer runs the fixed control store: its programs only, with every latch written and a byte left wherever one is
moved; so the only faults on record are those R243 calls reachable. -/
structure SeqInv (s : State) : Prop where
  store : s.store = storeImage
  latched : s.seq.run = .busy → Latched s.seq
  inside : s.seq.run = .busy → inProgram s.seq.upc = true
  byteLeft : s.seq.run = .busy → holdsByte s.seq.upc = true → s.seq.rem ≠ some 0
  fault : ∀ r, s.fault = some r → r.kind = .briUnspec ∨ r.kind = .cmdRefused

/-! ### The Bus Register Interface (spec/10_state.md R31 to R39) -/

/-- How the flags, the shift register and the requests go with the phase. -/
structure BriInv (b : Bri) : Prop where
  /-- `sb` is 1 exactly in STARTED (R32, R39) -/
  sb : b.sb = true ↔ b.ph = .started
  /-- `addr` is 1 exactly in ADDR_ACKED (R33, R39) -/
  addr : b.addr = true ↔ ∃ d, b.ph = .addrAcked d
  /-- the latch of the two-read clear is set only while `addr = 1` (R33, R64, R65) -/
  seen : b.addrSeen = true → b.addr = true
  /-- `txe` is 1 only in the transmit data phase (R34) -/
  txe : b.txe = true → b.ph = .tx ∨ b.ph = .txNacked
  /-- in TX, `btf` says that nothing is left to send (R34) -/
  btfTx : b.ph = .tx → b.btf = true → b.txe = true ∧ b.shift = none
  /-- in RX, RX_DONE and IDLE, `btf` says that the shift register holds a received byte (R34, R214) -/
  btfRx : b.ph = .rx ∨ b.ph = .rxDone ∨ b.ph = .idle → (b.btf = true ↔ b.shift.isSome)
  /-- in every other phase `btf` is 0 -/
  btfElse : b.ph ≠ .tx → b.ph ≠ .rx → b.ph ≠ .rxDone → b.ph ≠ .idle → b.btf = false
  /-- outside TX the shift register holds only a received byte behind an unread one (R35) -/
  shift : b.ph ≠ .tx → b.shift.isSome → b.rxne = true
  /-- no received byte is unread from the address byte to the end of a transmit phase (R67) -/
  rxne : b.rxne = true → b.ph = .idle ∨ b.ph = .started ∨ b.ph = .rx ∨ b.ph = .rxDone
  /-- a NACKed phase shows the failure until an abort requests its STOP (R38, R39, R252) -/
  nacked : b.ph = .addrNacked ∨ b.ph = .txNacked → b.af = true ∨ b.stop = true
  /-- a START request waits only where it is defined, or behind a STOP (R68) -/
  start : b.start = true → b.stop = false → b.ph = .idle ∨ b.ph = .tx ∨ b.ph = .txNacked

/-! ### Status and polls (R250, R28) -/

/-- The status codes occur only where R250 says, and failed polls are counted only in checked mode and within the budget
(spec/10_state.md R20, R28). -/
structure StatusInv (s : State) : Prop where
  /-- codes 5 to 7 are never set (R250) -/
  range : s.seq.status.toNat ≤ 4
  /-- codes 1 to 3 occur only in checked mode (R250) -/
  checked : s.params.checked = false → s.seq.status = 0 ∨ s.seq.status = 4
  /-- code 4 occurs only with `P_ADDR_LSB = REJECT` (R250) -/
  reject : s.params.addrLsb ≠ .reject → s.seq.status ≠ 4
  /-- in faithful mode `polls` is always 0 (R28) -/
  polls : s.params.checked = false → s.seq.polls = 0
  /-- `polls` never reaches the budget (R20, R140) -/
  budget : s.seq.polls = 0 ∨ s.seq.polls < s.params.pollBudget

/-! ### Terms the claims use -/

/-- The waits of spec/43_flag_waits.md section 2. -/
def isWait : Instr → Bool
  | .waitIdle => true
  | .waitSb => true
  | .waitAddr => true
  | .waitTxe => true
  | .waitBtf => true
  | .waitRxne => true
  | _ => false

/-- The BRI after the read a wait makes (R142): SR2 for WAIT_IDLE, SR1 for every other wait. -/
def afterWaitRead (i : Instr) (b : Bri) : Bri := if i = .waitIdle then b.afterSr2 else b.afterSr1

/-- The parts of the state the scheduler's and the caller's inputs are not: what R244 says a fault leaves as it was. -/
def SameBlock (s t : State) : Prop :=
  t.seq = s.seq ∧ t.bri = s.bri ∧ t.mem = s.mem ∧ t.store = s.store ∧ t.wire = s.wire ∧ t.params = s.params ∧
    t.slave = s.slave

/-- The start of an all-ACK run (spec/41_commands.md): SEQ_PRIORITY, a live peripheral, no other master, a READY block with the
fixed control store, phase IDLE with no request pending, and no received byte left unread (R67). -/
structure FreshBus (s : State) : Prop where
  noFault : s.fault = none
  ready : s.seq.run = .ready
  sched : s.params.sched = .seqPriority
  live : s.params.periphLive = true
  own : s.params.extBusy = false
  store : s.store = storeImage
  idle : s.bri.ph = .idle
  noStart : s.bri.start = false
  noStop : s.bri.stop = false
  noByte : s.bri.rxne = false
  flags : BriInv s.bri

end Sys2Proof.Machine
end

