-- ==== Sys2Proof/Certificates/Slice0/Obligations.lean ====
section
/-! DEFINITION. The statements about the model, from the numbered rules of spec/. A result is stated as the whole next state, with
a record update of the state before: every field the update does not name is unchanged (the frame). -/

open Sys2Proof Sys2Proof.Machine

/-! ## Encoding (spec/30_encoding.md) -/

/-- Decoding the word of any instruction gives the instruction back, with every operand value (R81 to R86). -/
def Obligations.DecodeOfEncode : Prop :=
  ∀ i : Instr, WellFormed (encode i).space i = true ∧ decode (encode i) = .ok i

/-- A word the decoder accepts is the word of what it decodes to, and stands in that instruction's space: no two words spell one
instruction and no reserved word is taken for a neighbour (R83, R87). -/
def Obligations.EncodeOfDecode : Prop :=
  ∀ (c : Code) (i : Instr), decode c = .ok i → encode i = c ∧ WellFormed c.space i = true

/-- The command map of R82: match, mask, the command with `sa = C[15:8]` and `ra = C[23:16]`, and the entry address. -/
def Obligations.CommandWordMap : Prop :=
  (∀ c : CommandWord,
    (c &&& 0xFF0000FF#32 = 0x00000000#32 ↔ decodeCommand c = .ok (.byteRead (c.extractLsb' 8 8) (c.extractLsb' 16 8))) ∧
    (c &&& 0xFF0000FF#32 = 0x00000001#32 ↔ decodeCommand c = .ok (.burstRead (c.extractLsb' 8 8) (c.extractLsb' 16 8))) ∧
    (c &&& 0xFF0000FF#32 = 0x00000002#32 ↔ decodeCommand c = .ok (.burstWrite (c.extractLsb' 8 8) (c.extractLsb' 16 8)))) ∧
  entryOf 0b00 = 0x00 ∧ entryOf 0b01 = 0x20 ∧ entryOf 0b10 = 0x40

/-- R87: which micro-op words are illegal; a sequencer step that fetches one raises ILLEGAL_MICROOP at its `upc` and the micro-op
does not execute; the image's illegal words are 0x0000 words outside the programs, and no branch of a program leaves it. -/
def Obligations.IllegalMicroOpWords : Prop :=
  (∀ w : MicroWord, (∃ e, decodeMicroOp w = .error e) ↔
    (w.extractLsb' 11 5 = 0x00#5 ∨ 0x18 ≤ (w.extractLsb' 11 5).toNat ∨ w.extractLsb' 8 3 ≠ 0#3 ∨
      (w.extractLsb' 0 8 ≠ 0x00#8 ∧ w.extractLsb' 11 5 ≠ 0x14#5 ∧ w.extractLsb' 11 5 ≠ 0x15#5 ∧
        w.extractLsb' 11 5 ≠ 0x16#5))) ∧
  (∀ (s : State) (e : DecodeError), s.fault = none → pickAgent s = .sequencer → s.seq.run = .busy →
    decodeMicroOp (storeWord s.store s.seq.upc) = .error e →
    ∃ t, step s = .next t ∧ t.fault = some { kind := .illegalMicroop, upc := some s.seq.upc } ∧ SameBlock s t) ∧
  (∀ (a : MicroAddr) (e : DecodeError), decodeMicroOp (storeWord storeImage a) = .error e →
    storeWord storeImage a = 0x0000 ∧ inProgram a = false) ∧
  (∀ a t : MicroAddr, decodeMicroOp (storeWord storeImage a) = .ok (.brRemZero t) ∨
    decodeMicroOp (storeWord storeImage a) = .ok (.brRemOne t) ∨ decodeMicroOp (storeWord storeImage a) = .ok (.jmp t) →
    inProgram t = true)

/-- Words written out from the spec's encodings (R81, R86; spec/95_test_vectors.md T30) decode to the instructions they stand
for. -/
def Obligations.SpecWordsDecode : Prop :=
  decode (.command 0x0075D000) = .ok (.byteRead 0xD0 0x75) ∧
  decode (.command 0x003BD001) = .ok (.burstRead 0xD0 0x3B) ∧
  decode (.command 0x006BD002) = .ok (.burstWrite 0xD0 0x6B) ∧
  decode (.microOp 0x1000) = .ok .genStart ∧
  decode (.microOp 0x3800) = .ok .waitAddr ∧
  decode (.microOp 0x6800) = .ok .rdData ∧
  decode (.microOp 0xA832) = .ok (.brRemOne 0x32) ∧
  decode (.microOp 0xB800) = .ok .ret

/-! ## Steps, scheduling and faults -/

/-- On the sequencer's turn a BUSY block runs exactly the micro-op its word decodes to (R185); around it a step only uses up a
scheduler's choice. -/
def Obligations.StepRunsFetchedMicroOp : Prop :=
  ∀ (s : State) (i : Instr), s.fault = none → pickAgent s = .sequencer → s.seq.run = .busy →
    decodeMicroOp (storeWord s.store s.seq.upc) = .ok i → step s = exec i s.turnTaken

/-- On the caller's turn a READY block runs exactly the command the word handed over decodes to, with the count and buffer of the
request at the port (R80, R100); the request is used up. That the request waits in the caller's list, and that its operands then
stand in a field `port`, is the model's own choice (log 10, 11). -/
def Obligations.StepRunsIssuedCommand : Prop :=
  ∀ (s : State) (i : Instr) (r : Request) (rest : List CallerAct), s.fault = none → pickAgent s = .caller →
    s.seq.run = .ready → s.caller = .issue r :: rest → decodeCommand r.word = .ok i →
    step s = exec i { s.turnTaken with caller := rest, port := r.port }

/-- R83: a word with `op = 11`, `z0 ≠ 0` or `z1 ≠ 0`, and no other, spells no command; handed over to a READY block it is refused
with CMD_REFUSED and no state of the block changes. -/
def Obligations.ReservedCommandRefused : Prop :=
  ∀ c : CommandWord,
    ((∃ e, decodeCommand c = .error e) ↔
      (c.extractLsb' 0 2 = 0b11#2 ∨ c.extractLsb' 2 6 ≠ 0#6 ∨ c.extractLsb' 24 8 ≠ 0#8)) ∧
    ∀ (s : State) (p : Port) (rest : List CallerAct), (∃ e, decodeCommand c = .error e) → s.fault = none →
      pickAgent s = .caller → s.seq.run = .ready → s.caller = .issue { word := c, port := p } :: rest →
      ∃ t, step s = .next t ∧ t.fault = some { kind := .cmdRefused, upc := none } ∧ SameBlock s t

/-- R244: a step that raises a fault has no other effect on the block, the wire and the slave; the record holds the kind and the
`upc` of the faulting micro-op (none for CMD_REFUSED, R243); and from then on no agent takes a step. -/
def Obligations.RaisingStepHasNoOtherEffect : Prop :=
  ∀ (s t : State) (r : FaultRecord), step s = .next t → t.fault = some r →
    SameBlock s t ∧ r.upc = (if r.kind = .cmdRefused then none else some s.seq.upc) ∧ step t = .fault r.kind

/-- R231: who moves under SEQ_PRIORITY, in every state without a fault record. -/
def Obligations.SeqPrioritySchedule : Prop :=
  ∀ s : State, s.fault = none → s.params.sched = .seqPriority →
    (∀ e, s.seq.run = .busy → atBlockedWait s = true → engineNext s = some e → step s = .next (e.effect s)) ∧
    (s.seq.run = .busy → atBlockedWait s = false ∨ engineNext s = none → step s = sequencerTurn s) ∧
    (∀ e, s.seq.run = .ready → engineNext s = some e → step s = .next (e.effect s)) ∧
    (s.seq.run = .ready → engineNext s = none → step s = callerTurn s)

/-- R230: under FREE the step is the turn of whichever agent the schedule names, and only the schedule's choice is used up. -/
def Obligations.FreeScheduleTakesChosenAgent : Prop :=
  ∀ (s : State) (a : Agent) (rest : List Agent), s.fault = none → s.params.sched = .free → s.turns.script = a :: rest →
    step s = agentTurn a { s with turns := { s.turns with script := rest } }

/-- R29: a micro-op that reads a register holding no value raises UNWRITTEN_REG at its `upc` and has no other effect. RET reads
`op` only in checked mode (the model's choice, log 13). -/
def Obligations.UnwrittenRegisterFaults : Prop :=
  ∀ s : State,
    let faulted : Host.Outcome State Fault Refusal :=
      .next { s with fault := some { kind := .unwrittenReg, upc := some s.seq.upc } }
    (s.seq.sa = none → exec .wrAddrW s = faulted ∧ exec .wrAddrROr s = faulted ∧ exec .wrAddrRInc s = faulted) ∧
    (s.seq.ra = none → exec .wrReg s = faulted) ∧
    (s.seq.rem = none → exec .rdData s = faulted ∧ exec .wrData s = faulted ∧
      ∀ t, exec (.brRemZero t) s = faulted ∧ exec (.brRemOne t) s = faulted) ∧
    (s.seq.rem ≠ some 0 → s.seq.buf = none ∨ s.seq.cur = none → exec .rdData s = faulted ∧ exec .wrData s = faulted) ∧
    (s.seq.op = none → s.params.checked = true → exec .ret s = faulted)

/-! ## Commands (spec/41_commands.md) -/

/-- R100: what accept writes, for each command; with `P_ADDR_LSB = REJECT` and bit 0 of `sa` set the command ends at once with
status 4. Nothing else of the state changes: not `res`, not the BRI. `byteRead` is accepted whatever count and buffer length stand beside it,
also a count that does not fit, which R107 by the letter would refuse: the model's reading of R80 (log 9). -/
def Obligations.CommandAccept : Prop :=
  ∀ (sa ra : Byte) (s : State), s.seq.run = .ready →
    let sa' := if s.params.addrLsb = .normalize then sa &&& 0xFE else sa
    let started (op : BitVec 2) (rem : Count) (entry : MicroAddr) : State :=
      { s with
        seq :=
          { s.seq with
            op := some op, sa := some sa', ra := some ra, buf := some s.port.buf, cur := some 0, rem := some rem
            status := 0, polls := 0, run := .busy, upc := entry } }
    let rejected (op : BitVec 2) (rem : Count) : State :=
      { s with
        seq :=
          { s.seq with
            op := some op, sa := some sa', ra := some ra, buf := some s.port.buf, cur := some 0, rem := some rem
            status := 4, polls := 0, run := .ready } }
    let fits := s.port.n ≤ s.port.len ∧ s.port.n < 2 ^ 32
    (¬(s.params.addrLsb = .reject ∧ sa.getLsbD 0 = true) →
      exec (.byteRead sa ra) s = .next (started 0b00 1 0x00) ∧
      (fits → exec (.burstRead sa ra) s = .next (started 0b01 (BitVec.ofNat 32 s.port.n) 0x20)) ∧
      (fits → exec (.burstWrite sa ra) s = .next (started 0b10 (BitVec.ofNat 32 s.port.n) 0x40))) ∧
    (s.params.addrLsb = .reject → sa.getLsbD 0 = true →
      exec (.byteRead sa ra) s = .next (rejected 0b00 1) ∧
      (fits → exec (.burstRead sa ra) s = .next (rejected 0b01 (BitVec.ofNat 32 s.port.n))) ∧
      (fits → exec (.burstWrite sa ra) s = .next (rejected 0b10 (BitVec.ofNat 32 s.port.n))))

/-- R107: a reserved word, a BUSY block, a buffer shorter than `n`, or an `n` that does not fit: CMD_REFUSED is recorded, without
a `upc`, and nothing else changes. A caller that breaks R106 and hands a command over to a BUSY block (`overlap`, log 10) is refused
so in a step. That the count and the buffer do not matter to `byteRead` is the model's reading of R80 (log 9). -/
def Obligations.CommandRefused : Prop :=
  ∀ (sa ra : Byte) (s : State),
    let refused : Host.Outcome State Fault Refusal := .next { s with fault := some { kind := .cmdRefused, upc := none } }
    (∀ r : Request, (∃ e, decodeCommand r.word = .error e) → issueTurn r s = refused) ∧
    (s.seq.run = .busy → exec (.byteRead sa ra) s = refused) ∧
    (s.seq.run = .busy ∨ s.port.len < s.port.n ∨ 2 ^ 32 ≤ s.port.n →
      exec (.burstRead sa ra) s = refused ∧ exec (.burstWrite sa ra) s = refused) ∧
    (∀ (r : Request) (rest : List CallerAct), s.fault = none → pickAgent s = .caller → s.seq.run = .busy →
      s.caller = .overlap r :: rest →
      ∃ t, step s = .next t ∧ t.fault = some { kind := .cmdRefused, upc := none } ∧ SameBlock s t)

/-! ## Bus control (spec/42_bus_control.md) -/

/-- R68 through the micro-ops that make its writes: GEN_START sets `start` where a START is defined and else raises BRI_UNSPEC;
GEN_STOP sets `stop`; ACK_ON and ACK_OFF write `ack`. A micro-op that completes goes on to `upc + 1` with `polls` 0. -/
def Obligations.ControlRegisterWrites : Prop :=
  ∀ s : State,
    let next := { s.seq with polls := 0, upc := s.seq.upc + 1 }
    (s.bri.stop = true ∨ s.bri.ph = .idle ∨ s.bri.ph = .tx ∨ s.bri.ph = .txNacked →
      exec .genStart s = .next { s with bri := { s.bri with start := true }, seq := next }) ∧
    (s.bri.stop = false → s.bri.ph ≠ .idle → s.bri.ph ≠ .tx → s.bri.ph ≠ .txNacked →
      exec .genStart s = .next { s with fault := some { kind := .briUnspec, upc := some s.seq.upc } }) ∧
    exec .genStop s = .next { s with bri := { s.bri with stop := true }, seq := next } ∧
    exec .ackOn s = .next { s with bri := { s.bri with ack := true }, seq := next } ∧
    exec .ackOff s = .next { s with bri := { s.bri with ack := false }, seq := next }

/-- R122: OPT_STOP requests a STOP only with `P_EMIT_STOP_ON_WRITE`; either way it goes on to `upc + 1`. -/
def Obligations.OptStopFollowsParameter : Prop :=
  ∀ s : State,
    exec .optStop s = .next
      { s with
        bri := { s.bri with stop := if s.params.emitStopOnWrite then true else s.bri.stop }
        seq := { s.seq with polls := 0, upc := s.seq.upc + 1 } }

/-! ## Waits and the address clear (spec/43_flag_waits.md) -/

/-- R144 to R149: each wait whose condition holds completes in one poll, in every mode: `upc + 1`, `polls` 0, and the read's side
effect: an SR1 read sets `addrSeen` when `addr = 1` (R64), the SR2 read of WAIT_IDLE is that of R65. -/
def Obligations.WaitsComplete : Prop :=
  ∀ s : State,
    let done (b : Bri) : Host.Outcome State Fault Refusal :=
      .next { s with bri := b, seq := { s.seq with polls := 0, upc := s.seq.upc + 1 } }
    let seen : Bri := { s.bri with addrSeen := s.bri.addr || s.bri.addrSeen }
    (s.bri.ph = .idle → s.params.extBusy = false → s.bri.addr = false →
      exec .waitIdle s = done { s.bri with addrSeen := false }) ∧
    (s.bri.sb = true → exec .waitSb s = done seen) ∧
    (s.bri.addr = true → exec .waitAddr s = done { s.bri with addrSeen := true }) ∧
    (s.bri.txe = true → exec .waitTxe s = done seen) ∧
    (s.bri.btf = true → exec .waitBtf s = done seen) ∧
    (s.bri.rxne = true → exec .waitRxne s = done seen)

/-- R140 and R141 on every wait: the condition wins; else, in checked mode, an acknowledge failure aborts WAIT_ADDR with NO_ACK
and the last poll of the budget aborts with TIMEOUT; else the wait is polled again, the poll counted in checked mode only. The
abort is that of R252. What each wait's condition is on the flags, and when it is false (R144 to R149), and the side effect of the
read (R64, R65; where R65 has no arm the phase stays, log 1) are stated beside it. -/
def Obligations.WaitPollOutcome : Prop :=
  ∀ (i : Instr) (s : State), isWait i = true →
    let b := afterWaitRead i s.bri
    let aborted (code : BitVec 3) : State :=
      { s with
        bri :=
          { b with
            start := false
            ack := if b.ph = .rx then false else b.ack
            stop := if b.ph = .idle then b.stop else true
            af := false }
        seq := { s.seq with status := code, polls := 0, run := .ready } }
    (waitBlocked s i = false →
      exec i s = .next { s with bri := b, seq := { s.seq with polls := 0, upc := s.seq.upc + 1 } }) ∧
    (waitBlocked s i = true → s.params.checked = true → i = .waitAddr → s.bri.af = true → exec i s = .next (aborted 2)) ∧
    (waitBlocked s i = true → s.params.checked = true → ¬(i = .waitAddr ∧ s.bri.af = true) →
      s.params.pollBudget ≤ s.seq.polls + 1 → exec i s = .next (aborted 1)) ∧
    (waitBlocked s i = true → s.params.checked = true → ¬(i = .waitAddr ∧ s.bri.af = true) →
      s.seq.polls + 1 < s.params.pollBudget →
      exec i s = .next { s with bri := b, seq := { s.seq with polls := s.seq.polls + 1 } }) ∧
    (waitBlocked s i = true → s.params.checked = false → exec i s = .next { s with bri := b }) ∧
    (waitBlocked s .waitIdle = true ↔ s.bri.ph ≠ .idle ∨ s.params.extBusy = true) ∧
    (waitBlocked s .waitSb = true ↔ s.bri.sb = false) ∧
    (waitBlocked s .waitAddr = true ↔ s.bri.addr = false) ∧
    (waitBlocked s .waitTxe = true ↔ s.bri.txe = false) ∧
    (waitBlocked s .waitBtf = true ↔ s.bri.btf = false) ∧
    (waitBlocked s .waitRxne = true ↔ s.bri.rxne = false) ∧
    (i ≠ .waitIdle → b = { s.bri with addrSeen := s.bri.addr || s.bri.addrSeen }) ∧
    (i = .waitIdle → ∃ t, exec .clrAddr s = .next t ∧ b = t.bri)

/-- R65 through CLR_ADDR (R150): with both `addrSeen` and `addr` set the address phase ends, into TX or RX by its direction bit;
else nothing changes but `addrSeen`, which every SR2 read clears. It always goes on to `upc + 1`. That the phase stays where it is not
ADDR_ACKED, a case R65 has no arm for, is the model's choice (log 1). -/
def Obligations.ClrAddrEndsAddressPhase : Prop :=
  ∀ s : State,
    let done (b : Bri) : Host.Outcome State Fault Refusal :=
      .next { s with bri := b, seq := { s.seq with polls := 0, upc := s.seq.upc + 1 } }
    (s.bri.addrSeen = true → s.bri.addr = true → s.bri.ph = .addrAcked false →
      exec .clrAddr s = done { s.bri with addr := false, addrSeen := false, ph := .tx, txe := true, btf := false }) ∧
    (s.bri.addrSeen = true → s.bri.addr = true → s.bri.ph = .addrAcked true →
      exec .clrAddr s = done { s.bri with addr := false, addrSeen := false, ph := .rx }) ∧
    (s.bri.addrSeen = true → s.bri.addr = true → (∀ d, s.bri.ph ≠ .addrAcked d) →
      exec .clrAddr s = done { s.bri with addr := false, addrSeen := false }) ∧
    (s.bri.addrSeen = false ∨ s.bri.addr = false → exec .clrAddr s = done { s.bri with addrSeen := false })

/-- R284: an SR1 read that sees `ADDR = 1`, control-register writes, then an SR2 read: the flag is cleared and the data phase of
the address's direction begins; an SR2 read without the SR1 read leaves `ADDR` set and the bus held. -/
def Obligations.TwoReadAddressClear : Prop :=
  ∀ (s : State) (d : Bool), s.bri.addr = true → s.bri.ph = .addrAcked d →
    (∃ t₁ t₂ t₃ t₄, exec .waitAddr s = .next t₁ ∧ exec .ackOff t₁ = .next t₂ ∧ exec .genStop t₂ = .next t₃ ∧
      exec .clrAddr t₃ = .next t₄ ∧ t₄.bri.addr = false ∧ t₄.bri.ph = (if d then .rx else .tx)) ∧
    (s.bri.addrSeen = false →
      ∃ t, exec .clrAddr s = .next t ∧ t.bri.addr = true ∧ t.bri.ph = .addrAcked d ∧ t.bri.addrSeen = false)

/-! ## Address and data transfer (spec/44_data_transfer.md) -/

/-- R160 to R163 in phase STARTED (R67): the byte written becomes the queued address byte: `sa`, `sa | 1`, `(sa + 1) mod 256`; a
register byte written there is queued the same way. -/
def Obligations.AddressByteQueued : Prop :=
  ∀ (s : State) (v : Byte), s.bri.rxne = false → s.bri.ph = .started →
    let queued (b : Byte) : Host.Outcome State Fault Refusal :=
      .next
        { s with
          bri := { s.bri with dr := b, sb := false, ph := .addrQueued }
          seq := { s.seq with polls := 0, upc := s.seq.upc + 1 } }
    (s.seq.sa = some v →
      exec .wrAddrW s = queued v ∧ exec .wrAddrROr s = queued (v ||| 0x01) ∧ exec .wrAddrRInc s = queued (v + 1)) ∧
    (s.seq.ra = some v → exec .wrReg s = queued v)

/-- R160 to R163 in phase TX with `txe = 1` (R67): the byte written waits as a data byte, `txe` and `btf` fall. -/
def Obligations.DataByteWritten : Prop :=
  ∀ (s : State) (v : Byte), s.bri.rxne = false → s.bri.ph = .tx → s.bri.txe = true →
    let written (b : Byte) : Host.Outcome State Fault Refusal :=
      .next
        { s with
          bri := { s.bri with dr := b, txe := false, btf := false }
          seq := { s.seq with polls := 0, upc := s.seq.upc + 1 } }
    (s.seq.ra = some v → exec .wrReg s = written v) ∧
    (s.seq.sa = some v →
      exec .wrAddrW s = written v ∧ exec .wrAddrROr s = written (v ||| 0x01) ∧ exec .wrAddrRInc s = written (v + 1))

/-- R67's other cases: with a received byte unread, or outside STARTED and TX-with-`txe`, every micro-op that writes the data
register raises BRI_UNSPEC at its `upc` and has no other effect: WR_DATA leaves `cur` and `rem` as they were (R166). -/
def Obligations.DataRegisterWriteFaults : Prop :=
  ∀ s : State, s.bri.rxne = true ∨ (s.bri.ph ≠ .started ∧ ¬(s.bri.ph = .tx ∧ s.bri.txe = true)) →
    let faulted : Host.Outcome State Fault Refusal :=
      .next { s with fault := some { kind := .briUnspec, upc := some s.seq.upc } }
    (s.seq.sa.isSome → exec .wrAddrW s = faulted ∧ exec .wrAddrROr s = faulted ∧ exec .wrAddrRInc s = faulted) ∧
    (s.seq.ra.isSome → exec .wrReg s = faulted) ∧
    (∀ rem, s.seq.rem = some rem → rem ≠ 0 → s.seq.buf.isSome → s.seq.cur.isSome → exec .wrData s = faulted)

/-- R161 and R162: the two read-direction bytes agree exactly when the caller left bit 0 at 0; the first keeps bits [7:1] and
sets bit 0, the second is the next number modulo 256. -/
def Obligations.ReadDirectionBytes : Prop :=
  ∀ sa : Byte,
    (addrByteROr sa = addrByteRInc sa ↔ sa.getLsbD 0 = false) ∧
    (addrByteROr sa).getLsbD 0 = true ∧ (addrByteROr sa).extractLsb' 1 7 = sa.extractLsb' 1 7 ∧
    (addrByteRInc sa).toNat = (sa.toNat + 1) % 256

/-- R164 over R66: RD_RES takes the data register's byte into `res`; the shift register's byte moves up and `rxne` stays, or
`rxne` falls. With `rxne = 0` the read has no effect on the BRI (R66's prose; the model's reading where the pseudocode differs is
log 12). -/
def Obligations.RdResTakesByte : Prop :=
  ∀ s : State,
    let taken (b : Bri) : Host.Outcome State Fault Refusal :=
      .next { s with bri := b, seq := { s.seq with res := some s.bri.dr, polls := 0, upc := s.seq.upc + 1 } }
    (∀ v, s.bri.rxne = true → s.bri.shift = some v →
      exec .rdRes s = taken { s.bri with dr := v, shift := none, btf := false }) ∧
    (s.bri.rxne = true → s.bri.shift = none → exec .rdRes s = taken { s.bri with rxne := false }) ∧
    (s.bri.rxne = false → exec .rdRes s = taken s.bri)

/-- R165: RD_DATA stores the data register's byte at `buf + cur` and there only, advances `cur`, takes 1 from `rem`, and pops the
receive side as R66 says; with `rxne = 0` the BRI does not change, also with a byte in the shift register (the model's reading of R66
where its prose and pseudocode differ, log 12). The address is the sum modulo 2^32 (the model's choice, log 5). -/
def Obligations.RdDataStoresByte : Prop :=
  ∀ (s : State) (rem cur : Count) (buf : Addr), s.mem.wf → s.seq.rem = some rem → rem ≠ 0 → s.seq.buf = some buf →
    s.seq.cur = some cur →
    ∃ t, exec .rdData s = .next t ∧
      t.mem.read (bufAddr buf cur) = s.bri.dr ∧
      (∀ a, a ≠ bufAddr buf cur → t.mem.read a = s.mem.read a) ∧
      (∀ v, s.bri.rxne = true → s.bri.shift = some v →
        t.bri = { s.bri with dr := v, shift := none, btf := false }) ∧
      (s.bri.rxne = true → s.bri.shift = none → t.bri = { s.bri with rxne := false }) ∧
      (s.bri.rxne = false → t.bri = s.bri) ∧
      t = { s with
        mem := t.mem
        bri := t.bri
        seq := { s.seq with cur := some (cur + 1), rem := some (rem - 1), polls := 0, upc := s.seq.upc + 1 } }

/-- R166: WR_DATA writes the byte at `buf + cur` into the data register, advances `cur` and takes 1 from `rem`; it stores nothing,
so every byte of memory is unchanged. In STARTED the byte is queued as an address byte (R67). -/
def Obligations.WrDataSendsByte : Prop :=
  ∀ (s : State) (rem cur : Count) (buf : Addr), s.seq.rem = some rem → rem ≠ 0 → s.seq.buf = some buf →
    s.seq.cur = some cur → s.bri.rxne = false →
    let moved := { s.seq with cur := some (cur + 1), rem := some (rem - 1), polls := 0, upc := s.seq.upc + 1 }
    let byte := s.mem.read (bufAddr buf cur)
    (s.bri.ph = .tx → s.bri.txe = true →
      exec .wrData s = .next { s with bri := { s.bri with dr := byte, txe := false, btf := false }, seq := moved }) ∧
    (s.bri.ph = .started →
      exec .wrData s = .next { s with bri := { s.bri with dr := byte, sb := false, ph := .addrQueued }, seq := moved })

/-- R165 and R166 with `rem = 0`: BUF_OVERRUN is recorded at the `upc` and nothing else changes. -/
def Obligations.ByteMoveOverrun : Prop :=
  ∀ s : State, s.seq.rem = some 0 →
    let faulted : Host.Outcome State Fault Refusal :=
      .next { s with fault := some { kind := .bufOverrun, upc := some s.seq.upc } }
    exec .rdData s = faulted ∧ exec .wrData s = faulted

/-! ## Control flow (spec/45_control_flow.md) -/

/-- R180 to R182: where the branches go; nothing changes but `upc` and `polls`. -/
def Obligations.BranchTargets : Prop :=
  ∀ (s : State) (t : MicroAddr) (rem : Count),
    let at_ (a : MicroAddr) : Host.Outcome State Fault Refusal := .next { s with seq := { s.seq with polls := 0, upc := a } }
    (s.seq.rem = some rem →
      exec (.brRemZero t) s = at_ (if rem = 0 then t else s.seq.upc + 1) ∧
      exec (.brRemOne t) s = at_ (if rem = 1 then t else s.seq.upc + 1)) ∧
    exec (.jmp t) s = at_ t

/-- R183 with R184: RET completes the command with OK, or INCOMPLETE for a checked `burstWrite` without its STOP; `upc`, the BRI and
the operand latches are not touched. In faithful mode it completes also when `op` holds no value: that RET reads `op` in checked mode
only is the model's choice (log 13). -/
def Obligations.RetCompletes : Prop :=
  ∀ s : State,
    let done (code : BitVec 3) : Host.Outcome State Fault Refusal :=
      .next { s with seq := { s.seq with status := code, polls := 0, run := .ready } }
    (s.params.checked = false → exec .ret s = done 0) ∧
    (∀ op, s.params.checked = true → s.seq.op = some op →
      exec .ret s = done (if op = 0b10 ∧ s.params.emitStopOnWrite = false then 3 else 0))

/-! ## The bus engine (spec/46_bus_engine.md) -/

/-- R221: in every state at most one engine step is enabled. -/
def Obligations.EngineStepsExclusive : Prop :=
  ∀ (s : State) (e f : EngineStep), e.enabled s = true → f.enabled s = true → e = f

/-- R200: when E_START is enabled and what it does. -/
def Obligations.EngineGeneratesStart : Prop :=
  ∀ s : State,
    (engineNext s = some .start ↔
      s.params.periphLive = true ∧ s.bri.start = true ∧ s.bri.stop = false ∧
        ((s.bri.ph = .idle ∧ s.params.extBusy = false) ∨
          ((s.bri.ph = .tx ∨ s.bri.ph = .txNacked) ∧ s.bri.shift = none ∧ (s.bri.txe = true ∨ s.bri.ph = .txNacked)))) ∧
    (engineNext s = some .start →
      engineTurn s =
        { s with
          wire := s.wire ++ [if s.bri.ph = .idle then .start else .repStart]
          bri := { s.bri with start := false, sb := true, txe := false, btf := false, af := false, ph := .started } })

/-- R202: E_ADDR is enabled in ADDR_QUEUED; it puts the queued byte and the slave's answer on the wire; the direction of the data
phase is bit 0 of the byte sent. The answer is the oracle's next draw. -/
def Obligations.EngineSendsAddress : Prop :=
  ∀ s : State,
    (engineNext s = some .addr ↔ s.params.periphLive = true ∧ s.bri.ph = .addrQueued) ∧
    (engineNext s = some .addr →
      let k := s.slave.addrAck s.bri.dr
      engineTurn s =
        { s with
          slave := s.slave.afterAddrAck
          wire := s.wire ++ [.address s.bri.dr k]
          bri := if k = true then { s.bri with addr := true, ph := .addrAcked (s.bri.dr.getLsbD 0) }
            else { s.bri with af := true, ph := .addrNacked } })

/-- R204 and R205: loading the shift register, and shifting its byte out with the slave's answer. -/
def Obligations.EngineTransmits : Prop :=
  ∀ s : State,
    (engineNext s = some .txLoad ↔
      s.params.periphLive = true ∧ s.bri.ph = .tx ∧ s.bri.txe = false ∧ s.bri.shift = none) ∧
    (engineNext s = some .txLoad → engineTurn s = { s with bri := { s.bri with shift := some s.bri.dr, txe := true } }) ∧
    (engineNext s = some .txDone ↔ s.params.periphLive = true ∧ s.bri.ph = .tx ∧ s.bri.shift ≠ none) ∧
    (∀ b, engineNext s = some .txDone → s.bri.shift = some b →
      let k := s.slave.dataAck b
      engineTurn s =
        { s with
          slave := s.slave.afterDataAck
          wire := s.wire ++ [.transmit b k]
          bri := if k = true then { s.bri with shift := none, btf := if s.bri.txe then true else s.bri.btf }
            else { s.bri with shift := none, af := true, ph := .txNacked } })

/-- R206 and R207: receiving a byte when the shift register is free, where the byte goes, the answer the acknowledge enable gives
now, and the STOP that follows a NACK in the same step. -/
def Obligations.EngineReceives : Prop :=
  ∀ s : State,
    (engineNext s = some .rx ↔ s.params.periphLive = true ∧ s.bri.ph = .rx ∧ s.bri.shift = none) ∧
    (engineNext s = some .rx →
      let v := s.slave.rxByte
      let got : Bri :=
        if s.bri.rxne = false then { s.bri with dr := v, rxne := true } else { s.bri with shift := some v, btf := true }
      (s.bri.ack = true →
        engineTurn s = { s with slave := s.slave.afterRxByte, wire := s.wire ++ [.receive v true], bri := got }) ∧
      (s.bri.ack = false → s.bri.stop = false →
        engineTurn s =
          { s with
            slave := s.slave.afterRxByte, wire := s.wire ++ [.receive v false], bri := { got with ph := .rxDone } }) ∧
      (s.bri.ack = false → s.bri.stop = true →
        engineTurn s =
          { s with
            slave := s.slave.afterRxByte
            wire := s.wire ++ [.receive v false] ++ [.stop]
            bri :=
              { got with
                ph := .idle, stop := false, sb := false, txe := false, addr := false, addrSeen := false
                btf := got.shift.isSome } }))

/-- R210 to R214: when each STOP step is enabled, and what every STOP leaves: `P` on the wire (none in IDLE, where the request is
discarded), phase IDLE, and the received bytes readable. -/
def Obligations.EngineGeneratesStop : Prop :=
  ∀ s : State,
    let stopped (btf : Bool) : State :=
      { s with
        wire := s.wire ++ [.stop]
        bri :=
          { s.bri with
            ph := .idle, stop := false, sb := false, txe := false, addr := false, addrSeen := false, btf := btf } }
    (engineNext s = some .stopTx ↔
      s.params.periphLive = true ∧ s.bri.stop = true ∧ (s.bri.ph = .tx ∨ s.bri.ph = .txNacked) ∧ s.bri.shift = none ∧
        (s.bri.txe = true ∨ s.bri.ph = .txNacked)) ∧
    (engineNext s = some .stopTx → engineTurn s = stopped false) ∧
    (engineNext s = some .stopRxDone ↔ s.params.periphLive = true ∧ s.bri.stop = true ∧ s.bri.ph = .rxDone) ∧
    (engineNext s = some .stopRxDone → engineTurn s = stopped s.bri.shift.isSome) ∧
    (engineNext s = some .stopHeld ↔
      s.params.periphLive = true ∧ s.bri.stop = true ∧
        (s.bri.ph = .started ∨ s.bri.ph = .addrAcked false ∨ s.bri.ph = .addrAcked true ∨ s.bri.ph = .addrNacked)) ∧
    (engineNext s = some .stopHeld → engineTurn s = stopped s.bri.shift.isSome) ∧
    (engineNext s = some .stopIdle ↔ s.params.periphLive = true ∧ s.bri.stop = true ∧ s.bri.ph = .idle) ∧
    (engineNext s = some .stopIdle → engineTurn s = { s with bri := { s.bri with stop := false } })

/-- R203, R208, R209 and R215: the engine has no step before the address flag is cleared, after a NACK, or once the slave has
stopped sending, unless a STOP (in TX_NACKED a repeated START) is requested; and none at all when the peripheral is not live. -/
def Obligations.EngineHeldPhases : Prop :=
  ∀ s : State,
    (s.params.periphLive = false → engineNext s = none ∧ engineTurn s = s) ∧
    (s.bri.stop = false → (∃ d, s.bri.ph = .addrAcked d) ∨ s.bri.ph = .addrNacked ∨ s.bri.ph = .rxDone →
      engineNext s = none) ∧
    (s.bri.stop = false → s.bri.start = false → s.bri.ph = .txNacked → engineNext s = none) ∧
    (s.bri.ph = .rx → s.bri.rxne = true → s.bri.shift ≠ none → engineNext s = none)

/-- R216: with the bus owned from outside, `busy` is 1 in every state, no START leaves IDLE, WAIT_IDLE never completes, and no
step leaves phase IDLE. -/
def Obligations.ExternallyBusyBus : Prop :=
  ∀ s : State, s.params.extBusy = true →
    s.busy = true ∧ (s.bri.ph = .idle → engineNext s ≠ some .start) ∧
    (∃ t, exec .waitIdle s = .next t ∧ t.seq.upc = s.seq.upc) ∧
    (s.bri.ph = .idle → ∀ t, step s = .next t → t.bri.ph = .idle)

/-! ## The whole machine -/

/-- R270: the reset state of every piece of state, for every value of the parameters and of the two values left to the launch. -/
def Obligations.ResetTable : Prop :=
  ∀ (p : Params) (ack : Bool) (dr : Byte),
    let s := State.launch p ack dr
    s.seq = { run := .ready, op := none, sa := none, ra := none, rem := none, cur := none, buf := none, res := none
              status := 0, upc := 0x00, polls := 0 } ∧
    s.bri = { ph := .idle, sb := false, addr := false, txe := false, btf := false, rxne := false, start := false
              stop := false, af := false, addrSeen := false, shift := none, ack := ack, dr := dr } ∧
    s.busy = p.extBusy ∧ s.store = storeImage ∧ s.wire = [] ∧ s.fault = none ∧ s.params = p

/-- The sequencer's, the BRI's, the status registers' and the memory's invariant hold at every launch (R270, R6). -/
def Obligations.LaunchMeetsInvariants : Prop :=
  ∀ (p : Params) (ack : Bool) (dr : Byte),
    SeqInv (State.launch p ack dr) ∧ BriInv (State.launch p ack dr).bri ∧ StatusInv (State.launch p ack dr) ∧
      (State.launch p ack dr).mem.wf

/-- The fixed control store stays inside its programs, with every operand latch written and a byte left wherever one is moved,
under every schedule: so UNWRITTEN_REG, ILLEGAL_MICROOP and BUF_OVERRUN are never raised (R243's last column; R29, R87, R23). -/
def Obligations.FixedStoreNeverRunsAstray : Prop :=
  ∀ s t : State, SeqInv s → step s = .next t → SeqInv t

/-- Every step of every agent keeps the flags, the shift register and the pending requests in step with the bus phase (R31 to
R39). -/
def Obligations.FlagsFollowBusPhase : Prop :=
  ∀ s t : State, BriInv s.bri → step s = .next t → BriInv t.bri

/-- Every step keeps the status codes where R250 says they occur, and the poll count within its budget (R20, R28). -/
def Obligations.StatusCodesKept : Prop :=
  ∀ s t : State, StatusInv s → step s = .next t → StatusInv t

/-- Every step keeps the canonical form of caller memory. -/
def Obligations.CallerMemoryStaysCanonical : Prop :=
  ∀ s t : State, s.mem.wf → step s = .next t → t.mem.wf

/-- R24, R61, R62: the only step of the block that changes a byte of caller memory is an RD_DATA, and the byte is the one at
`buf + cur`; else the caller itself wrote it. -/
def Obligations.OnlyRdDataWritesMemory : Prop :=
  ∀ (s t : State) (a : Nat), s.mem.wf → step s = .next t → t.mem.read a ≠ s.mem.read a →
    (pickAgent s = .sequencer ∧ s.seq.run = .busy ∧ fetch s = .ok .rdData ∧
      ∃ buf cur, s.seq.buf = some buf ∧ s.seq.cur = some cur ∧ a = bufAddr buf cur) ∨
    (pickAgent s = .caller ∧ s.seq.run = .ready ∧ ∃ d b rest, s.caller = .fill d b :: rest ∧ a = d.toNat)

/-- R23: no step of the sequencer or the engine changes the sum of cursor and remaining count. -/
def Obligations.CursorPlusRemaining : Prop :=
  ∀ (s t : State) (rem cur : Count), step s = .next t → pickAgent s ≠ .caller → s.seq.rem = some rem →
    s.seq.cur = some cur → ∃ rem' cur', t.seq.rem = some rem' ∧ t.seq.cur = some cur' ∧ cur' + rem' = cur + rem

/-- R22: the slave and register addresses, like the command code and the buffer reference, are written at command accept only: not
while a command executes, not by another agent, and by the caller only when it hands a command over. -/
def Obligations.OperandsFixedAtAccept : Prop :=
  ∀ s t : State, step s = .next t →
    (pickAgent s ≠ .caller ∨ s.seq.run = .busy ∨
      ∀ r rest, s.caller ≠ .issue r :: rest ∧ s.caller ≠ .overlap r :: rest) →
    t.seq.op = s.seq.op ∧ t.seq.sa = s.seq.sa ∧ t.seq.ra = s.seq.ra ∧ t.seq.buf = s.seq.buf

/-- R42, R41 and R63: the wire trace is only appended to, and only by the engine; no step changes the launch parameters or the
control store. -/
def Obligations.WireTraceOnlyGrows : Prop :=
  ∀ s t : State, step s = .next t →
    (∃ evs, t.wire = s.wire ++ evs ∧ (pickAgent s ≠ .engine → evs = [])) ∧ t.params = s.params ∧ t.store = s.store

/-- R31: what `busy` is, and that it rises at `S` and falls at `P`: a step leaves phase IDLE only with `S` on the wire and returns
to it only with `P`. -/
def Obligations.BusyRisesAtStartFallsAtStop : Prop :=
  ∀ s : State,
    (s.busy = true ↔ s.bri.ph ≠ .idle ∨ s.params.extBusy = true) ∧
    ∀ t, step s = .next t →
      (s.bri.ph = .idle → t.bri.ph ≠ .idle → t.wire = s.wire ++ [.start]) ∧
      (s.bri.ph ≠ .idle → t.bri.ph = .idle → ∃ evs, t.wire = s.wire ++ evs ++ [.stop])

/-- R36 and R252: the acknowledge enable is written only by ACK_ON and ACK_OFF, and cleared by an abort in phase RX. -/
def Obligations.AckEnableWriters : Prop :=
  ∀ s t : State, step s = .next t → t.bri.ack ≠ s.bri.ack →
    pickAgent s = .sequencer ∧ s.seq.run = .busy ∧
      ((fetch s = .ok .ackOn ∧ t.bri.ack = true) ∨ (fetch s = .ok .ackOff ∧ t.bri.ack = false) ∨
        (s.params.checked = true ∧ t.bri.ph = .rx ∧ t.bri.ack = false ∧ t.seq.run = .ready ∧
          (t.seq.status = 1 ∨ t.seq.status = 2)))

/-- R280: from byteRead's ADDR clear on, the acknowledge enable is 0 under every schedule: every step of a machine that runs the
fixed control store keeps it so; and a step from there that receives a byte answers it with NACK. -/
def Obligations.SingleByteIsNacked : Prop :=
  ∀ s t : State, SeqInv s → step s = .next t →
    (s.seq.run = .busy → 0x0D ≤ s.seq.upc.toNat → s.seq.upc.toNat ≤ 0x11 → s.bri.ack = false) →
    (t.seq.run = .busy → 0x0D ≤ t.seq.upc.toNat → t.seq.upc.toNat ≤ 0x11 → t.bri.ack = false) ∧
    (s.seq.run = .busy → 0x0D ≤ s.seq.upc.toNat → s.seq.upc.toNat ≤ 0x11 →
      ∀ (evs : List WireEvent) (v : Byte) (k : Bool), t.wire = s.wire ++ evs → .receive v k ∈ evs → k = false)

/-- R233 and R240 under SEQ_PRIORITY: in a stuck state with no address acknowledge left to clear, the poll is the only step and
changes nothing: the command hangs for ever. -/
def Obligations.StuckStateHangs : Prop :=
  ∀ s : State, Stuck s → BriInv s.bri → s.params.sched = .seqPriority → s.bri.addr = false →
    step s = .next s ∧ ∀ k, Sys2Proof.core.run k s = .next s

/-- R44 to R47: the bits of the register images. The spec marks this layout as informative, from general knowledge (log 17); CR1's
other bits are an argument. -/
def Obligations.RegisterImages : Prop :=
  ∀ (s : State) (rest : BitVec 32) (i : Nat),
    (s.bri.cr1Image rest).getLsbD i =
      (if i = 8 then s.bri.start else if i = 9 then s.bri.stop else if i = 10 then s.bri.ack else rest.getLsbD i) ∧
    s.sr1Image.getLsbD i =
      (if i = 0 then s.bri.sb else if i = 1 then s.bri.addr else if i = 2 then s.bri.btf else if i = 6 then s.bri.rxne
        else if i = 7 then s.bri.txe else if i = 10 then s.bri.af else false) ∧
    s.sr2Image.getLsbD i =
      (if i = 0 then decide (s.bri.ph ≠ .idle) else if i = 1 then s.busy
        else if i = 2 then decide (s.bri.ph = .addrAcked false ∨ s.bri.ph = .tx ∨ s.bri.ph = .txNacked) else false) ∧
    s.bri.drImage.getLsbD i = (decide (i < 8) && s.bri.dr.getLsbD i)

/-! ## Whole commands under SEQ_PRIORITY -/

/-- R101: `byteRead(sa, ra)` with `sa[0] = 0` in an all-ACK run, for every slave byte, in faithful and in checked mode: after the
accept and its 18 sequencer and 7 engine steps, the wire trace, the result and the end state. -/
def Obligations.ByteReadTransaction : Prop :=
  ∀ (s : State) (sa ra v : Byte) (r : Request) (rest : List CallerAct) (acks dacks : List Bool) (bytes : List Byte),
    FreshBus s → s.caller = .issue r :: rest → decodeCommand r.word = .ok (.byteRead sa ra) → sa.getLsbD 0 = false →
    s.slave.addrAcks = true :: true :: acks → s.slave.dataAcks = true :: dacks → s.slave.rxBytes = v :: bytes →
    ∃ t, Sys2Proof.core.run (1 + 18 + 7) s = .next t ∧
      t.wire = s.wire ++ [.start, .address sa true, .transmit ra true, .repStart, .address (sa ||| 0x01) true,
        .receive v false, .stop] ∧
      t.seq.res = some v ∧ t.seq.status = 0 ∧ t.seq.run = .ready ∧ t.seq.upc = 0x11 ∧
      t.bri.ph = .idle ∧ t.bri.ack = false ∧ t.bri.rxne = false ∧ t.bri.start = false ∧ t.bri.stop = false ∧
      t.mem = s.mem ∧ t.fault = none ∧ t.caller = rest

/-- R103, its loop: one pass of burstWrite's words 0x48 to 0x4C with the slave acknowledging, under SEQ_PRIORITY: the next buffer
byte goes onto the wire, and the loop is back at its head with one byte less. The byte's address is the sum modulo 2^32 (the model's
choice, log 5). -/
def Obligations.BurstWriteLoopPass : Prop :=
  ∀ (s : State) (rem cur : Count) (buf : Addr) (dacks : List Bool),
    s.fault = none → s.params.sched = .seqPriority → s.params.periphLive = true → s.store = storeImage →
    s.seq.run = .busy → s.seq.upc = 0x48 → s.seq.rem = some rem → rem ≠ 0 → s.seq.cur = some cur → s.seq.buf = some buf →
    s.bri.ph = .tx → s.bri.txe = true → s.bri.shift = none → s.bri.rxne = false → s.bri.addr = false →
    s.bri.start = false → s.bri.stop = false → s.slave.dataAcks = true :: dacks →
    Sys2Proof.core.run 7 s = .next
      { s with
        wire := s.wire ++ [.transmit (s.mem.read (bufAddr buf cur)) true]
        slave := { s.slave with dataAcks := dacks }
        bri := { s.bri with dr := s.mem.read (bufAddr buf cur), btf := true }
        seq := { s.seq with rem := some (rem - 1), cur := some (cur + 1), polls := 0 } }

/-- R103: `burstWrite(sa, ra, n, buf)` with `sa[0] = 0` in an all-ACK run, for every count and every buffer: after the accept and
its 5n + 11 sequencer and 4 + 2n engine steps (R291) the n bytes of the buffer are on the wire in order. Without
`P_EMIT_STOP_ON_WRITE` the bus stays held; with it a STOP is pending, and the next step is the engine's, which puts `P` on the wire.
A byte's address is the sum modulo 2^32 (the model's choice, log 5). -/
def Obligations.BurstWriteTransaction : Prop :=
  ∀ (s : State) (sa ra : Byte) (r : Request) (rest : List CallerAct) (acks dacks : List Bool),
    FreshBus s → s.caller = .issue r :: rest → decodeCommand r.word = .ok (.burstWrite sa ra) → sa.getLsbD 0 = false →
    r.port.n ≤ r.port.len → r.port.n < 2 ^ 32 → s.slave.addrAcks = true :: acks →
    s.slave.dataAcks = true :: (List.replicate r.port.n true ++ dacks) →
    ∃ t, Sys2Proof.core.run (1 + (5 * r.port.n + 11) + (4 + 2 * r.port.n)) s = .next t ∧
      t.wire = s.wire ++ [.start, .address sa true, .transmit ra true] ++
        (List.range r.port.n).map (fun i => .transmit (s.mem.read (bufAddr r.port.buf (BitVec.ofNat 32 i))) true) ∧
      t.seq.status = (if s.params.checked = true ∧ s.params.emitStopOnWrite = false then 3 else 0) ∧
      t.seq.run = .ready ∧ t.seq.upc = 0x4E ∧ t.seq.rem = some 0 ∧ t.bri.ph = .tx ∧ t.busy = true ∧ t.bri.btf = true ∧
      t.bri.txe = true ∧ t.bri.stop = s.params.emitStopOnWrite ∧ t.mem = s.mem ∧ t.fault = none ∧ t.caller = rest ∧
      (s.params.emitStopOnWrite = true →
        ∃ u, step t = .next u ∧ u.wire = t.wire ++ [.stop] ∧ u.bri.ph = .idle ∧ u.busy = false ∧ u.bri.stop = false ∧
          u.seq = t.seq ∧ u.mem = t.mem)

/-- R102: `burstRead(sa, ra, n, buf)` with `sa[0] = 0` and `n ≥ 1` in an all-ACK run, for every count and every slave byte: after
the accept and its 5n + 15 sequencer and 6 + n engine steps (R291) the n bytes were received in order, every one but the last
acknowledged, the buffer holds them in order and no other byte of memory changed, and the bus is idle. A byte's address is the sum
modulo 2^32 (the model's choice, log 5). -/
def Obligations.BurstReadTransaction : Prop :=
  ∀ (s : State) (sa ra : Byte) (r : Request) (rest : List CallerAct) (acks dacks : List Bool) (first : List Byte)
    (last : Byte) (bytes : List Byte),
    FreshBus s → s.mem.wf → s.caller = .issue r :: rest → decodeCommand r.word = .ok (.burstRead sa ra) →
    sa.getLsbD 0 = false →
    r.port.n = first.length + 1 → r.port.n ≤ r.port.len → r.port.n < 2 ^ 32 →
    s.slave.addrAcks = true :: true :: acks → s.slave.dataAcks = true :: dacks →
    s.slave.rxBytes = first ++ last :: bytes →
    ∃ t, Sys2Proof.core.run (1 + (5 * r.port.n + 15) + (6 + r.port.n)) s = .next t ∧
      t.wire = s.wire ++ [.start, .address sa true, .transmit ra true, .repStart, .address (sa + 1) true] ++
        first.map (fun b => .receive b true) ++ [.receive last false, .stop] ∧
      t.seq.rem = some 0 ∧ t.seq.cur = some (BitVec.ofNat 32 r.port.n) ∧ t.seq.status = 0 ∧ t.seq.run = .ready ∧
      t.bri.ph = .idle ∧ t.bri.ack = false ∧ t.fault = none ∧ t.caller = rest ∧
      (∀ i b, (first ++ [last])[i]? = some b → t.mem.read (bufAddr r.port.buf (BitVec.ofNat 32 i)) = b) ∧
      (∀ a, (∀ i, i < r.port.n → a ≠ bufAddr r.port.buf (BitVec.ofNat 32 i)) → t.mem.read a = s.mem.read a)

/-- R114: `burstRead(sa, ra, 0, buf)` with `sa[0] = 0` in an all-ACK run: after the accept and its 15 sequencer and 6 engine steps it
has completed with the bus in RX, the acknowledge enable 1 and no STOP pending; the engine then receives and acknowledges two bytes
(R291), which stay unread, and the bus is held. The buffer is not touched. -/
def Obligations.BurstReadOfNothing : Prop :=
  ∀ (s : State) (sa ra v w : Byte) (r : Request) (rest : List CallerAct) (acks dacks : List Bool) (bytes : List Byte),
    FreshBus s → s.caller = .issue r :: rest → decodeCommand r.word = .ok (.burstRead sa ra) → sa.getLsbD 0 = false →
    r.port.n = 0 → s.slave.addrAcks = true :: true :: acks → s.slave.dataAcks = true :: dacks →
    s.slave.rxBytes = v :: w :: bytes →
    ∃ t u, Sys2Proof.core.run (1 + 15 + 6) s = .next t ∧ Sys2Proof.core.run 2 t = .next u ∧
      t.wire = s.wire ++ [.start, .address sa true, .transmit ra true, .repStart, .address (sa + 1) true] ∧
      t.seq.run = .ready ∧ t.seq.status = 0 ∧ t.bri.ph = .rx ∧ t.bri.ack = true ∧ t.bri.stop = false ∧
      u.wire = t.wire ++ [.receive v true, .receive w true] ∧ u.bri.ph = .rx ∧ u.bri.rxne = true ∧ u.bri.dr = v ∧
      u.bri.shift = some w ∧ u.seq = t.seq ∧ u.mem = s.mem ∧ u.fault = none ∧ engineNext u = none ∧
      exec .genStart u = .next { u with fault := some { kind := .briUnspec, upc := some u.seq.upc } }

/-! ## Runs: fairness and hangs -/

/-- R232, R233: from a BUSY machine that runs the fixed control store, under every interleaving in which an engine step that stays
enabled is taken, and under SEQ_PRIORITY, the run comes to a point where the command has completed, a fault is recorded, or the state
is stuck. Without fairness a faithful block under FREE can poll a wait for ever while the engine never moves. What an interleaving and
a fair one are is the model's reading (log 21). -/
def Obligations.FairCommandEnds : Prop :=
  ∀ s : State, s.seq.run = .busy →
    (∀ who, SeqInv s → Interleaves who s → WeaklyFair who s →
      ∃ k, (runBy who s k).seq.run = .ready ∨ (runBy who s k).fault ≠ none ∨ Stuck (runBy who s k)) ∧
    (s.params.sched = .free → s.params.checked = false → s.fault = none → atBlockedWait s = true →
      Interleaves (fun _ => .sequencer) s ∧
        ∀ k, (runBy (fun _ => .sequencer) s k).seq.run = .busy ∧ (runBy (fun _ => .sequencer) s k).fault = none)

/-- R240: with SEQ_PRIORITY in faithful mode a command of the fixed control store hangs exactly when its run reaches a stuck
state. That a hang is a fair interleaving that keeps the block BUSY for ever with no fault recorded, so that a command a fault ends
does not hang, is the model's reading (log 21). -/
def Obligations.HangsExactlyWhenStuck : Prop :=
  ∀ s : State, SeqInv s → s.params.sched = .seqPriority → s.params.checked = false → (Hangs s ↔ ReachesStuck s)
end

