-- ==== Sys2Proof/Laws/Encoding.lean ====
section
/-! SUPPORT. The fields of an encoded word, and a word from its fields (spec/30_encoding.md R81, R84). -/

namespace Sys2Proof

/-- The fields of a command word built from `op`, `sa` and `ra` (R81). -/
theorem commandWord_fields (op : BitVec 2) (sa ra : Byte) :
    cmdOp (commandWord op sa ra) = op ∧ cmdZ0 (commandWord op sa ra) = 0 ∧ cmdSa (commandWord op sa ra) = sa ∧
      cmdRa (commandWord op sa ra) = ra ∧ cmdZ1 (commandWord op sa ra) = 0 := by
  refine ⟨?_, ?_, ?_, ?_, ?_⟩ <;>
    (apply BitVec.eq_of_getLsbD_eq
     intro i hi
     simp only [commandWord, BitVec.getLsbD_extractLsb', BitVec.getLsbD_append]
     simp
     try omega) <;>
    grind

/-- The fields of a micro-op word built from `opc` and `imm8` (R84). -/
theorem microWord_fields (opc : BitVec 5) (imm : Byte) :
    mopOpc (microWord opc imm) = opc ∧ mopZ (microWord opc imm) = 0 ∧ mopImm (microWord opc imm) = imm := by
  refine ⟨?_, ?_, ?_⟩ <;>
    (apply BitVec.eq_of_getLsbD_eq
     intro i hi
     simp only [microWord, BitVec.getLsbD_extractLsb', BitVec.getLsbD_append]
     simp
     try omega) <;>
    grind

/-- A micro-op word with `z = 0` is the word of its fields. -/
theorem microWord_of_fields (w : MicroWord) (h : mopZ w = 0) : microWord (mopOpc w) (mopImm w) = w := by
  have hz : ∀ j, j < 3 → w.getLsbD (8 + j) = false := fun j hj => by
    have := congrArg (·.getLsbD j) h
    simpa [hj] using this
  apply BitVec.eq_of_getLsbD_eq
  intro i hi
  simp only [microWord, BitVec.getLsbD_extractLsb', BitVec.getLsbD_append]
  by_cases h1 : i < 8
  · simp [h1]
  · by_cases h2 : i - 8 < 3
    · have := hz (i - 8) h2
      rw [show 8 + (i - 8) = i by omega] at this
      simp [h1, h2, this]
    · simp [h1, h2, show i - 8 - 3 < 5 by omega, show 11 + (i - 8 - 3) = i by omega]

/-- A command word with `z0 = 0` and `z1 = 0` is the word of its fields. -/
theorem commandWord_of_fields (c : CommandWord) (h0 : cmdZ0 c = 0) (h1 : cmdZ1 c = 0) :
    commandWord (cmdOp c) (cmdSa c) (cmdRa c) = c := by
  have hz0 : ∀ j, j < 6 → c.getLsbD (2 + j) = false := fun j hj => by
    have := congrArg (·.getLsbD j) h0
    simpa [hj] using this
  have hz1 : ∀ j, j < 8 → c.getLsbD (24 + j) = false := fun j hj => by
    have := congrArg (·.getLsbD j) h1
    simpa [hj] using this
  apply BitVec.eq_of_getLsbD_eq
  intro i hi
  simp only [commandWord, BitVec.getLsbD_extractLsb', BitVec.getLsbD_append]
  by_cases b1 : i < 2
  · simp [b1]
  · by_cases b2 : i - 2 < 6
    · have := hz0 (i - 2) b2
      rw [show 2 + (i - 2) = i by omega] at this
      simp [b1, b2, this]
    · by_cases b3 : i - 2 - 6 < 8
      · simp [b1, b2, b3, show 8 + (i - 2 - 6) = i by omega]
      · by_cases b4 : i - 2 - 6 - 8 < 8
        · simp [b1, b2, b3, b4, show 16 + (i - 2 - 6 - 8) = i by omega]
        · have := hz1 (i - 24) (by omega)
          rw [show 24 + (i - 24) = i by omega] at this
          simp [b1, b2, b3, b4, this]

/-- A micro-op without an operand decodes only with `imm8 = 0` (R87). -/
theorem plainOp_ok {imm : Byte} {i j : Instr} (h : plainOp imm i = .ok j) : imm = 0 ∧ j = i := by
  unfold plainOp at h
  split_ifs at h with h0
  injection h with h
  exact ⟨h0, h.symm⟩

/-- A micro-op word decodes to no command (R84, R86). -/
theorem decodeMicroOp_store {w : MicroWord} {i : Instr} (h : decodeMicroOp w = .ok i) : i.space = .store := by
  unfold decodeMicroOp decodeOpc at h
  split at h
  · cases h
  · split at h <;> (try simp only [plainOp] at h) <;> (try split at h) <;> cases h <;> rfl

end Sys2Proof
end

