-- ==== Sys2Proof/Laws/Memory.lean ====
section
/-! SUPPORT. The laws of caller memory: a read after a write, and that a write keeps the canonical form. -/

namespace Sys2Proof.Machine

/-- Nothing is listed at an address below every listed one. -/
theorem memory_read_of_below (m : Memory) (a : Nat) (h : ∀ c ∈ m, a < c.1) : m.read a = Memory.blank := by
  induction m with
  | nil => rfl
  | cons c m ih =>
    obtain ⟨k, v⟩ := c
    have hk : a < k := h (k, v) (by simp)
    rw [Memory.read, if_neg (by omega)]
    exact ih fun d hd => h d (by simp [hd])

/-- A write leaves every other address alone. -/
theorem memory_read_write_other (m : Memory) (a d : Nat) (b : Byte) (hne : d ≠ a) :
    (m.write a b).read d = m.read d := by
  induction m with
  | nil =>
    by_cases hb : b = Memory.blank <;> simp [Memory.write, Memory.read, hb, Ne.symm hne]
  | cons c m ih =>
    obtain ⟨k, v⟩ := c
    rw [Memory.write]
    split_ifs with h1 h2 h3 h4
    · simp [Memory.read, ih]
    · subst h2; simp [Memory.read, Ne.symm hne]
    · subst h2; simp [Memory.read, Ne.symm hne]
    · rfl
    · simp [Memory.read, Ne.symm hne]

/-- A read after a write to the same address gives the value written. -/
theorem memory_read_write_same (m : Memory) (a : Nat) (b : Byte) (h : m.wf) : (m.write a b).read a = b := by
  obtain ⟨hs, -⟩ := h
  induction m with
  | nil => by_cases hb : b = Memory.blank <;> simp [Memory.write, Memory.read, hb]
  | cons c m ih =>
    obtain ⟨k, v⟩ := c
    rw [List.pairwise_cons] at hs
    have below : a ≤ k → Memory.read m a = Memory.blank := fun hle =>
      memory_read_of_below m a fun d hd => Nat.lt_of_le_of_lt hle (hs.1 d hd)
    rw [Memory.write]
    split_ifs with h1 h2 h3 h4
    · rw [Memory.read, if_neg (by omega)]
      exact ih hs.2
    · rw [below (by omega), h3]
    · simp [Memory.read]
    · rw [Memory.read, if_neg h2, below (by omega), h4]
    · simp [Memory.read]

/-- Every entry after a write was there before or is the one written. -/
theorem memory_mem_write (m : Memory) (a : Nat) (b : Byte) (c : Host.Cell) (h : c ∈ m.write a b) :
    c ∈ m ∨ (c = (a, b) ∧ b ≠ Memory.blank) := by
  induction m with
  | nil =>
    by_cases hb : b = Memory.blank <;> simp_all [Memory.write]
  | cons d m ih =>
    obtain ⟨k, v⟩ := d
    rw [Memory.write] at h
    split_ifs at h <;> grind

/-- A write keeps the canonical form. -/
theorem memory_write_wf (m : Memory) (a : Nat) (b : Byte) (ha : a < 2 ^ 32) (h : m.wf) : (m.write a b).wf := by
  refine ⟨?_, fun c hc => ?_⟩
  · have hs := h.1
    clear h
    induction m with
    | nil => by_cases hb : b = Memory.blank <;> simp [Memory.write, hb]
    | cons c m ih =>
      obtain ⟨k, v⟩ := c
      rw [List.pairwise_cons] at hs
      rw [Memory.write]
      split_ifs with h1 h2 h3 h4
      · refine List.pairwise_cons.2 ⟨fun d hd => ?_, ih hs.2⟩
        rcases memory_mem_write m a b d hd with hd | ⟨rfl, -⟩
        · exact hs.1 d hd
        · exact h1
      · exact hs.2
      · subst h2; exact List.pairwise_cons.2 ⟨hs.1, hs.2⟩
      · exact List.pairwise_cons.2 ⟨hs.1, hs.2⟩
      · have hlt : a < k := by omega
        refine List.pairwise_cons.2 ⟨fun d hd => ?_, List.pairwise_cons.2 ⟨hs.1, hs.2⟩⟩
        rcases List.mem_cons.1 hd with rfl | hd
        · exact hlt
        · exact Nat.lt_trans hlt (hs.1 d hd)
  · rcases memory_mem_write m a b c hc with hc | ⟨rfl, hb⟩
    · exact h.2 c hc
    · exact ⟨ha, hb⟩

/-- The reset memory, and every empty one, has the canonical form. -/
theorem memory_nil_wf : Memory.wf [] := by simp [Memory.wf]

/-- The address of a buffer byte lies in the 32-bit space. -/
theorem bufAddr_lt (buf : Addr) (cur : Count) : bufAddr buf cur < 2 ^ 32 := (buf + cur).isLt

end Sys2Proof.Machine
end

