-- ==== Sys2Proof/Laws/State.lean ====
section
/-! SUPPORT. One lemma per field per update of the state, true by `rfl` and tagged for `simp`, so that no later proof unfolds a
record update; and what the conditional updates leave alone. -/

namespace Sys2Proof.Machine

variable (s : State)

/-! `State.setBri` -/

@[simp] theorem setBri_seq (b : Bri) : (s.setBri b).seq = s.seq := rfl
@[simp] theorem setBri_bri (b : Bri) : (s.setBri b).bri = b := rfl
@[simp] theorem setBri_mem (b : Bri) : (s.setBri b).mem = s.mem := rfl
@[simp] theorem setBri_store (b : Bri) : (s.setBri b).store = s.store := rfl
@[simp] theorem setBri_wire (b : Bri) : (s.setBri b).wire = s.wire := rfl
@[simp] theorem setBri_fault (b : Bri) : (s.setBri b).fault = s.fault := rfl
@[simp] theorem setBri_params (b : Bri) : (s.setBri b).params = s.params := rfl
@[simp] theorem setBri_slave (b : Bri) : (s.setBri b).slave = s.slave := rfl
@[simp] theorem setBri_turns (b : Bri) : (s.setBri b).turns = s.turns := rfl
@[simp] theorem setBri_caller (b : Bri) : (s.setBri b).caller = s.caller := rfl
@[simp] theorem setBri_port (b : Bri) : (s.setBri b).port = s.port := rfl

/-! `State.readSr1` -/

@[simp] theorem readSr1_seq : s.readSr1.seq = s.seq := rfl
@[simp] theorem readSr1_bri : s.readSr1.bri = s.bri.afterSr1 := rfl
@[simp] theorem readSr1_mem : s.readSr1.mem = s.mem := rfl
@[simp] theorem readSr1_store : s.readSr1.store = s.store := rfl
@[simp] theorem readSr1_wire : s.readSr1.wire = s.wire := rfl
@[simp] theorem readSr1_fault : s.readSr1.fault = s.fault := rfl
@[simp] theorem readSr1_params : s.readSr1.params = s.params := rfl
@[simp] theorem readSr1_slave : s.readSr1.slave = s.slave := rfl
@[simp] theorem readSr1_turns : s.readSr1.turns = s.turns := rfl
@[simp] theorem readSr1_caller : s.readSr1.caller = s.caller := rfl
@[simp] theorem readSr1_port : s.readSr1.port = s.port := rfl

/-! `State.readSr2` -/

@[simp] theorem readSr2_seq : s.readSr2.seq = s.seq := rfl
@[simp] theorem readSr2_bri : s.readSr2.bri = s.bri.afterSr2 := rfl
@[simp] theorem readSr2_mem : s.readSr2.mem = s.mem := rfl
@[simp] theorem readSr2_store : s.readSr2.store = s.store := rfl
@[simp] theorem readSr2_wire : s.readSr2.wire = s.wire := rfl
@[simp] theorem readSr2_fault : s.readSr2.fault = s.fault := rfl
@[simp] theorem readSr2_params : s.readSr2.params = s.params := rfl
@[simp] theorem readSr2_slave : s.readSr2.slave = s.slave := rfl
@[simp] theorem readSr2_turns : s.readSr2.turns = s.turns := rfl
@[simp] theorem readSr2_caller : s.readSr2.caller = s.caller := rfl
@[simp] theorem readSr2_port : s.readSr2.port = s.port := rfl

/-! `State.emit` -/

@[simp] theorem emit_seq (ev : WireEvent) : (s.emit ev).seq = s.seq := rfl
@[simp] theorem emit_bri (ev : WireEvent) : (s.emit ev).bri = s.bri := rfl
@[simp] theorem emit_mem (ev : WireEvent) : (s.emit ev).mem = s.mem := rfl
@[simp] theorem emit_store (ev : WireEvent) : (s.emit ev).store = s.store := rfl
@[simp] theorem emit_wire (ev : WireEvent) : (s.emit ev).wire = s.wire ++ [ev] := rfl
@[simp] theorem emit_fault (ev : WireEvent) : (s.emit ev).fault = s.fault := rfl
@[simp] theorem emit_params (ev : WireEvent) : (s.emit ev).params = s.params := rfl
@[simp] theorem emit_slave (ev : WireEvent) : (s.emit ev).slave = s.slave := rfl
@[simp] theorem emit_turns (ev : WireEvent) : (s.emit ev).turns = s.turns := rfl
@[simp] theorem emit_caller (ev : WireEvent) : (s.emit ev).caller = s.caller := rfl
@[simp] theorem emit_port (ev : WireEvent) : (s.emit ev).port = s.port := rfl

/-! `State.goto` -/

@[simp] theorem goto_seq (t : MicroAddr) : (s.goto t).seq = { s.seq with polls := 0, upc := t } := rfl
@[simp] theorem goto_bri (t : MicroAddr) : (s.goto t).bri = s.bri := rfl
@[simp] theorem goto_mem (t : MicroAddr) : (s.goto t).mem = s.mem := rfl
@[simp] theorem goto_store (t : MicroAddr) : (s.goto t).store = s.store := rfl
@[simp] theorem goto_wire (t : MicroAddr) : (s.goto t).wire = s.wire := rfl
@[simp] theorem goto_fault (t : MicroAddr) : (s.goto t).fault = s.fault := rfl
@[simp] theorem goto_params (t : MicroAddr) : (s.goto t).params = s.params := rfl
@[simp] theorem goto_slave (t : MicroAddr) : (s.goto t).slave = s.slave := rfl
@[simp] theorem goto_turns (t : MicroAddr) : (s.goto t).turns = s.turns := rfl
@[simp] theorem goto_caller (t : MicroAddr) : (s.goto t).caller = s.caller := rfl
@[simp] theorem goto_port (t : MicroAddr) : (s.goto t).port = s.port := rfl

/-! `State.advance` -/

@[simp] theorem advance_seq : s.advance.seq = { s.seq with polls := 0, upc := s.seq.upc + 1 } := rfl
@[simp] theorem advance_bri : s.advance.bri = s.bri := rfl
@[simp] theorem advance_mem : s.advance.mem = s.mem := rfl
@[simp] theorem advance_store : s.advance.store = s.store := rfl
@[simp] theorem advance_wire : s.advance.wire = s.wire := rfl
@[simp] theorem advance_fault : s.advance.fault = s.fault := rfl
@[simp] theorem advance_params : s.advance.params = s.params := rfl
@[simp] theorem advance_slave : s.advance.slave = s.slave := rfl
@[simp] theorem advance_turns : s.advance.turns = s.turns := rfl
@[simp] theorem advance_caller : s.advance.caller = s.caller := rfl
@[simp] theorem advance_port : s.advance.port = s.port := rfl

/-! `State.setRes` -/

@[simp] theorem setRes_seq (v : Byte) : (s.setRes v).seq = { s.seq with res := some v } := rfl
@[simp] theorem setRes_bri (v : Byte) : (s.setRes v).bri = s.bri := rfl
@[simp] theorem setRes_mem (v : Byte) : (s.setRes v).mem = s.mem := rfl
@[simp] theorem setRes_store (v : Byte) : (s.setRes v).store = s.store := rfl
@[simp] theorem setRes_wire (v : Byte) : (s.setRes v).wire = s.wire := rfl
@[simp] theorem setRes_fault (v : Byte) : (s.setRes v).fault = s.fault := rfl
@[simp] theorem setRes_params (v : Byte) : (s.setRes v).params = s.params := rfl
@[simp] theorem setRes_slave (v : Byte) : (s.setRes v).slave = s.slave := rfl
@[simp] theorem setRes_turns (v : Byte) : (s.setRes v).turns = s.turns := rfl
@[simp] theorem setRes_caller (v : Byte) : (s.setRes v).caller = s.caller := rfl
@[simp] theorem setRes_port (v : Byte) : (s.setRes v).port = s.port := rfl

/-! `State.moveCursor` -/

@[simp] theorem moveCursor_seq (cur rem : Count) : (s.moveCursor cur rem).seq = { s.seq with cur := some (cur + 1), rem := some (rem - 1) } := rfl
@[simp] theorem moveCursor_bri (cur rem : Count) : (s.moveCursor cur rem).bri = s.bri := rfl
@[simp] theorem moveCursor_mem (cur rem : Count) : (s.moveCursor cur rem).mem = s.mem := rfl
@[simp] theorem moveCursor_store (cur rem : Count) : (s.moveCursor cur rem).store = s.store := rfl
@[simp] theorem moveCursor_wire (cur rem : Count) : (s.moveCursor cur rem).wire = s.wire := rfl
@[simp] theorem moveCursor_fault (cur rem : Count) : (s.moveCursor cur rem).fault = s.fault := rfl
@[simp] theorem moveCursor_params (cur rem : Count) : (s.moveCursor cur rem).params = s.params := rfl
@[simp] theorem moveCursor_slave (cur rem : Count) : (s.moveCursor cur rem).slave = s.slave := rfl
@[simp] theorem moveCursor_turns (cur rem : Count) : (s.moveCursor cur rem).turns = s.turns := rfl
@[simp] theorem moveCursor_caller (cur rem : Count) : (s.moveCursor cur rem).caller = s.caller := rfl
@[simp] theorem moveCursor_port (cur rem : Count) : (s.moveCursor cur rem).port = s.port := rfl

/-! `State.memWrite` -/

@[simp] theorem memWrite_seq (a : Nat) (v : Byte) : (s.memWrite a v).seq = s.seq := rfl
@[simp] theorem memWrite_bri (a : Nat) (v : Byte) : (s.memWrite a v).bri = s.bri := rfl
@[simp] theorem memWrite_mem (a : Nat) (v : Byte) : (s.memWrite a v).mem = s.mem.write a v := rfl
@[simp] theorem memWrite_store (a : Nat) (v : Byte) : (s.memWrite a v).store = s.store := rfl
@[simp] theorem memWrite_wire (a : Nat) (v : Byte) : (s.memWrite a v).wire = s.wire := rfl
@[simp] theorem memWrite_fault (a : Nat) (v : Byte) : (s.memWrite a v).fault = s.fault := rfl
@[simp] theorem memWrite_params (a : Nat) (v : Byte) : (s.memWrite a v).params = s.params := rfl
@[simp] theorem memWrite_slave (a : Nat) (v : Byte) : (s.memWrite a v).slave = s.slave := rfl
@[simp] theorem memWrite_turns (a : Nat) (v : Byte) : (s.memWrite a v).turns = s.turns := rfl
@[simp] theorem memWrite_caller (a : Nat) (v : Byte) : (s.memWrite a v).caller = s.caller := rfl
@[simp] theorem memWrite_port (a : Nat) (v : Byte) : (s.memWrite a v).port = s.port := rfl

/-! `State.raise` -/

@[simp] theorem raise_seq (k : Fault) : (s.raise k).seq = s.seq := rfl
@[simp] theorem raise_bri (k : Fault) : (s.raise k).bri = s.bri := rfl
@[simp] theorem raise_mem (k : Fault) : (s.raise k).mem = s.mem := rfl
@[simp] theorem raise_store (k : Fault) : (s.raise k).store = s.store := rfl
@[simp] theorem raise_wire (k : Fault) : (s.raise k).wire = s.wire := rfl
@[simp] theorem raise_fault (k : Fault) : (s.raise k).fault = some { kind := k, upc := some s.seq.upc } := rfl
@[simp] theorem raise_params (k : Fault) : (s.raise k).params = s.params := rfl
@[simp] theorem raise_slave (k : Fault) : (s.raise k).slave = s.slave := rfl
@[simp] theorem raise_turns (k : Fault) : (s.raise k).turns = s.turns := rfl
@[simp] theorem raise_caller (k : Fault) : (s.raise k).caller = s.caller := rfl
@[simp] theorem raise_port (k : Fault) : (s.raise k).port = s.port := rfl

/-! `State.refuse` -/

@[simp] theorem refuse_seq : s.refuse.seq = s.seq := rfl
@[simp] theorem refuse_bri : s.refuse.bri = s.bri := rfl
@[simp] theorem refuse_mem : s.refuse.mem = s.mem := rfl
@[simp] theorem refuse_store : s.refuse.store = s.store := rfl
@[simp] theorem refuse_wire : s.refuse.wire = s.wire := rfl
@[simp] theorem refuse_fault : s.refuse.fault = some { kind := .cmdRefused, upc := none } := rfl
@[simp] theorem refuse_params : s.refuse.params = s.params := rfl
@[simp] theorem refuse_slave : s.refuse.slave = s.slave := rfl
@[simp] theorem refuse_turns : s.refuse.turns = s.turns := rfl
@[simp] theorem refuse_caller : s.refuse.caller = s.caller := rfl
@[simp] theorem refuse_port : s.refuse.port = s.port := rfl

/-! `State.finish` -/

@[simp] theorem finish_seq (c : BitVec 3) : (s.finish c).seq = { s.seq with status := c, polls := 0, run := .ready } := rfl
@[simp] theorem finish_bri (c : BitVec 3) : (s.finish c).bri = s.bri := rfl
@[simp] theorem finish_mem (c : BitVec 3) : (s.finish c).mem = s.mem := rfl
@[simp] theorem finish_store (c : BitVec 3) : (s.finish c).store = s.store := rfl
@[simp] theorem finish_wire (c : BitVec 3) : (s.finish c).wire = s.wire := rfl
@[simp] theorem finish_fault (c : BitVec 3) : (s.finish c).fault = s.fault := rfl
@[simp] theorem finish_params (c : BitVec 3) : (s.finish c).params = s.params := rfl
@[simp] theorem finish_slave (c : BitVec 3) : (s.finish c).slave = s.slave := rfl
@[simp] theorem finish_turns (c : BitVec 3) : (s.finish c).turns = s.turns := rfl
@[simp] theorem finish_caller (c : BitVec 3) : (s.finish c).caller = s.caller := rfl
@[simp] theorem finish_port (c : BitVec 3) : (s.finish c).port = s.port := rfl

/-! `State.abort` -/

@[simp] theorem abort_seq (c : BitVec 3) : (s.abort c).seq = { s.seq with status := c, polls := 0, run := .ready } := rfl
@[simp] theorem abort_bri (c : BitVec 3) : (s.abort c).bri = s.bri.release := rfl
@[simp] theorem abort_mem (c : BitVec 3) : (s.abort c).mem = s.mem := rfl
@[simp] theorem abort_store (c : BitVec 3) : (s.abort c).store = s.store := rfl
@[simp] theorem abort_wire (c : BitVec 3) : (s.abort c).wire = s.wire := rfl
@[simp] theorem abort_fault (c : BitVec 3) : (s.abort c).fault = s.fault := rfl
@[simp] theorem abort_params (c : BitVec 3) : (s.abort c).params = s.params := rfl
@[simp] theorem abort_slave (c : BitVec 3) : (s.abort c).slave = s.slave := rfl
@[simp] theorem abort_turns (c : BitVec 3) : (s.abort c).turns = s.turns := rfl
@[simp] theorem abort_caller (c : BitVec 3) : (s.abort c).caller = s.caller := rfl
@[simp] theorem abort_port (c : BitVec 3) : (s.abort c).port = s.port := rfl

/-! `State.stopBus` -/

@[simp] theorem stopBus_seq : s.stopBus.seq = s.seq := rfl
@[simp] theorem stopBus_bri : s.stopBus.bri = s.bri.toIdle := rfl
@[simp] theorem stopBus_mem : s.stopBus.mem = s.mem := rfl
@[simp] theorem stopBus_store : s.stopBus.store = s.store := rfl
@[simp] theorem stopBus_wire : s.stopBus.wire = s.wire ++ [.stop] := rfl
@[simp] theorem stopBus_fault : s.stopBus.fault = s.fault := rfl
@[simp] theorem stopBus_params : s.stopBus.params = s.params := rfl
@[simp] theorem stopBus_slave : s.stopBus.slave = s.slave := rfl
@[simp] theorem stopBus_turns : s.stopBus.turns = s.turns := rfl
@[simp] theorem stopBus_caller : s.stopBus.caller = s.caller := rfl
@[simp] theorem stopBus_port : s.stopBus.port = s.port := rfl

/-! `State.present` -/

@[simp] theorem present_seq (r : Request) (rest : List CallerAct) : (s.present r rest).seq = s.seq := rfl
@[simp] theorem present_bri (r : Request) (rest : List CallerAct) : (s.present r rest).bri = s.bri := rfl
@[simp] theorem present_mem (r : Request) (rest : List CallerAct) : (s.present r rest).mem = s.mem := rfl
@[simp] theorem present_store (r : Request) (rest : List CallerAct) : (s.present r rest).store = s.store := rfl
@[simp] theorem present_wire (r : Request) (rest : List CallerAct) : (s.present r rest).wire = s.wire := rfl
@[simp] theorem present_fault (r : Request) (rest : List CallerAct) : (s.present r rest).fault = s.fault := rfl
@[simp] theorem present_params (r : Request) (rest : List CallerAct) : (s.present r rest).params = s.params := rfl
@[simp] theorem present_slave (r : Request) (rest : List CallerAct) : (s.present r rest).slave = s.slave := rfl
@[simp] theorem present_turns (r : Request) (rest : List CallerAct) : (s.present r rest).turns = s.turns := rfl
@[simp] theorem present_caller (r : Request) (rest : List CallerAct) : (s.present r rest).caller = rest := rfl
@[simp] theorem present_port (r : Request) (rest : List CallerAct) : (s.present r rest).port = r.port := rfl

/-! `State.countPoll`: only the poll count may change (R140). -/

theorem countPoll_eq :
    s.countPoll = { s with seq := { s.seq with polls := if s.params.checked then s.seq.polls + 1 else s.seq.polls } } := by
  unfold State.countPoll
  split <;> simp_all

@[simp] theorem countPoll_bri : s.countPoll.bri = s.bri := by simp [countPoll_eq]
@[simp] theorem countPoll_mem : s.countPoll.mem = s.mem := by simp [countPoll_eq]
@[simp] theorem countPoll_store : s.countPoll.store = s.store := by simp [countPoll_eq]
@[simp] theorem countPoll_wire : s.countPoll.wire = s.wire := by simp [countPoll_eq]
@[simp] theorem countPoll_fault : s.countPoll.fault = s.fault := by simp [countPoll_eq]
@[simp] theorem countPoll_params : s.countPoll.params = s.params := by simp [countPoll_eq]
@[simp] theorem countPoll_slave : s.countPoll.slave = s.slave := by simp [countPoll_eq]
@[simp] theorem countPoll_turns : s.countPoll.turns = s.turns := by simp [countPoll_eq]
@[simp] theorem countPoll_caller : s.countPoll.caller = s.caller := by simp [countPoll_eq]
@[simp] theorem countPoll_port : s.countPoll.port = s.port := by simp [countPoll_eq]

/-! `State.waitStep`: memory, control store, wire and inputs are left alone. -/

@[simp] theorem waitStep_mem (met nak : Bool) : (s.waitStep met nak).mem = s.mem := by
  unfold State.waitStep
  split_ifs <;> simp

@[simp] theorem waitStep_store (met nak : Bool) : (s.waitStep met nak).store = s.store := by
  unfold State.waitStep
  split_ifs <;> simp

@[simp] theorem waitStep_wire (met nak : Bool) : (s.waitStep met nak).wire = s.wire := by
  unfold State.waitStep
  split_ifs <;> simp

@[simp] theorem waitStep_fault (met nak : Bool) : (s.waitStep met nak).fault = s.fault := by
  unfold State.waitStep
  split_ifs <;> simp

@[simp] theorem waitStep_params (met nak : Bool) : (s.waitStep met nak).params = s.params := by
  unfold State.waitStep
  split_ifs <;> simp

@[simp] theorem waitStep_slave (met nak : Bool) : (s.waitStep met nak).slave = s.slave := by
  unfold State.waitStep
  split_ifs <;> simp

@[simp] theorem waitStep_turns (met nak : Bool) : (s.waitStep met nak).turns = s.turns := by
  unfold State.waitStep
  split_ifs <;> simp

@[simp] theorem waitStep_caller (met nak : Bool) : (s.waitStep met nak).caller = s.caller := by
  unfold State.waitStep
  split_ifs <;> simp

@[simp] theorem waitStep_port (met nak : Bool) : (s.waitStep met nak).port = s.port := by
  unfold State.waitStep
  split_ifs <;> simp

/-! `State.latchCommand` and `State.accept`: only the sequencer's registers and the fault record may change (R100, R107). -/

@[simp] theorem latchCommand_bri (op : BitVec 2) (sa ra : Byte) : (s.latchCommand op sa ra).bri = s.bri := rfl
@[simp] theorem latchCommand_mem (op : BitVec 2) (sa ra : Byte) : (s.latchCommand op sa ra).mem = s.mem := rfl
@[simp] theorem latchCommand_store (op : BitVec 2) (sa ra : Byte) : (s.latchCommand op sa ra).store = s.store := rfl
@[simp] theorem latchCommand_wire (op : BitVec 2) (sa ra : Byte) : (s.latchCommand op sa ra).wire = s.wire := rfl
@[simp] theorem latchCommand_fault (op : BitVec 2) (sa ra : Byte) : (s.latchCommand op sa ra).fault = s.fault := rfl
@[simp] theorem latchCommand_params (op : BitVec 2) (sa ra : Byte) : (s.latchCommand op sa ra).params = s.params := rfl
@[simp] theorem latchCommand_slave (op : BitVec 2) (sa ra : Byte) : (s.latchCommand op sa ra).slave = s.slave := rfl
@[simp] theorem latchCommand_turns (op : BitVec 2) (sa ra : Byte) : (s.latchCommand op sa ra).turns = s.turns := rfl
@[simp] theorem latchCommand_caller (op : BitVec 2) (sa ra : Byte) : (s.latchCommand op sa ra).caller = s.caller := rfl
@[simp] theorem latchCommand_port (op : BitVec 2) (sa ra : Byte) : (s.latchCommand op sa ra).port = s.port := rfl

@[simp] theorem accept_bri (op : BitVec 2) (sa ra : Byte) : (s.accept op sa ra).bri = s.bri := by
  unfold State.accept
  split_ifs <;> simp

@[simp] theorem accept_mem (op : BitVec 2) (sa ra : Byte) : (s.accept op sa ra).mem = s.mem := by
  unfold State.accept
  split_ifs <;> simp

@[simp] theorem accept_store (op : BitVec 2) (sa ra : Byte) : (s.accept op sa ra).store = s.store := by
  unfold State.accept
  split_ifs <;> simp

@[simp] theorem accept_wire (op : BitVec 2) (sa ra : Byte) : (s.accept op sa ra).wire = s.wire := by
  unfold State.accept
  split_ifs <;> simp

@[simp] theorem accept_params (op : BitVec 2) (sa ra : Byte) : (s.accept op sa ra).params = s.params := by
  unfold State.accept
  split_ifs <;> simp

@[simp] theorem accept_slave (op : BitVec 2) (sa ra : Byte) : (s.accept op sa ra).slave = s.slave := by
  unfold State.accept
  split_ifs <;> simp

@[simp] theorem accept_turns (op : BitVec 2) (sa ra : Byte) : (s.accept op sa ra).turns = s.turns := by
  unfold State.accept
  split_ifs <;> simp

@[simp] theorem accept_caller (op : BitVec 2) (sa ra : Byte) : (s.accept op sa ra).caller = s.caller := by
  unfold State.accept
  split_ifs <;> simp

@[simp] theorem accept_port (op : BitVec 2) (sa ra : Byte) : (s.accept op sa ra).port = s.port := by
  unfold State.accept
  split_ifs <;> simp

/-! `State.turnTaken`: only the scheduler's inputs may change. -/

@[simp] theorem turnTaken_seq : s.turnTaken.seq = s.seq := by
  unfold State.turnTaken
  split <;> rfl

@[simp] theorem turnTaken_bri : s.turnTaken.bri = s.bri := by
  unfold State.turnTaken
  split <;> rfl

@[simp] theorem turnTaken_mem : s.turnTaken.mem = s.mem := by
  unfold State.turnTaken
  split <;> rfl

@[simp] theorem turnTaken_store : s.turnTaken.store = s.store := by
  unfold State.turnTaken
  split <;> rfl

@[simp] theorem turnTaken_wire : s.turnTaken.wire = s.wire := by
  unfold State.turnTaken
  split <;> rfl

@[simp] theorem turnTaken_fault : s.turnTaken.fault = s.fault := by
  unfold State.turnTaken
  split <;> rfl

@[simp] theorem turnTaken_params : s.turnTaken.params = s.params := by
  unfold State.turnTaken
  split <;> rfl

@[simp] theorem turnTaken_slave : s.turnTaken.slave = s.slave := by
  unfold State.turnTaken
  split <;> rfl

@[simp] theorem turnTaken_caller : s.turnTaken.caller = s.caller := by
  unfold State.turnTaken
  split <;> rfl

@[simp] theorem turnTaken_port : s.turnTaken.port = s.port := by
  unfold State.turnTaken
  split <;> rfl

end Sys2Proof.Machine
end

