-- ==== Sys2Proof/Laws/Ops.lean ====
section
/-! SUPPORT. What each shared operation can do, said once: later proofs cite these instead of unfolding the operation. -/

namespace Sys2Proof.Machine

/-! ### Latches and faults -/

@[simp] theorem latch_some {α : Type} (v : α) : latch (some v) = .ok v := rfl
@[simp] theorem latch_none {α : Type} : latch (none : Option α) = .error .unwrittenReg := rfl

/-- A latch is read exactly when it holds the value; otherwise the fault is UNWRITTEN_REG (R29). -/
theorem latch_cases {α : Type} (x : Option α) :
    (∃ v, x = some v ∧ latch x = .ok v) ∨ (x = none ∧ latch x = .error .unwrittenReg) := by
  cases x <;> simp

@[simp] theorem settle_ok (s t : State) : settle s (.ok t) = .next t := rfl
@[simp] theorem settle_error (s : State) (k : Fault) : settle s (.error k) = .next (s.raise k) := rfl

/-- A micro-op step has its effect, or raises a fault and has no other effect (R244). -/
theorem settle_cases (s : State) (r : Except Fault State) :
    (∃ t, r = .ok t ∧ settle s r = .next t) ∨ (∃ k, r = .error k ∧ settle s r = .next (s.raise k)) := by
  cases r <;> simp

/-! ### BRI accesses -/

/-- What `WriteDR` does where it is defined (R67): an address byte in STARTED, a data byte in TX. -/
theorem writeDr_ok {v : Byte} {b b' : Bri} (h : b.writeDr v = .ok b') :
    b.rxne = false ∧
      ((b.ph = .started ∧ b' = { b with dr := v, sb := false, ph := .addrQueued }) ∨
        (b.ph = .tx ∧ b.txe = true ∧ b' = { b with dr := v, txe := false, btf := false })) := by
  unfold Bri.writeDr at h
  split at h
  · cases h
  · next hr =>
    refine ⟨by simpa using hr, ?_⟩
    split at h
    · next hp => exact .inl ⟨hp, by injection h with h; exact h.symm⟩
    · next hp =>
      split at h
      · next ht => exact .inr ⟨hp, ht, by injection h with h; exact h.symm⟩
      · cases h
    · cases h

/-- `WriteDR` raises no fault but BRI_UNSPEC (R67). -/
theorem writeDr_error {v : Byte} {b : Bri} {k : Fault} (h : b.writeDr v = .error k) : k = .briUnspec := by
  unfold Bri.writeDr at h
  split at h
  · injection h with h; exact h.symm
  · split at h
    · cases h
    · split at h
      · cases h
      · injection h with h; exact h.symm
    · injection h with h; exact h.symm

/-- `WriteDR` in STARTED (R67). -/
theorem writeDr_started (v : Byte) (b : Bri) (hr : b.rxne = false) (hp : b.ph = .started) :
    b.writeDr v = .ok { b with dr := v, sb := false, ph := .addrQueued } := by
  simp [Bri.writeDr, hr, hp]

/-- `WriteDR` in TX with `txe = 1` (R67). -/
theorem writeDr_tx (v : Byte) (b : Bri) (hr : b.rxne = false) (hp : b.ph = .tx) (ht : b.txe = true) :
    b.writeDr v = .ok { b with dr := v, txe := false, btf := false } := by
  simp [Bri.writeDr, hr, hp, ht]

/-- A START request where it is defined (R68). -/
theorem requestStart_ok {b b' : Bri} (h : b.requestStart = .ok b') :
    (b.stop = true ∨ b.ph = .idle ∨ b.ph = .tx ∨ b.ph = .txNacked) ∧ b' = { b with start := true } := by
  unfold Bri.requestStart at h
  split at h
  · next hc =>
    refine ⟨?_, by injection h with h; exact h.symm⟩
    rcases Bool.or_eq_true _ _ ▸ hc with hs | hp
    · exact .inl hs
    · right
      revert hp
      cases b.ph <;> simp [Phase.takesStart]
  · cases h

/-- A START request raises no fault but BRI_UNSPEC (R68). -/
theorem requestStart_error {b : Bri} {k : Fault} (h : b.requestStart = .error k) : k = .briUnspec := by
  unfold Bri.requestStart at h
  split at h
  · cases h
  · injection h with h; exact h.symm

/-- A read of SR1 changes nothing but `addrSeen` (R64). -/
theorem afterSr1_eq (b : Bri) : b.afterSr1 = { b with addrSeen := b.addr || b.addrSeen } := by
  unfold Bri.afterSr1
  cases h : b.addr <;> cases b <;> simp_all

/-! ### Burst byte moves -/

/-- The operands of a byte move are there: the three latches hold them and a byte remains (R165, R166). -/
theorem takeByteCount_ok {s : State} {c : Cursor} (h : takeByteCount s = .ok c) :
    s.seq.rem = some c.rem ∧ s.seq.buf = some c.buf ∧ s.seq.cur = some c.cur ∧ c.rem ≠ 0 := by
  unfold takeByteCount at h
  cases hr : s.seq.rem with
  | none => simp [hr] at h
  | some r =>
    simp only [hr, latch_some] at h
    split at h
    · cases h
    · next hz =>
      cases hb : s.seq.buf <;> cases hc : s.seq.cur <;> simp only [hb, hc, latch_some, latch_none] at h <;> cases h
      exact ⟨rfl, rfl, rfl, hz⟩

/-- The faults of a byte move's operands. -/
theorem takeByteCount_error {s : State} {k : Fault} (h : takeByteCount s = .error k) :
    (k = .unwrittenReg ∧ (s.seq.rem = none ∨ s.seq.buf = none ∨ s.seq.cur = none)) ∨
      (k = .bufOverrun ∧ s.seq.rem = some 0) := by
  unfold takeByteCount at h
  cases hr : s.seq.rem with
  | none =>
    simp only [hr, latch_none] at h
    injection h with h
    exact .inl ⟨h.symm, .inl rfl⟩
  | some r =>
    simp only [hr, latch_some] at h
    split at h
    · next hz =>
      injection h with h
      exact .inr ⟨h.symm, by simp [hz]⟩
    · cases hb : s.seq.buf <;> cases hc : s.seq.cur <;> simp only [hb, hc, latch_some, latch_none] at h <;> cases h <;>
        exact .inl ⟨rfl, by simp⟩

/-- The operands read when the latches hold them and a byte remains. -/
theorem takeByteCount_of {s : State} {rem cur : Count} {buf : Addr} (hr : s.seq.rem = some rem) (hz : rem ≠ 0)
    (hb : s.seq.buf = some buf) (hc : s.seq.cur = some cur) :
    takeByteCount s = .ok { rem := rem, buf := buf, cur := cur } := by
  simp only [takeByteCount, hr, latch_some, if_neg hz, hb, hc]

/-- Writing a byte from a latch: the latch holds it, `WriteDR` is defined, and the next micro-op follows. -/
theorem sendByte_ok {x : Option Byte} {form : Byte → Byte} {s t : State} (h : sendByte x form s = .ok t) :
    ∃ v b, x = some v ∧ s.bri.writeDr (form v) = .ok b ∧ t = (s.setBri b).advance := by
  unfold sendByte at h
  cases x with
  | none => simp at h
  | some v =>
    simp only [latch_some] at h
    cases hw : s.bri.writeDr (form v) with
    | error k => simp [hw] at h
    | ok b =>
      simp only [hw] at h
      injection h with h
      exact ⟨v, b, rfl, hw, h.symm⟩

/-- The faults of writing a byte from a latch. -/
theorem sendByte_error {x : Option Byte} {form : Byte → Byte} {s : State} {k : Fault} (h : sendByte x form s = .error k) :
    (k = .unwrittenReg ∧ x = none) ∨ k = .briUnspec := by
  unfold sendByte at h
  cases x with
  | none => simp at h; exact .inl ⟨h.symm, rfl⟩
  | some v =>
    simp only [latch_some] at h
    cases hw : s.bri.writeDr (form v) with
    | error j =>
      simp only [hw] at h
      injection h with h
      exact .inr (h ▸ writeDr_error hw)
    | ok b => simp [hw] at h

/-- A branch on the remaining count goes to its target or on (R180, R181). -/
theorem branchOnRem_of (n rem : Count) (t : MicroAddr) (s : State) (h : s.seq.rem = some rem) :
    branchOnRem n t s = .ok (if rem = n then s.goto t else s.advance) := by
  simp [branchOnRem, h]

theorem branchOnRem_none (n : Count) (t : MicroAddr) (s : State) (h : s.seq.rem = none) :
    branchOnRem n t s = .error .unwrittenReg := by
  simp [branchOnRem, h]

/-! ### Accept (R100, R107) -/

/-- Accept refuses, or completes at once with INVALID_ADDR, or starts the program. -/
theorem accept_cases (op : BitVec 2) (sa ra : Byte) (s : State) :
    (acceptRefuses op s = true ∧ s.accept op sa ra = s.refuse) ∨
      (acceptRefuses op s = false ∧ s.params.addrLsb = .reject ∧ sa.getLsbD 0 = true ∧
        s.accept op sa ra = (s.latchCommand op sa ra).finish 4) ∨
      (acceptRefuses op s = false ∧ ¬(s.params.addrLsb = .reject ∧ sa.getLsbD 0 = true) ∧
        s.accept op sa ra = (s.latchCommand op sa ra).goto (entryOf op)) := by
  unfold State.accept
  split_ifs with h1 h2
  · exact .inl ⟨h1, rfl⟩
  · simp only [Bool.and_eq_true, decide_eq_true_eq] at h2
    exact .inr (.inl ⟨by simpa using h1, h2.1, h2.2, rfl⟩)
  · simp only [Bool.and_eq_true, decide_eq_true_eq] at h2
    exact .inr (.inr ⟨by simpa using h1, h2, rfl⟩)

/-! ### Polls (R140) -/

/-- A poll completes the wait, aborts it, or leaves it to be polled again. -/
theorem waitStep_cases (met nak : Bool) (s : State) :
    (met = true ∧ s.waitStep met nak = s.advance) ∨
      (met = false ∧ s.params.checked = true ∧ nak = true ∧ s.waitStep met nak = s.abort 2) ∨
      (met = false ∧ s.params.checked = true ∧ nak = false ∧ s.params.pollBudget ≤ s.seq.polls + 1 ∧
        s.waitStep met nak = s.abort 1) ∨
      (met = false ∧ s.params.checked = true ∧ nak = false ∧ s.seq.polls + 1 < s.params.pollBudget ∧
        s.waitStep met nak = { s with seq := { s.seq with polls := s.seq.polls + 1 } }) ∨
      (met = false ∧ s.params.checked = false ∧ s.waitStep met nak = s) := by
  unfold State.waitStep State.outOfPolls State.countPoll
  cases met with
  | true => exact .inl ⟨rfl, rfl⟩
  | false =>
    right
    cases hc : s.params.checked with
    | false => exact .inr (.inr (.inr ⟨rfl, rfl, by simp⟩))
    | true =>
      cases nak with
      | true => exact .inl ⟨rfl, rfl, rfl, by simp⟩
      | false =>
        right
        by_cases hb : s.params.pollBudget ≤ s.seq.polls + 1
        · exact .inl ⟨rfl, rfl, rfl, hb, by simp [hb]⟩
        · exact .inr (.inl ⟨rfl, rfl, rfl, by omega, by simp [hb]⟩)

end Sys2Proof.Machine
end

