-- ==== Sys2Proof/Laws/Exec.lean ====
section
/-! SUPPORT. What every meaning has in common: it answers a next state and leaves the control store, the launch parameters, the
wire trace and the environment's inputs alone. -/

namespace Sys2Proof.Machine

/-- Every instruction answers a next state, from every state. -/
theorem exec_next (i : Instr) (s : State) : ∃ t, exec i s = .next t := by
  cases i with
  | byteRead sa ra => exact ⟨_, rfl⟩
  | burstRead sa ra => exact ⟨_, rfl⟩
  | burstWrite sa ra => exact ⟨_, rfl⟩
  | waitIdle => exact ⟨_, rfl⟩
  | waitSb => exact ⟨_, rfl⟩
  | waitAddr => exact ⟨_, rfl⟩
  | waitTxe => exact ⟨_, rfl⟩
  | waitBtf => exact ⟨_, rfl⟩
  | waitRxne => exact ⟨_, rfl⟩
  | clrAddr => exact ⟨_, rfl⟩
  | rdRes => exact ⟨_, rfl⟩
  | ackOn => exact ⟨_, rfl⟩
  | ackOff => exact ⟨_, rfl⟩
  | genStop => exact ⟨_, rfl⟩
  | optStop => exact ⟨_, rfl⟩
  | jmp t => exact ⟨_, rfl⟩
  | genStart => rcases settle_cases s _ with ⟨t, -, h⟩ | ⟨k, -, h⟩ <;> exact ⟨_, h⟩
  | wrAddrW => rcases settle_cases s _ with ⟨t, -, h⟩ | ⟨k, -, h⟩ <;> exact ⟨_, h⟩
  | wrAddrROr => rcases settle_cases s _ with ⟨t, -, h⟩ | ⟨k, -, h⟩ <;> exact ⟨_, h⟩
  | wrAddrRInc => rcases settle_cases s _ with ⟨t, -, h⟩ | ⟨k, -, h⟩ <;> exact ⟨_, h⟩
  | wrReg => rcases settle_cases s _ with ⟨t, -, h⟩ | ⟨k, -, h⟩ <;> exact ⟨_, h⟩
  | rdData => rcases settle_cases s _ with ⟨t, -, h⟩ | ⟨k, -, h⟩ <;> exact ⟨_, h⟩
  | wrData => rcases settle_cases s _ with ⟨t, -, h⟩ | ⟨k, -, h⟩ <;> exact ⟨_, h⟩
  | brRemZero t => rcases settle_cases s _ with ⟨t, -, h⟩ | ⟨k, -, h⟩ <;> exact ⟨_, h⟩
  | brRemOne t => rcases settle_cases s _ with ⟨t, -, h⟩ | ⟨k, -, h⟩ <;> exact ⟨_, h⟩
  | ret => rcases settle_cases s _ with ⟨t, -, h⟩ | ⟨k, -, h⟩ <;> exact ⟨_, h⟩

/-- The fields no instruction writes. -/
structure ExecFrame (s t : State) : Prop where
  store : t.store = s.store
  wire : t.wire = s.wire
  params : t.params = s.params
  slave : t.slave = s.slave
  turns : t.turns = s.turns
  caller : t.caller = s.caller
  port : t.port = s.port

/-- A step that settles leaves those fields alone when its effect does. -/
theorem settle_frame {s t : State} {r : Except Fault State} (h : settle s r = .next t)
    (hr : ∀ u, r = .ok u → ExecFrame s u) : ExecFrame s t := by
  cases r with
  | ok u => cases h; exact hr _ rfl
  | error k => cases h; exact ⟨rfl, rfl, rfl, rfl, rfl, rfl, rfl⟩

theorem sendByte_frame {x : Option Byte} {form : Byte → Byte} {s t : State} (h : sendByte x form s = .ok t) :
    ExecFrame s t := by
  obtain ⟨v, b, -, -, rfl⟩ := sendByte_ok h
  exact ⟨rfl, rfl, rfl, rfl, rfl, rfl, rfl⟩

theorem branchOnRem_frame {n : Count} {a : MicroAddr} {s t : State} (h : branchOnRem n a s = .ok t) : ExecFrame s t := by
  cases hr : s.seq.rem with
  | none => simp [branchOnRem_none n a s hr] at h
  | some r =>
    rw [branchOnRem_of n r a s hr] at h
    injection h with h
    subst h
    split <;> exact ⟨rfl, rfl, rfl, rfl, rfl, rfl, rfl⟩

theorem waitStep_frame (met nak : Bool) (s : State) (b : Bri) : ExecFrame s ((s.setBri b).waitStep met nak) :=
  ⟨by simp, by simp, by simp, by simp, by simp, by simp, by simp⟩

theorem accept_frame (op : BitVec 2) (sa ra : Byte) (s : State) : ExecFrame s (s.accept op sa ra) :=
  ⟨by simp, by simp, by simp, by simp, by simp, by simp, by simp⟩

/-- No instruction writes the control store, the wire trace, the launch parameters or the environment's inputs. -/
theorem exec_frame {i : Instr} {s t : State} (h : exec i s = .next t) : ExecFrame s t := by
  cases i with
  | byteRead sa ra => cases h; exact accept_frame _ _ _ _
  | burstRead sa ra => cases h; exact accept_frame _ _ _ _
  | burstWrite sa ra => cases h; exact accept_frame _ _ _ _
  | waitIdle => cases h; exact waitStep_frame _ _ _ _
  | waitSb => cases h; exact waitStep_frame _ _ _ _
  | waitAddr => cases h; exact waitStep_frame _ _ _ _
  | waitTxe => cases h; exact waitStep_frame _ _ _ _
  | waitBtf => cases h; exact waitStep_frame _ _ _ _
  | waitRxne => cases h; exact waitStep_frame _ _ _ _
  | clrAddr => cases h; exact ⟨rfl, rfl, rfl, rfl, rfl, rfl, rfl⟩
  | rdRes => cases h; exact ⟨rfl, rfl, rfl, rfl, rfl, rfl, rfl⟩
  | ackOn => cases h; exact ⟨rfl, rfl, rfl, rfl, rfl, rfl, rfl⟩
  | ackOff => cases h; exact ⟨rfl, rfl, rfl, rfl, rfl, rfl, rfl⟩
  | genStop => cases h; exact ⟨rfl, rfl, rfl, rfl, rfl, rfl, rfl⟩
  | optStop =>
    cases h
    split <;> exact ⟨rfl, rfl, rfl, rfl, rfl, rfl, rfl⟩
  | jmp a => cases h; exact ⟨rfl, rfl, rfl, rfl, rfl, rfl, rfl⟩
  | genStart =>
    refine settle_frame h fun u hu => ?_
    split at hu
    · cases hu
    · injection hu with hu
      subst hu
      exact ⟨rfl, rfl, rfl, rfl, rfl, rfl, rfl⟩
  | wrAddrW => exact settle_frame h fun u hu => sendByte_frame hu
  | wrAddrROr => exact settle_frame h fun u hu => sendByte_frame hu
  | wrAddrRInc => exact settle_frame h fun u hu => sendByte_frame hu
  | wrReg => exact settle_frame h fun u hu => sendByte_frame hu
  | rdData =>
    refine settle_frame h fun u hu => ?_
    split at hu
    · cases hu
    · injection hu with hu
      subst hu
      exact ⟨rfl, rfl, rfl, rfl, rfl, rfl, rfl⟩
  | wrData =>
    refine settle_frame h fun u hu => ?_
    split at hu
    · cases hu
    · split at hu
      · cases hu
      · injection hu with hu
        subst hu
        exact ⟨rfl, rfl, rfl, rfl, rfl, rfl, rfl⟩
  | brRemZero a => exact settle_frame h fun u hu => branchOnRem_frame hu
  | brRemOne a => exact settle_frame h fun u hu => branchOnRem_frame hu
  | ret =>
    refine settle_frame h fun u hu => ?_
    split at hu
    · split at hu
      · cases hu
      · injection hu with hu
        subst hu
        exact ⟨rfl, rfl, rfl, rfl, rfl, rfl, rfl⟩
    · injection hu with hu
      subst hu
      exact ⟨rfl, rfl, rfl, rfl, rfl, rfl, rfl⟩

end Sys2Proof.Machine
end

