-- ==== Sys2Proof/Laws/Step.lean ====
section
/-! SUPPORT. What a step can do, said once: the engine's turn, the caller's turn, the sequencer's turn, and a step. -/

namespace Sys2Proof.Machine

/-- The engine's turn is the effect of an enabled step, or nothing. -/
theorem engineTurn_cases (s : State) :
    (∃ e, engineNext s = some e ∧ e.enabled s = true ∧ engineTurn s = e.effect s) ∨
      (engineNext s = none ∧ engineTurn s = s) := by
  unfold engineTurn
  cases h : engineNext s with
  | none => exact .inr ⟨rfl, rfl⟩
  | some e => exact .inl ⟨e, rfl, List.find?_some h, rfl⟩

/-- An enabled step is live and its guard holds (R215). -/
theorem enabled_eq (s : State) (e : EngineStep) : e.enabled s = (s.params.periphLive && e.guard s) := rfl

/-- Every engine step is in the list the engine looks through. -/
theorem mem_engineSteps (e : EngineStep) : e ∈ engineSteps := by cases e <;> simp [engineSteps]

/-- No step is enabled when the engine finds none. -/
theorem engineNext_none {s : State} (h : engineNext s = none) (e : EngineStep) : e.enabled s = false := by
  have := List.find?_eq_none.1 h e (mem_engineSteps e)
  simpa using this

/-- What the sequencer's turn is (R185). -/
theorem sequencerTurn_cases (s : State) :
    (s.seq.run = .ready ∧ sequencerTurn s = .next s) ∨
      (s.seq.run = .busy ∧ (∃ e, fetch s = .error e) ∧ sequencerTurn s = .next (s.raise .illegalMicroop)) ∨
      (s.seq.run = .busy ∧ ∃ i, fetch s = .ok i ∧ sequencerTurn s = exec i s) := by
  unfold sequencerTurn
  cases hr : s.seq.run with
  | ready => exact .inl ⟨rfl, rfl⟩
  | busy =>
    cases hf : fetch s with
    | error e => exact .inr (.inl ⟨rfl, ⟨e, rfl⟩, rfl⟩)
    | ok i => exact .inr (.inr ⟨rfl, i, rfl, rfl⟩)

/-- What handing over a command comes to. -/
theorem issueTurn_cases (r : Request) (s : State) :
    ((∃ e, decodeCommand r.word = .error e) ∧ issueTurn r s = .next s.refuse) ∨
      (∃ i, decodeCommand r.word = .ok i ∧ issueTurn r s = exec i s) := by
  unfold issueTurn
  cases h : decodeCommand r.word with
  | error e => exact .inl ⟨⟨e, rfl⟩, rfl⟩
  | ok i => exact .inr ⟨i, rfl, rfl⟩

/-- What the caller's turn is (log 10). -/
theorem callerTurn_cases (s : State) :
    callerTurn s = .next s ∨
      (∃ r rest, s.caller = .overlap r :: rest ∧ callerTurn s = issueTurn r (s.present r rest)) ∨
      (∃ r rest, s.caller = .issue r :: rest ∧ s.seq.run = .ready ∧ callerTurn s = issueTurn r (s.present r rest)) ∨
      (∃ a b rest, s.caller = .fill a b :: rest ∧ s.seq.run = .ready ∧
        callerTurn s = .next { s.memWrite a.toNat b with caller := rest }) := by
  unfold callerTurn
  cases hc : s.caller with
  | nil => exact .inl rfl
  | cons act rest =>
    cases act with
    | overlap r => exact .inr (.inl ⟨r, rest, rfl, rfl⟩)
    | issue r =>
      cases hr : s.seq.run with
      | ready => exact .inr (.inr (.inl ⟨r, rest, rfl, rfl, rfl⟩))
      | busy => exact .inl rfl
    | fill a b =>
      cases hr : s.seq.run with
      | ready => exact .inr (.inr (.inr ⟨a, b, rest, rfl, rfl, rfl⟩))
      | busy => exact .inl rfl

/-- A step from a state without a fault record is the turn of the agent the scheduler picks. -/
theorem step_of_noFault {s : State} (h : s.fault = none) : step s = agentTurn (pickAgent s) s.turnTaken := by
  simp [step, h]

/-- A step that answers a next state began without a fault record and was one agent's turn. -/
theorem step_cases {s t : State} (h : step s = .next t) :
    s.fault = none ∧
      ((pickAgent s = .sequencer ∧ sequencerTurn s.turnTaken = .next t) ∨
        (pickAgent s = .engine ∧ t = engineTurn s.turnTaken) ∨
        (pickAgent s = .caller ∧ callerTurn s.turnTaken = .next t)) := by
  unfold step at h
  cases hf : s.fault with
  | some r => simp [hf] at h
  | none =>
    simp only [hf] at h
    refine ⟨rfl, ?_⟩
    cases hp : pickAgent s with
    | sequencer => rw [hp] at h; exact .inl ⟨rfl, h⟩
    | engine =>
      rw [hp] at h
      injection h with h
      exact .inr (.inl ⟨rfl, h.symm⟩)
    | caller => rw [hp] at h; exact .inr (.inr ⟨rfl, h⟩)

/-- A decoded command word is one of the three commands (R82). -/
theorem decodeCommand_ok {c : CommandWord} {i : Instr} (h : decodeCommand c = .ok i) :
    i = .byteRead (cmdSa c) (cmdRa c) ∨ i = .burstRead (cmdSa c) (cmdRa c) ∨ i = .burstWrite (cmdSa c) (cmdRa c) := by
  unfold decodeCommand at h
  split_ifs at h
  split at h <;> first | (injection h with h; simp [← h]) | cases h

/-- A turn with a micro-op or a command to run answers a next state. -/
theorem agentTurn_next (a : Agent) (s : State) : ∃ t, agentTurn a s = .next t := by
  cases a with
  | engine => exact ⟨_, rfl⟩
  | sequencer =>
    rcases sequencerTurn_cases s with ⟨-, h⟩ | ⟨-, -, h⟩ | ⟨-, i, -, h⟩
    · exact ⟨_, h⟩
    · exact ⟨_, h⟩
    · obtain ⟨t, ht⟩ := exec_next i s
      exact ⟨t, h.trans ht⟩
  | caller =>
    have issue : ∀ r u, ∃ t, issueTurn r u = .next t := fun r u => by
      rcases issueTurn_cases r u with ⟨-, h⟩ | ⟨i, -, h⟩
      · exact ⟨_, h⟩
      · obtain ⟨t, ht⟩ := exec_next i u
        exact ⟨t, h.trans ht⟩
    rcases callerTurn_cases s with h | ⟨r, rest, -, h⟩ | ⟨r, rest, -, -, h⟩ | ⟨a, b, rest, -, -, h⟩
    · exact ⟨_, h⟩
    · obtain ⟨t, ht⟩ := issue r (s.present r rest)
      exact ⟨t, h.trans ht⟩
    · obtain ⟨t, ht⟩ := issue r (s.present r rest)
      exact ⟨t, h.trans ht⟩
    · exact ⟨_, h⟩

/-- A step from a state without a fault record answers a next state. -/
theorem step_next {s : State} (h : s.fault = none) : ∃ t, step s = .next t := by
  obtain ⟨t, ht⟩ := agentTurn_next (pickAgent s) s.turnTaken
  exact ⟨t, (step_of_noFault h).trans ht⟩

/-- A run of any machine that goes on after its first step. -/
theorem core_run_succ_next (M : Host.Core) (k : Nat) (s u : M.State) (h : M.step s = .next u) :
    M.run (k + 1) s = M.run k u := by
  simp only [Host.Core.run, h]

/-- A run of any machine that answers a next state took a first step. -/
theorem core_run_succ_cases (M : Host.Core) (k : Nat) (s t : M.State) (h : M.run (k + 1) s = .next t) :
    ∃ u, M.step s = .next u ∧ M.run k u = .next t := by
  cases hst : M.step s with
  | next u => simp only [Host.Core.run, hst] at h; exact ⟨u, rfl, h⟩
  | fault r => simp [Host.Core.run, hst] at h
  | refused r => simp [Host.Core.run, hst] at h

/-- A run that goes on after its first step. -/
theorem run_succ_next (k : Nat) {s u : State} (h : step s = .next u) :
    Sys2Proof.core.run (k + 1) s = Sys2Proof.core.run k u :=
  core_run_succ_next Sys2Proof.core k s u h

/-- A run that answers a next state took a first step. -/
theorem run_succ_cases (k : Nat) {s t : State} (h : Sys2Proof.core.run (k + 1) s = .next t) :
    ∃ u, step s = .next u ∧ Sys2Proof.core.run k u = .next t :=
  core_run_succ_cases Sys2Proof.core k s t h

/-- A property that holds at one state and that every step keeps holds at the end of every run from that state. -/
theorem run_keeps {Inv : State → Prop} (keep : ∀ s t, Inv s → step s = .next t → Inv t) :
    ∀ (k : Nat) (s t : State), Inv s → Sys2Proof.core.run k s = .next t → Inv t
  | 0, s, t, hs, h => by cases h; exact hs
  | k + 1, s, t, hs, h => by
    obtain ⟨u, hu, h⟩ := run_succ_cases k h
    exact run_keeps keep k u t (keep s u hs hu) h

end Sys2Proof.Machine
end

