-- ==== Sys2Proof/Laws/Engine.lean ====
section
/-! SUPPORT. What the engine's steps leave alone (spec/46_bus_engine.md): they change the BRI, the wire trace and the slave's
inputs only, and only append to the trace. -/

namespace Sys2Proof.Machine

/-- The fields no engine step writes, and the acknowledge enable (R36). -/
structure EffectFrame (s t : State) : Prop where
  seq : t.seq = s.seq
  mem : t.mem = s.mem
  store : t.store = s.store
  fault : t.fault = s.fault
  params : t.params = s.params
  turns : t.turns = s.turns
  caller : t.caller = s.caller
  port : t.port = s.port
  ack : t.bri.ack = s.bri.ack
  wire : ∃ evs, t.wire = s.wire ++ evs

/-- Receiving a byte leaves the acknowledge enable, the requests and the phase alone. -/
theorem receive_ack (v : Byte) (b : Bri) : (b.receive v).ack = b.ack := by
  unfold Bri.receive
  split <;> rfl

theorem effect_frame (s : State) (e : EngineStep) : EffectFrame s (e.effect s) := by
  cases e with
  | start => exact ⟨rfl, rfl, rfl, rfl, rfl, rfl, rfl, rfl, rfl, _, rfl⟩
  | addr =>
    refine ⟨rfl, rfl, rfl, rfl, rfl, rfl, rfl, rfl, ?_, _, rfl⟩
    simp only [EngineStep.effect, engineAddr]
    split <;> rfl
  | txLoad => exact ⟨rfl, rfl, rfl, rfl, rfl, rfl, rfl, rfl, rfl, [], by simp [EngineStep.effect, engineTxLoad]⟩
  | txDone =>
    simp only [EngineStep.effect]
    split
    · refine ⟨rfl, rfl, rfl, rfl, rfl, rfl, rfl, rfl, ?_, _, rfl⟩
      simp only [engineTxDone]
      split <;> rfl
    · exact ⟨rfl, rfl, rfl, rfl, rfl, rfl, rfl, rfl, rfl, [], by simp⟩
  | rx =>
    simp only [EngineStep.effect, engineRx]
    split
    · exact ⟨rfl, rfl, rfl, rfl, rfl, rfl, rfl, rfl, receive_ack _ _, _, rfl⟩
    · split
      · exact ⟨rfl, rfl, rfl, rfl, rfl, rfl, rfl, rfl, receive_ack _ _,
          [.receive s.slave.rxByte s.bri.ack, .stop], by simp⟩
      · exact ⟨rfl, rfl, rfl, rfl, rfl, rfl, rfl, rfl, receive_ack _ _, _, rfl⟩
  | stopTx => exact ⟨rfl, rfl, rfl, rfl, rfl, rfl, rfl, rfl, rfl, _, rfl⟩
  | stopRxDone => exact ⟨rfl, rfl, rfl, rfl, rfl, rfl, rfl, rfl, rfl, _, rfl⟩
  | stopHeld => exact ⟨rfl, rfl, rfl, rfl, rfl, rfl, rfl, rfl, rfl, _, rfl⟩
  | stopIdle => exact ⟨rfl, rfl, rfl, rfl, rfl, rfl, rfl, rfl, rfl, [], by simp [EngineStep.effect, engineStopIdle]⟩

/-- A byte an engine step receives is answered with the acknowledge enable's value (R206). -/
theorem effect_receive (s : State) (e : EngineStep) :
    ∃ evs, (e.effect s).wire = s.wire ++ evs ∧ ∀ v k, .receive v k ∈ evs → k = s.bri.ack := by
  cases e with
  | start => exact ⟨_, rfl, by split <;> simp⟩
  | addr => exact ⟨_, rfl, by simp⟩
  | txLoad => exact ⟨[], (List.append_nil _).symm, by simp⟩
  | txDone =>
    simp only [EngineStep.effect]
    split
    · exact ⟨_, rfl, by simp⟩
    · exact ⟨[], (List.append_nil _).symm, by simp⟩
  | rx =>
    simp only [EngineStep.effect, engineRx]
    split
    · exact ⟨_, rfl, by simp⟩
    · split
      · exact ⟨[.receive s.slave.rxByte s.bri.ack, .stop], by simp, by simp⟩
      · exact ⟨_, rfl, by simp⟩
  | stopTx => exact ⟨_, rfl, by simp⟩
  | stopRxDone => exact ⟨_, rfl, by simp⟩
  | stopHeld => exact ⟨_, rfl, by simp⟩
  | stopIdle => exact ⟨[], (List.append_nil _).symm, by simp⟩

/-- A guard does not look at the scheduler's inputs. -/
theorem enabled_turnTaken (s : State) (e : EngineStep) : e.enabled s.turnTaken = e.enabled s := by
  rw [enabled_eq, enabled_eq, turnTaken_params]
  congr 1
  cases e <;> simp [EngineStep.guard]

end Sys2Proof.Machine
end

