-- ==== Sys2Proof/Laws/Moves.lean ====
section
/-! SUPPORT. Everything a micro-op and a step can do, said once: later proofs about every step are case analyses of these. -/

namespace Sys2Proof.Machine

/-- What a micro-op `i` makes of the BRI when it raises no fault and aborts nothing (spec/20_memory.md R64 to R68). -/
inductive BriMove (i : Instr) (s : State) : Bri → Prop
  | same : BriMove i s s.bri
  | readSr1 : BriMove i s s.bri.afterSr1
  | readSr2 : BriMove i s s.bri.afterSr2
  | readDr : BriMove i s s.bri.afterDr
  | writeDr (v : Byte) (b : Bri) : s.bri.writeDr v = .ok b → BriMove i s b
  | requestStart (b : Bri) : s.bri.requestStart = .ok b → BriMove i s b
  | requestStop : BriMove i s s.bri.requestStop
  | ackOn : i = .ackOn → BriMove i s (s.bri.setAck true)
  | ackOff : i = .ackOff → BriMove i s (s.bri.setAck false)

/-- Where a micro-op that completes goes on (spec/45_control_flow.md R180 to R182, R185). -/
inductive GoesTo (i : Instr) (s : State) : MicroAddr → Prop
  | next : GoesTo i s (s.seq.upc + 1)
  | zero (t : MicroAddr) : i = .brRemZero t → s.seq.rem = some 0 → GoesTo i s t
  | one (t : MicroAddr) : i = .brRemOne t → s.seq.rem = some 1 → GoesTo i s t
  | jump (t : MicroAddr) : i = .jmp t → GoesTo i s t

/-- What a micro-op step is: a fault and nothing else; a completion; a wait's poll that did not complete; a wait's abort; the end
of the command. -/
inductive Move (i : Instr) (s : State) : State → Prop
  | fault (k : Fault) : k ≠ .cmdRefused → Move i s (s.raise k)
  | goes (b : Bri) (a : MicroAddr) : BriMove i s b → GoesTo i s a → Move i s ((s.setBri b).goto a)
  | result (b : Bri) : i = .rdRes → BriMove i s b → Move i s (((s.setBri b).setRes s.bri.dr).advance)
  | received (b : Bri) (c : Cursor) : i = .rdData → takeByteCount s = .ok c → BriMove i s b →
      Move i s (((s.setBri b).memWrite (bufAddr c.buf c.cur) s.bri.dr).moveCursor c.cur c.rem).advance
  | sent (b : Bri) (c : Cursor) : i = .wrData → takeByteCount s = .ok c → BriMove i s b →
      Move i s ((s.setBri b).moveCursor c.cur c.rem).advance
  | poll (b : Bri) : isWait i = true → BriMove i s b → (s.params.checked = true → s.seq.polls + 1 < s.params.pollBudget) →
      Move i s (s.setBri b).countPoll
  | abort (b : Bri) (code : BitVec 3) : isWait i = true → BriMove i s b → s.params.checked = true → code = 1 ∨ code = 2 →
      Move i s ((s.setBri b).abort code)
  | finish (code : BitVec 3) : i = .ret → code = 0 ∨ (code = 3 ∧ s.params.checked = true) → Move i s (s.finish code)

/-- A wait's step is a completion, a poll or an abort. -/
theorem waitStep_move {i : Instr} {s : State} {b : Bri} (hi : isWait i = true) (hb : BriMove i s b)
    (met nak : Bool) :
    Move i s ((s.setBri b).waitStep met nak) := by
  rcases waitStep_cases met nak (s.setBri b) with
    ⟨-, h⟩ | ⟨-, hc, -, h⟩ | ⟨-, hc, -, -, h⟩ | ⟨-, hc, -, hlt, h⟩ | ⟨-, hc, h⟩ <;> rw [h]
  · exact .goes b _ hb .next
  · exact .abort b 2 hi hb hc (.inr rfl)
  · exact .abort b 1 hi hb hc (.inl rfl)
  · have := Move.poll b hi hb fun _ => hlt
    rw [State.countPoll, if_pos hc] at this
    exact this
  · have := Move.poll b hi hb fun h => absurd (h.symm.trans hc) (by decide)
    rw [State.countPoll, if_neg (by rw [hc]; decide)] at this
    exact this

theorem sendByte_move {i : Instr} {s t : State} {x : Option Byte} {form : Byte → Byte}
    (h : settle s (sendByte x form s) = .next t) : Move i s t := by
  rcases settle_cases s (sendByte x form s) with ⟨u, hu, e⟩ | ⟨k, hk, e⟩ <;> rw [e] at h <;> cases h
  · obtain ⟨v, b, -, hb, rfl⟩ := sendByte_ok hu
    exact .goes b _ (.writeDr _ _ hb) .next
  · refine .fault k ?_
    rcases sendByte_error hk with ⟨rfl, -⟩ | rfl <;> decide

theorem takeByteCount_notRefused {s : State} {k : Fault} (h : takeByteCount s = .error k) : k ≠ .cmdRefused := by
  rcases takeByteCount_error h with ⟨rfl, -⟩ | ⟨rfl, -⟩ <;> decide

/-- A micro-op's step is one of the moves. -/
theorem exec_move {i : Instr} {s t : State} (hi : i.space = .store) (h : exec i s = .next t) : Move i s t := by
  cases i with
  | byteRead sa ra => cases hi
  | burstRead sa ra => cases hi
  | burstWrite sa ra => cases hi
  | waitIdle => cases h; exact waitStep_move rfl .readSr2 _ _
  | waitSb => cases h; exact waitStep_move rfl .readSr1 _ _
  | waitAddr => cases h; exact waitStep_move rfl .readSr1 _ _
  | waitTxe => cases h; exact waitStep_move rfl .readSr1 _ _
  | waitBtf => cases h; exact waitStep_move rfl .readSr1 _ _
  | waitRxne => cases h; exact waitStep_move rfl .readSr1 _ _
  | clrAddr => cases h; exact .goes _ _ .readSr2 .next
  | rdRes => cases h; exact .result _ rfl .readDr
  | ackOn => cases h; exact .goes _ _ (.ackOn rfl) .next
  | ackOff => cases h; exact .goes _ _ (.ackOff rfl) .next
  | genStop => cases h; exact .goes _ _ .requestStop .next
  | optStop =>
    cases h
    split
    · exact .goes _ _ .requestStop .next
    · exact .goes s.bri _ .same .next
  | jmp a => cases h; exact .goes s.bri _ .same (.jump a rfl)
  | genStart =>
    simp only [exec, execGenStart] at h
    cases hb : s.bri.requestStart with
    | ok b => simp only [hb, settle_ok, Host.Outcome.next.injEq] at h; subst h; exact .goes b _ (.requestStart b hb) .next
    | error k =>
      simp only [hb, settle_error, Host.Outcome.next.injEq] at h
      subst h
      exact .fault k (by rw [requestStart_error hb]; decide)
  | wrAddrW => exact sendByte_move h
  | wrAddrROr => exact sendByte_move h
  | wrAddrRInc => exact sendByte_move h
  | wrReg => exact sendByte_move h
  | rdData =>
    simp only [exec, execRdData] at h
    cases hc : takeByteCount s with
    | ok c => simp only [hc, settle_ok, Host.Outcome.next.injEq] at h; subst h; exact .received _ c rfl hc .readDr
    | error k =>
      simp only [hc, settle_error, Host.Outcome.next.injEq] at h
      subst h
      exact .fault k (takeByteCount_notRefused hc)
  | wrData =>
    simp only [exec, execWrData] at h
    cases hc : takeByteCount s with
    | error k =>
      simp only [hc, settle_error, Host.Outcome.next.injEq] at h
      subst h
      exact .fault k (takeByteCount_notRefused hc)
    | ok c =>
      simp only [hc] at h
      cases hw : s.bri.writeDr (s.mem.read (bufAddr c.buf c.cur)) with
      | error k =>
        simp only [hw, settle_error, Host.Outcome.next.injEq] at h
        subst h
        exact .fault k (by rw [writeDr_error hw]; decide)
      | ok b => simp only [hw, settle_ok, Host.Outcome.next.injEq] at h; subst h; exact .sent b c rfl hc (.writeDr _ _ hw)
  | brRemZero a =>
    simp only [exec, execBrRemZero] at h
    cases hr : s.seq.rem with
    | none =>
      simp only [branchOnRem_none _ _ _ hr, settle_error, Host.Outcome.next.injEq] at h
      subst h
      exact .fault _ (by decide)
    | some r =>
      simp only [branchOnRem_of _ _ _ _ hr, settle_ok, Host.Outcome.next.injEq] at h
      subst h
      split
      · next hz => exact .goes s.bri a .same (.zero a rfl (by rw [hr, hz]))
      · exact .goes s.bri _ .same .next
  | brRemOne a =>
    simp only [exec, execBrRemOne] at h
    cases hr : s.seq.rem with
    | none =>
      simp only [branchOnRem_none _ _ _ hr, settle_error, Host.Outcome.next.injEq] at h
      subst h
      exact .fault _ (by decide)
    | some r =>
      simp only [branchOnRem_of _ _ _ _ hr, settle_ok, Host.Outcome.next.injEq] at h
      subst h
      split
      · next hz => exact .goes s.bri a .same (.one a rfl (by rw [hr, hz]))
      · exact .goes s.bri _ .same .next
  | ret =>
    simp only [exec, execRet] at h
    split at h
    · next hc =>
      cases ho : s.seq.op with
      | none =>
        simp only [ho, latch_none, settle_error, Host.Outcome.next.injEq] at h
        subst h
        exact .fault _ (by decide)
      | some op =>
        simp only [ho, latch_some, settle_ok, Host.Outcome.next.injEq] at h
        subst h
        refine .finish _ rfl ?_
        split
        · exact .inr ⟨rfl, hc⟩
        · exact .inl rfl
    · simp only [settle_ok, Host.Outcome.next.injEq] at h
      subst h
      exact .finish _ rfl (.inl rfl)

/-- What is fetched is a micro-op. -/
theorem fetch_store {s : State} {i : Instr} (h : fetch s = .ok i) : i.space = .store := decodeMicroOp_store h

theorem fetch_turnTaken (s : State) : fetch s.turnTaken = fetch s := by simp [fetch]

/-- What a sequencer's turn does to `s`, where `u` is `s` with the turn taken. -/
inductive SequencerMove (s u : State) : State → Prop
  | idle : s.seq.run = .ready → SequencerMove s u u
  | illegal (e : DecodeError) : s.seq.run = .busy → fetch s = .error e → SequencerMove s u (u.raise .illegalMicroop)
  | runs (i : Instr) (t : State) : s.seq.run = .busy → fetch s = .ok i → exec i u = .next t → Move i u t →
      SequencerMove s u t

/-- What an engine's turn does. -/
inductive EngineMove (s u : State) : State → Prop
  | idle : EngineMove s u u
  | steps (e : EngineStep) : e.enabled s = true → EngineMove s u (e.effect u)

/-- What a caller's turn does: nothing, a command refused or accepted, or a byte of the caller's memory written. A command is
handed over to a READY block, or (`overlap`) to a block in any state. -/
inductive CallerMove (s u : State) : State → Prop
  | idle : CallerMove s u u
  | refused (r : Request) (rest : List CallerAct) : CallerMove s u (u.present r rest).refuse
  | accepted (r : Request) (rest : List CallerAct) (op : BitVec 2) (sa ra : Byte) :
      CallerMove s u ((u.present r rest).accept op sa ra)
  | filled (a : Addr) (b : Byte) (rest : List CallerAct) : s.caller = .fill a b :: rest → s.seq.run = .ready →
      CallerMove s u { u.memWrite a.toNat b with caller := rest }

theorem issueTurn_move {s u t : State} {r : Request} {rest : List CallerAct}
    (h : issueTurn r (u.present r rest) = .next t) : CallerMove s u t := by
  rcases issueTurn_cases r (u.present r rest) with ⟨-, e⟩ | ⟨i, hd, e⟩ <;> rw [e] at h
  · cases h; exact .refused r rest
  · rcases decodeCommand_ok hd with rfl | rfl | rfl <;> cases h <;> exact .accepted r rest _ _ _

/-- A step that answers a next state began without a fault record and was the move of the agent the scheduler picked. -/
theorem step_moves {s t : State} (h : step s = .next t) :
    s.fault = none ∧
      ((pickAgent s = .sequencer ∧ SequencerMove s s.turnTaken t) ∨ (pickAgent s = .engine ∧ EngineMove s s.turnTaken t) ∨
        (pickAgent s = .caller ∧ CallerMove s s.turnTaken t)) := by
  obtain ⟨hf, ⟨hp, h⟩ | ⟨hp, h⟩ | ⟨hp, h⟩⟩ := step_cases h
  · refine ⟨hf, .inl ⟨hp, ?_⟩⟩
    rcases sequencerTurn_cases s.turnTaken with ⟨hr, e⟩ | ⟨hr, ⟨d, hd⟩, e⟩ | ⟨hr, i, hi, e⟩ <;> rw [e] at h <;>
      rw [turnTaken_seq] at hr
    · cases h; exact .idle hr
    · cases h; exact .illegal d hr (by rw [← fetch_turnTaken]; exact hd)
    · rw [fetch_turnTaken] at hi
      exact .runs i t hr hi h (exec_move (fetch_store hi) h)
  · refine ⟨hf, .inr (.inl ⟨hp, ?_⟩)⟩
    rcases engineTurn_cases s.turnTaken with ⟨e, -, he, ht⟩ | ⟨-, ht⟩ <;> rw [h, ht]
    · exact .steps e (by rw [← enabled_turnTaken]; exact he)
    · exact .idle
  · refine ⟨hf, .inr (.inr ⟨hp, ?_⟩)⟩
    rcases callerTurn_cases s.turnTaken with e | ⟨r, rest, -, e⟩ | ⟨r, rest, -, -, e⟩ | ⟨a, b, rest, hc, hr, e⟩ <;> rw [e] at h
    · cases h; exact .idle
    · exact issueTurn_move h
    · exact issueTurn_move h
    · cases h; exact .filled a b rest (by simpa using hc) (by simpa using hr)

end Sys2Proof.Machine
end

