-- ==== Sys2Proof/Laws/PerInstr.lean ====
section
/-! SUPPORT. The statements made once for each instruction: its word has the format of the space the instruction stands in
(spec/30_encoding.md R81, R84). -/

namespace Sys2Proof.Laws.EncodeSpace

/-- The word of an instruction has the format of the instruction's space. -/
def Statement (i : Instr) : Prop := (encode i).space = i.space

theorem byteRead (sa ra : Byte) : Statement (.byteRead sa ra) := rfl
theorem burstRead (sa ra : Byte) : Statement (.burstRead sa ra) := rfl
theorem burstWrite (sa ra : Byte) : Statement (.burstWrite sa ra) := rfl
theorem waitIdle : Statement .waitIdle := rfl
theorem genStart : Statement .genStart := rfl
theorem waitSb : Statement .waitSb := rfl
theorem wrAddrW : Statement .wrAddrW := rfl
theorem wrAddrROr : Statement .wrAddrROr := rfl
theorem wrAddrRInc : Statement .wrAddrRInc := rfl
theorem waitAddr : Statement .waitAddr := rfl
theorem clrAddr : Statement .clrAddr := rfl
theorem wrReg : Statement .wrReg := rfl
theorem waitTxe : Statement .waitTxe := rfl
theorem waitBtf : Statement .waitBtf := rfl
theorem waitRxne : Statement .waitRxne := rfl
theorem rdData : Statement .rdData := rfl
theorem rdRes : Statement .rdRes := rfl
theorem wrData : Statement .wrData := rfl
theorem ackOn : Statement .ackOn := rfl
theorem ackOff : Statement .ackOff := rfl
theorem genStop : Statement .genStop := rfl
theorem optStop : Statement .optStop := rfl
theorem brRemZero (t : MicroAddr) : Statement (.brRemZero t) := rfl
theorem brRemOne (t : MicroAddr) : Statement (.brRemOne t) := rfl
theorem jmp (t : MicroAddr) : Statement (.jmp t) := rfl
theorem ret : Statement .ret := rfl

end Sys2Proof.Laws.EncodeSpace
end

