-- ==== Sys2Proof/Laws/Run.lean ====
section
/-! SUPPORT. Running the fixed control store under SEQ_PRIORITY: the listing of the three programs, and what a step is when the
instruction at `SEQ.upc` is known. -/

namespace Sys2Proof.Machine

/-- BYTE_READ's listing (spec/30_encoding.md R91). -/
def byteReadListing : List (MicroAddr × Instr) :=
  [(0x00, .waitIdle), (0x01, .genStart), (0x02, .waitSb), (0x03, .wrAddrW), (0x04, .waitAddr), (0x05, .clrAddr),
   (0x06, .wrReg), (0x07, .waitTxe), (0x08, .genStart), (0x09, .waitSb), (0x0A, .wrAddrROr), (0x0B, .waitAddr),
   (0x0C, .ackOff), (0x0D, .clrAddr), (0x0E, .genStop), (0x0F, .waitRxne), (0x10, .rdRes), (0x11, .ret)]

/-- BURST_READ's listing (R91). -/
def burstReadListing : List (MicroAddr × Instr) :=
  [(0x20, .genStart), (0x21, .waitSb), (0x22, .wrAddrW), (0x23, .waitAddr), (0x24, .clrAddr), (0x25, .wrReg),
   (0x26, .waitTxe), (0x27, .genStart), (0x28, .waitSb), (0x29, .wrAddrRInc), (0x2A, .waitAddr), (0x2B, .ackOn),
   (0x2C, .clrAddr), (0x2D, .brRemZero 0x36), (0x2E, .brRemOne 0x32), (0x2F, .waitRxne), (0x30, .rdData),
   (0x31, .jmp 0x2D), (0x32, .ackOff), (0x33, .genStop), (0x34, .waitRxne), (0x35, .rdData), (0x36, .ret)]

/-- BURST_WRITE's listing (R91). -/
def burstWriteListing : List (MicroAddr × Instr) :=
  [(0x40, .genStart), (0x41, .waitSb), (0x42, .wrAddrW), (0x43, .waitAddr), (0x44, .clrAddr), (0x45, .waitTxe),
   (0x46, .wrReg), (0x47, .waitBtf), (0x48, .brRemZero 0x4D), (0x49, .waitTxe), (0x4A, .wrData), (0x4B, .waitBtf),
   (0x4C, .jmp 0x48), (0x4D, .optStop), (0x4E, .ret)]

/-- The three programs, address by address. -/
def imageListing : List (MicroAddr × Instr) := byteReadListing ++ burstReadListing ++ burstWriteListing

/-- The image's words decode to the listing. -/
theorem image_decodes : ∀ p ∈ imageListing, decodeMicroOp (storeWord storeImage p.1) = .ok p.2 := by
  decide +kernel

/-- What is fetched from the fixed control store at a listed address. -/
theorem fetch_listed {s : State} {a : MicroAddr} {i : Instr} (hs : s.store = storeImage) (ha : s.seq.upc = a)
    (h : (a, i) ∈ imageListing) : fetch s = .ok i := by
  rw [fetch, hs, ha]
  exact image_decodes (a, i) h

/-- Under SEQ_PRIORITY a turn changes no scheduling input. -/
theorem turnTaken_priority {s : State} (h : s.params.sched = .seqPriority) : s.turnTaken = s := by
  simp [State.turnTaken, h]

/-- Under SEQ_PRIORITY a BUSY block whose micro-op is not a blocked wait executes it. -/
theorem step_runs_microOp {s : State} {i : Instr} (hf : s.fault = none) (hp : s.params.sched = .seqPriority)
    (hr : s.seq.run = .busy) (hi : fetch s = .ok i) (hb : waitBlocked s i = false) : step s = exec i s := by
  rw [step_of_noFault hf, turnTaken_priority hp]
  simp [pickAgent, hp, priorityAgent, hr, atBlockedWait, hi, hb, agentTurn, sequencerTurn]

/-- Under SEQ_PRIORITY a BUSY block at a blocked wait lets the enabled engine step go first. -/
theorem step_runs_engine {s : State} {i : Instr} {e : EngineStep} (hf : s.fault = none)
    (hp : s.params.sched = .seqPriority) (hr : s.seq.run = .busy) (hi : fetch s = .ok i) (hb : waitBlocked s i = true)
    (he : engineNext s = some e) : step s = .next (e.effect s) := by
  rw [step_of_noFault hf, turnTaken_priority hp]
  simp [pickAgent, hp, priorityAgent, hr, atBlockedWait, hi, hb, engineCan, he, agentTurn, engineTurn]

/-- Two runs, one after the other. -/
theorem run_add (j : Nat) : ∀ (k : Nat) (s t : State), Sys2Proof.core.run k s = .next t →
    Sys2Proof.core.run (k + j) s = Sys2Proof.core.run j t
  | 0, s, t, h => by cases h; rw [Nat.zero_add]
  | k + 1, s, t, h => by
    obtain ⟨u, hu, h⟩ := run_succ_cases k h
    rw [Nat.add_right_comm, run_succ_next _ hu]
    exact run_add j k u t h

/-- Every address of the programs is in the listing. -/
theorem listed_of_inProgram : ∀ a : MicroAddr, inProgram a = true → ∃ p ∈ imageListing, p.1 = a := by decide +kernel

/-- What a BUSY machine that runs the fixed control store fetches: the instruction listed at its address. -/
theorem fetch_inProgram {s : State} (hs : s.store = storeImage) (h : inProgram s.seq.upc = true) :
    ∃ i, (s.seq.upc, i) ∈ imageListing ∧ fetch s = .ok i := by
  obtain ⟨⟨a, i⟩, hm, rfl⟩ := listed_of_inProgram _ h
  exact ⟨i, hm, fetch_listed hs rfl hm⟩

end Sys2Proof.Machine
end

