-- ==== Sys2Proof/Laws/Runs.lean ====
section
/-! SUPPORT. What a point of a run is (spec/46_bus_engine.md R230 to R232): each is one agent's turn, and under SEQ_PRIORITY the
run is the host's. -/

namespace Sys2Proof.Machine

@[simp] theorem runBy_zero (who : Nat → Agent) (s : State) : runBy who s 0 = s := rfl

@[simp] theorem runBy_succ (who : Nat → Agent) (s : State) (k : Nat) :
    runBy who s (k + 1) = stepBy (who k) (runBy who s k) := rfl

/-- Under SEQ_PRIORITY the choice offered is not read. -/
theorem offering_priority (a : Agent) {s : State} (h : s.params.sched = .seqPriority) : s.offering a = s := by
  simp [State.offering, h]

/-- Under FREE the agent offered takes its turn in `s`: the offer is used up. -/
theorem step_offering_free (a : Agent) {s : State} (h : s.params.sched = .free) (hf : s.fault = none) :
    step (s.offering a) = agentTurn a s := by
  simp only [State.offering, h, step, hf, pickAgent, State.turnTaken, Turns.after]
  rw [← hf]

/-- The agent that moves when `a` is offered. -/
def mover (s : State) (a : Agent) : Agent :=
  match s.params.sched with
  | .free => a
  | .seqPriority => priorityAgent s

/-- A point of a run without a fault record is the turn of the agent that moves. -/
theorem stepBy_turn (a : Agent) {s : State} (hf : s.fault = none) : agentTurn (mover s a) s = .next (stepBy a s) := by
  obtain ⟨t, ht⟩ := agentTurn_next (mover s a) s
  cases h : s.params.sched with
  | free =>
    simp only [mover, h] at ht ⊢
    simp [stepBy, step_offering_free a h hf, ht]
  | seqPriority =>
    simp only [mover, h] at ht ⊢
    have : step s = .next t := by rw [step_of_noFault hf, turnTaken_priority h, pickAgent, h]; exact ht
    simp [stepBy, offering_priority a h, this, ht]

/-- An agent that may move is the one that does. -/
theorem mover_of_mayMove {s : State} {a : Agent} (h : mayMove s a = true) : mover s a = a := by
  unfold mayMove at h
  unfold mover
  cases hp : s.params.sched with
  | free => rfl
  | seqPriority => simpa [hp] using (of_decide_eq_true (by simpa [hp] using h) : a = priorityAgent s).symm

/-- Once a fault is recorded nothing moves (R244). -/
theorem stepBy_fault (a : Agent) {s : State} (h : s.fault ≠ none) : stepBy a s = s := by
  obtain ⟨r, hr⟩ := Option.ne_none_iff_exists'.1 h
  have : (s.offering a).fault = some r := by unfold State.offering; split <;> exact hr
  simp [stepBy, step, this]

/-- No agent's turn changes the launch parameters or the control store (spec/10_state.md R41, spec/20_memory.md R63). -/
theorem agentTurn_fixed {a : Agent} {s t : State} (h : agentTurn a s = .next t) :
    t.params = s.params ∧ t.store = s.store := by
  cases a with
  | engine =>
    cases h
    rcases engineTurn_cases s with ⟨e, -, -, h⟩ | ⟨-, h⟩ <;> rw [h]
    · exact ⟨(effect_frame s e).params, (effect_frame s e).store⟩
    · exact ⟨rfl, rfl⟩
  | sequencer =>
    replace h : sequencerTurn s = .next t := h
    rcases sequencerTurn_cases s with ⟨-, e⟩ | ⟨-, -, e⟩ | ⟨-, i, -, e⟩ <;> rw [e] at h
    · cases h; exact ⟨rfl, rfl⟩
    · cases h; exact ⟨rfl, rfl⟩
    · exact ⟨(exec_frame h).params, (exec_frame h).store⟩
  | caller =>
    replace h : callerTurn s = .next t := h
    have issued : ∀ r rest, issueTurn r (s.present r rest) = .next t → t.params = s.params ∧ t.store = s.store := by
      intro r rest h
      rcases issueTurn_cases r (s.present r rest) with ⟨-, e⟩ | ⟨i, -, e⟩ <;> rw [e] at h
      · cases h; exact ⟨rfl, rfl⟩
      · exact ⟨(exec_frame h).params, (exec_frame h).store⟩
    rcases callerTurn_cases s with e | ⟨r, rest, -, e⟩ | ⟨r, rest, -, -, e⟩ | ⟨a, b, rest, -, -, e⟩ <;> rw [e] at h
    · cases h; exact ⟨rfl, rfl⟩
    · exact issued r rest h
    · exact issued r rest h
    · cases h; exact ⟨rfl, rfl⟩

/-- No point of a run changes the launch parameters or the control store. -/
theorem stepBy_fixed (a : Agent) (s : State) : (stepBy a s).params = s.params ∧ (stepBy a s).store = s.store := by
  by_cases hf : s.fault = none
  · exact agentTurn_fixed (stepBy_turn a hf)
  · rw [stepBy_fault a hf]; exact ⟨rfl, rfl⟩

theorem runBy_fixed (who : Nat → Agent) (s : State) :
    ∀ k, (runBy who s k).params = s.params ∧ (runBy who s k).store = s.store
  | 0 => ⟨rfl, rfl⟩
  | k + 1 => by
    obtain ⟨hp, hs⟩ := stepBy_fixed (who k) (runBy who s k)
    obtain ⟨hp', hs'⟩ := runBy_fixed who s k
    exact ⟨hp.trans hp', hs.trans hs'⟩

/-- Under SEQ_PRIORITY a point of a run is a step, whatever is offered. -/
theorem step_of_stepBy (a : Agent) {s : State} (h : s.params.sched = .seqPriority) (hf : s.fault = none) :
    step s = .next (stepBy a s) := by
  have := stepBy_turn a hf
  simp only [mover, h] at this
  rw [step_of_noFault hf, turnTaken_priority h, pickAgent, h]
  exact this

/-- Under SEQ_PRIORITY the run is the host's, whatever is offered, as far as no fault is recorded. -/
theorem run_of_runBy (who : Nat → Agent) {s : State} (h : s.params.sched = .seqPriority) :
    ∀ k, (∀ j < k, (runBy who s j).fault = none) → Sys2Proof.core.run k s = .next (runBy who s k)
  | 0, _ => rfl
  | k + 1, hf => by
    have hk := run_of_runBy who h k fun j hj => hf j (by omega)
    have hs := step_of_stepBy (who k) (s := runBy who s k) (by rw [(runBy_fixed who s k).1, h]) (hf k (by omega))
    rw [run_add 1 k s _ hk, run_succ_next 0 hs]
    rfl

/-- A wait is one poll: its read, its condition, and in checked mode the acknowledge failure that WAIT_ADDR sees
(spec/43_flag_waits.md R140). -/
theorem exec_wait {i : Instr} (h : isWait i = true) (s : State) :
    exec i s = .next ((s.setBri (afterWaitRead i s.bri)).waitStep (!waitBlocked s i)
      (if i = .waitAddr then s.bri.af else false)) := by
  cases i <;> first
    | (cases h; done)
    | simp [exec, execWaitIdle, execWaitSb, execWaitAddr, execWaitTxe, execWaitBtf, execWaitRxne, waitBlocked, afterWaitRead,
        State.readSr1, State.readSr2, State.sr1]

end Sys2Proof.Machine
end

