-- ==== Sys2Proof/Tests/Slice0.lean ====
section
/-! SUPPORT. Tests: expected values from the spec's own tables (spec/95_test_vectors.md, cited as T<family>.<n>, and
spec/30_encoding.md R86, R91), each about one step; and a witness for the hypotheses of every statement that has some. -/

namespace Sys2Proof.Tests

open Sys2Proof.Machine

/-! ### Small states -/

/-- A field of the next state. -/
def field {α : Type} (o : Host.Outcome State Fault Refusal) (f : State → α) : Option α :=
  match o with
  | .next t => some (f t)
  | .fault _ => none
  | .refused _ => none

/-- A field found in the next state stands in one. -/
theorem field_some {α : Type} {o : Host.Outcome State Fault Refusal} {f : State → α} {v : α} (h : field o f = some v) :
    ∃ t, o = .next t ∧ f t = v := by
  cases o with
  | next t => exact ⟨t, rfl, by injection h⟩
  | fault r => cases h
  | refused r => cases h

/-- The start state S0 in the course of a command `op` with `sa = 0xD0`, `ra = 0x75`, `buf = 0x1000`, at `upc`. -/
def mid (upc : MicroAddr) (b : Bri) (op : BitVec 2 := 0) (rem cur : Count := 1) : State :=
  { State.reset with
    bri := b
    seq :=
      { State.reset.seq with
        run := .busy, op := some op, sa := some 0xD0, ra := some 0x75, rem := some rem, cur := some cur
        buf := some 0x1000, upc := upc } }

/-- The BRI of S0 in a phase. -/
def inPhase (p : Phase) : Bri := { State.reset.bri with ph := p }

/-- A state of a launch with `P_SCHED = FREE`. -/
def freely (s : State) : State := { s with params := { s.params with sched := .free } }

/-- A slave that acknowledges and sends `v` next. -/
def answering (s : State) (v : Byte) : State :=
  { s with slave := { addrAcks := [true, true], dataAcks := [true, true], rxBytes := [v], draws := 0 } }

/-- S0 with a command handed over. -/
def issuing (c : CommandWord) (n len : Nat) : State :=
  { State.reset with caller := [.issue { word := c, port := { n := n, buf := 0x1000, len := len } }] }

/-- What a step leaves that most tests look at. -/
def view (t : State) : MicroAddr × Bri := (t.seq.upc, t.bri)

/-! ### Decoding (R86, R91; T30.1 to T30.20) -/

theorem test_decode_commands :
    decode (.command 0x0075D000) = .ok (.byteRead 0xD0 0x75) ∧ decode (.command 0x003BD001) = .ok (.burstRead 0xD0 0x3B) ∧
      decode (.command 0x006BD002) = .ok (.burstWrite 0xD0 0x6B) ∧
      decode (.command 0x00FFFE01) = .ok (.burstRead 0xFE 0xFF) := by decide

theorem test_decode_commands_reserved :
    decode (.command 0x0000D003) = .error .reservedOp ∧ decode (.command 0x0075D004) = .error .reservedLow ∧
      decode (.command 0x0175D000) = .error .reservedHigh := by decide

theorem test_decode_waits :
    decode (.microOp 0x0800) = .ok .waitIdle ∧ decode (.microOp 0x1800) = .ok .waitSb ∧
      decode (.microOp 0x3800) = .ok .waitAddr ∧ decode (.microOp 0x5000) = .ok .waitTxe ∧
      decode (.microOp 0x5800) = .ok .waitBtf ∧ decode (.microOp 0x6000) = .ok .waitRxne ∧
      decode (.microOp 0x4000) = .ok .clrAddr := by decide

theorem test_decode_bus_control :
    decode (.microOp 0x1000) = .ok .genStart ∧ decode (.microOp 0x9000) = .ok .genStop ∧
      decode (.microOp 0x9800) = .ok .optStop ∧ decode (.microOp 0x8000) = .ok .ackOn ∧
      decode (.microOp 0x8800) = .ok .ackOff := by decide

theorem test_decode_transfers :
    decode (.microOp 0x2000) = .ok .wrAddrW ∧ decode (.microOp 0x2800) = .ok .wrAddrROr ∧
      decode (.microOp 0x3000) = .ok .wrAddrRInc ∧ decode (.microOp 0x4800) = .ok .wrReg ∧
      decode (.microOp 0x6800) = .ok .rdData ∧ decode (.microOp 0x7000) = .ok .rdRes ∧
      decode (.microOp 0x7800) = .ok .wrData := by decide

theorem test_decode_control_flow :
    decode (.microOp 0xA036) = .ok (.brRemZero 0x36) ∧ decode (.microOp 0xA832) = .ok (.brRemOne 0x32) ∧
      decode (.microOp 0xB02D) = .ok (.jmp 0x2D) ∧ decode (.microOp 0xB800) = .ok .ret ∧
      decode (.microOp 0xA0FF) = .ok (.brRemZero 0xFF) := by decide

theorem test_decode_illegal :
    decode (.microOp 0x0000) = .error .illegalOpc ∧ decode (.microOp 0xC000) = .error .illegalOpc ∧
      decode (.microOp 0xF800) = .error .illegalOpc ∧ decode (.microOp 0x0900) = .error .illegalZ ∧
      decode (.microOp 0x0801) = .error .illegalImm ∧ decode (.microOp 0xBC00) = .error .illegalZ := by decide

theorem test_encode :
    encode (.byteRead 0xD0 0x75) = .command 0x0075D000 ∧ encode (.brRemOne 0x32) = .microOp 0xA832 ∧
      encode .ret = .microOp 0xB800 := by decide

theorem test_decodeTableWord :
    decodeTableWord 32 0x006BD002 = some (.burstWrite 0xD0 0x6B) ∧ decodeTableWord 16 0xB02D = some (.jmp 0x2D) ∧
      decodeTableWord 16 0x0801 = none ∧ decodeTableWord 8 0 = none := by decide

/-! ### Well-formedness: an ill-formed term for each check -/

theorem test_wf_command_not_in_store : WellFormed .store (.byteRead 0 0) = false ∧ WellFormed .port (.byteRead 0 0) = true := by
  decide

theorem test_wf_microOp_not_at_port : WellFormed .port .ret = false ∧ WellFormed .store .ret = true := by decide

theorem test_wf_pollBudget : { Params.s0 with pollBudget := 0 }.wellFormed = false ∧ Params.s0.wellFormed = true := by decide

/-! ### Commands (T30.1 to T30.9, T60.7, T60.8) -/

theorem test_byteRead :
    field (exec (.byteRead 0xD0 0x75) State.reset) (fun t => (t.seq.op, t.seq.sa, t.seq.ra, t.seq.rem)) =
      some (some 0, some 0xD0, some 0x75, some 1) := by decide

theorem test_burstRead :
    field (step (issuing 0x003BD001 6 6)) (fun t => (t.seq.rem, t.seq.cur, t.seq.buf, t.seq.upc)) =
      some (some 6, some 0, some 0x1000, 0x20) := by decide

theorem test_burstWrite :
    field (step (issuing 0x006BD002 3 3)) (fun t => (t.seq.sa, t.seq.ra, t.seq.rem, t.seq.upc)) =
      some (some 0xD0, some 0x6B, some 3, 0x40) := by decide

theorem test_byteRead_normalize :
    field (exec (.byteRead 0xD1 0x75) { State.reset with params := { Params.s0 with addrLsb := .normalize } })
      (fun t => (t.seq.sa, t.seq.upc)) = some (some 0xD0, 0x00) := by decide

theorem test_burstRead_reject :
    field (exec (.burstRead 0xD1 0x3B) { State.reset with params := { Params.s0 with addrLsb := .reject } })
      (fun t => (t.seq.status, t.seq.run, t.seq.sa)) = some (4, .ready, some 0xD1) := by decide

theorem test_burstWrite_refused :
    field (step (issuing 0x006BD002 3 2)) State.fault = some (some { kind := .cmdRefused, upc := none }) := by decide

/-! ### Bus control (T42.1, T42.4, T42.9 to T42.12) -/

theorem test_genStart :
    field (step (mid 0x01 State.reset.bri)) view = some (0x02, { State.reset.bri with start := true }) := by decide

theorem test_genStart_in_rx :
    field (step (mid 0x20 (inPhase .rx))) (fun t => (t.bri.start, t.seq.upc, t.fault)) =
      some (false, 0x20, some { kind := .briUnspec, upc := some 0x20 }) := by decide

theorem test_genStop :
    field (step (mid 0x0E (inPhase .rx))) view = some (0x0F, { inPhase .rx with stop := true }) := by decide

theorem test_optStop_without_emit : field (step (mid 0x4D (inPhase .tx))) view = some (0x4E, inPhase .tx) := by decide

theorem test_optStop_with_emit :
    field (exec .optStop { mid 0x4D (inPhase .tx) with params := { Params.s0 with emitStopOnWrite := true } }) view =
      some (0x4E, { inPhase .tx with stop := true }) := by decide

theorem test_ackOn :
    field (step (mid 0x2B { inPhase (.addrAcked true) with ack := false })) (fun t => (t.bri.ack, t.seq.upc)) =
      some (true, 0x2C) := by decide

theorem test_ackOff :
    field (step (mid 0x0C { inPhase (.addrAcked true) with addr := true, addrSeen := true }))
      (fun t => (t.bri.ack, t.bri.addr, t.bri.addrSeen, t.seq.upc)) = some (false, true, true, 0x0D) := by decide

/-! ### Waits and the address clear (T43.1 to T43.17) -/

theorem test_waitIdle : field (step (mid 0x00 State.reset.bri)) (fun t => t.seq.upc) = some 0x01 := by decide

theorem test_waitIdle_aborts :
    field (exec .waitIdle { mid 0x00 (inPhase .tx) with params := { Params.s0 with checked := true } })
      (fun t => (t.seq.status, t.seq.run, t.bri.stop)) = some (1, .ready, true) := by decide

theorem test_waitSb :
    field (step (mid 0x02 { inPhase .started with sb := true })) (fun t => (t.seq.upc, t.bri.sb)) = some (0x03, true) := by
  decide

theorem test_waitAddr :
    field (step (mid 0x04 { inPhase (.addrAcked false) with addr := true })) (fun t => (t.seq.upc, t.bri.addrSeen)) =
      some (0x05, true) := by decide

theorem test_waitAddr_noAck :
    field (exec .waitAddr
        { mid 0x04 { inPhase .addrNacked with af := true } with
          params := { Params.s0 with checked := true, pollBudget := 5 } })
      (fun t => (t.seq.status, t.bri.stop, t.bri.af, t.seq.run)) = some (2, true, false, .ready) := by decide

theorem test_waitTxe :
    field (step (mid 0x07 { inPhase .tx with txe := true })) (fun t => t.seq.upc) = some 0x08 := by decide

theorem test_waitBtf :
    field (step (mid 0x4B { inPhase .tx with txe := true, btf := true })) (fun t => t.seq.upc) = some 0x4C := by decide

theorem test_waitBtf_polls :
    field (exec .waitBtf
        { mid 0x4B { inPhase .txNacked with af := true } with
          params := { Params.s0 with checked := true, pollBudget := 4 } })
      (fun t => (t.seq.polls, t.seq.upc)) = some (1, 0x4B) := by decide

theorem test_waitRxne :
    field (step (mid 0x0F { inPhase .rx with rxne := true })) (fun t => (t.seq.upc, t.bri.rxne)) = some (0x10, true) := by
  decide

theorem test_clrAddr_transmit :
    field (step (mid 0x05 { inPhase (.addrAcked false) with addr := true, addrSeen := true })) view =
      some (0x06, { inPhase .tx with txe := true }) := by decide

theorem test_clrAddr_receive :
    field (step (mid 0x0D { inPhase (.addrAcked true) with addr := true, addrSeen := true })) view =
      some (0x0E, inPhase .rx) := by decide

/-! ### Transfers (T44.1 to T44.15) -/

theorem test_wrAddrW :
    field (step (mid 0x03 { inPhase .started with sb := true })) view =
      some (0x04, { inPhase .addrQueued with dr := 0xD0 }) := by decide

theorem test_wrAddrW_as_data :
    field (exec .wrAddrW (mid 0x03 { inPhase .tx with txe := true })) view = some (0x04, { inPhase .tx with dr := 0xD0 }) := by
  decide

theorem test_wrAddrROr :
    field (step (mid 0x0A { inPhase .started with sb := true })) (fun t => t.bri.dr) = some 0xD1 ∧
      addrByteROr 0xD1 = 0xD1 ∧ addrByteROr 0xFF = 0xFF ∧ addrByteROr 0x00 = 0x01 := by decide

theorem test_wrAddrRInc :
    field (step (mid 0x29 { inPhase .started with sb := true })) (fun t => t.bri.dr) = some 0xD1 ∧
      addrByteRInc 0xD1 = 0xD2 ∧ addrByteRInc 0xFF = 0x00 ∧ addrByteRInc 0x00 = 0x01 := by decide

theorem test_wrReg :
    field (step (mid 0x06 { inPhase .tx with txe := true, btf := true })) view =
      some (0x07, { inPhase .tx with dr := 0x75 }) := by decide

theorem test_wrReg_in_rx :
    field (step (mid 0x06 (inPhase .rx))) State.fault = some (some { kind := .briUnspec, upc := some 0x06 }) := by decide

theorem test_rdRes :
    field (step (mid 0x10 { inPhase .rx with rxne := true, dr := 0x68 })) (fun t => (t.seq.res, t.bri.rxne)) =
      some (some 0x68, false) := by decide

theorem test_rdRes_behind :
    field (exec .rdRes (mid 0x10 { inPhase .rx with rxne := true, dr := 0x01, shift := some 0x02, btf := true }))
      (fun t => (t.seq.res, t.bri)) = some (some 0x01, { inPhase .rx with rxne := true, dr := 0x02 }) := by decide

theorem test_rdData :
    field (step (mid 0x30 { inPhase .rx with rxne := true, dr := 0x03 } 1 4 2))
      (fun t => (t.mem, t.seq.cur, t.seq.rem, t.bri.rxne)) = some ([(0x1002, 0x03)], some 3, some 3, false) := by decide

theorem test_rdData_overrun :
    field (exec .rdData (mid 0x30 { inPhase .rx with rxne := true } 1 0 2)) (fun t => (t.fault, t.seq.cur, t.bri.rxne)) =
      some (some { kind := .bufOverrun, upc := some 0x30 }, some 2, true) := by decide

theorem test_wrData :
    field (exec .wrData { mid 0x4A { inPhase .tx with txe := true } 2 3 0 with mem := [(0x1000, 0xAA), (0x1001, 0xBB)] })
      (fun t => (t.bri, t.seq.cur, t.seq.rem)) = some ({ inPhase .tx with dr := 0xAA }, some 1, some 2) := by decide

theorem test_wrData_too_early :
    field (exec .wrData (mid 0x4A (inPhase .tx) 2 2 1)) (fun t => (t.fault, t.seq.cur, t.seq.rem)) =
      some (some { kind := .briUnspec, upc := some 0x4A }, some 1, some 2) := by decide

/-! ### Control flow (T45.1 to T45.9) -/

theorem test_brRemZero :
    field (step (mid 0x2D (inPhase .rx) 1 0)) (fun t => t.seq.upc) = some 0x36 ∧
      field (step (mid 0x2D (inPhase .rx) 1 0xFFFFFFFF)) (fun t => t.seq.upc) = some 0x2E := by decide

theorem test_brRemOne :
    field (step (mid 0x2E (inPhase .rx) 1 1)) (fun t => t.seq.upc) = some 0x32 ∧
      field (step (mid 0x2E (inPhase .rx) 1 2)) (fun t => t.seq.upc) = some 0x2F := by decide

theorem test_jmp : field (step (mid 0x31 (inPhase .rx))) (fun t => t.seq.upc) = some 0x2D := by decide

theorem test_ret :
    field (step (mid 0x11 State.reset.bri)) (fun t => (t.seq.status, t.seq.run, t.seq.upc)) = some (0, .ready, 0x11) := by
  decide

theorem test_ret_incomplete :
    field (exec .ret { mid 0x4E (inPhase .tx) 2 with params := { Params.s0 with checked := true } }) (fun t => t.seq.status) =
      some 3 := by decide

theorem test_illegal_fetch :
    field (step (mid 0x12 State.reset.bri)) State.fault = some (some { kind := .illegalMicroop, upc := some 0x12 }) := by
  decide

theorem test_step_after_fault :
    (match step { State.reset with fault := some { kind := .briUnspec, upc := some 0 } } with
      | .fault r => some r
      | _ => none) = some .briUnspec := by decide

/-! ### The engine (T46.1, T46.5, T46.7, T46.13, T46.14, T46.18, T46.19, T46.22, T46.26) -/

theorem test_eStart :
    let t := engineTurn { State.reset with bri := { State.reset.bri with start := true } }
    t.wire = [.start] ∧ t.bri = { inPhase .started with sb := true } := by decide

theorem test_eStart_after_nack :
    let t := engineTurn { State.reset with bri := { inPhase .txNacked with start := true, dr := 0xBB, af := true } }
    t.wire = [.repStart] ∧ t.bri = { inPhase .started with sb := true, dr := 0xBB } := by decide

theorem test_eAddr :
    let t := engineTurn (answering { State.reset with bri := { inPhase .addrQueued with dr := 0xD1 } } 0)
    t.wire = [.address 0xD1 true] ∧ t.bri = { inPhase (.addrAcked true) with dr := 0xD1, addr := true } := by decide

theorem test_eTxLoad :
    (engineTurn { State.reset with bri := { inPhase .tx with dr := 0x75, stop := true } }).bri =
      { inPhase .tx with dr := 0x75, stop := true, shift := some 0x75, txe := true } := by decide

theorem test_eTxDone :
    let t := engineTurn (answering { State.reset with bri := { inPhase .tx with dr := 0xBB, shift := some 0xAA } } 0)
    t.wire = [.transmit 0xAA true] ∧ t.bri = { inPhase .tx with dr := 0xBB } := by decide

theorem test_eRx_then_stop :
    let t := engineTurn (answering { State.reset with bri := { inPhase .rx with ack := false, stop := true } } 0x68)
    t.wire = [.receive 0x68 false, .stop] ∧ t.bri = { inPhase .idle with ack := false, dr := 0x68, rxne := true } := by
  decide

theorem test_eRx_behind :
    (engineTurn (answering { State.reset with bri := { inPhase .rx with rxne := true, dr := 0x01 } } 0x02)).bri =
      { inPhase .rx with rxne := true, dr := 0x01, shift := some 0x02, btf := true } := by decide

theorem test_eStopHeld :
    let t := engineTurn { State.reset with bri := { inPhase (.addrAcked true) with addr := true, addrSeen := true, stop := true } }
    t.wire = [.stop] ∧ t.bri = inPhase .idle := by decide

/-! ### Placing a word (log 15) -/

theorem test_withFetchWord :
    field (step (State.reset.withFetchWord 16 0xB02D)) (fun t => (t.seq.upc, t.fault)) = some (0x2D, none) ∧
      field (step (State.reset.withFetchWord 32 0x0075D000)) (fun t => (t.seq.run, t.seq.sa)) =
        some (.busy, some 0xD0) := by decide

/-! ### Memory: the canonical form (log 4) -/

theorem test_memory_canonical :
    Memory.write [(1, 0x11), (3, 0x33)] 2 0x22 = [(1, 0x11), (2, 0x22), (3, 0x33)] ∧
      Memory.write [(1, 0x11), (3, 0x33)] 3 0x00 = [(1, 0x11)] ∧ Memory.read [(1, 0x11)] 2 = 0x00 := by decide

/-! ### Witnesses: states and operands that meet the hypotheses of each statement, clause by clause -/

/-- A bus held for the address clear, the SR1 read already made. -/
def acked (d : Bool) : Bri := { inPhase (.addrAcked d) with addr := true, addrSeen := true }

/-- S0 in a phase, READY. -/
def quiet (b : Bri) : State := { State.reset with bri := b }

/-- S0 with a slave and a command handed over: the start of an all-ACK run. -/
def fresh (c : CommandWord) (n : Nat) : State := answering (issuing c n n) 0x68

theorem fresh_freshBus (c : CommandWord) (n : Nat) : FreshBus (fresh c n) :=
  ⟨rfl, rfl, rfl, rfl, rfl, rfl, rfl, rfl, rfl, rfl,
    by constructor <;> simp [fresh, answering, issuing, State.reset, State.launch]⟩

theorem witness_EncodeOfDecode :
    decode (.microOp 0xA832) = .ok (.brRemOne 0x32) ∧ decode (.command 0x003BD001) = .ok (.burstRead 0xD0 0x3B) := by decide

theorem witness_IllegalMicroOpWords :
    ((mid 0x12 State.reset.bri).fault = none ∧ pickAgent (mid 0x12 State.reset.bri) = .sequencer ∧
      (mid 0x12 State.reset.bri).seq.run = .busy ∧
      decodeMicroOp (storeWord (mid 0x12 State.reset.bri).store 0x12) = .error .illegalOpc) ∧
    decodeMicroOp (storeWord storeImage 0xFF) = .error .illegalOpc ∧
    decodeMicroOp (storeWord storeImage 0x2D) = .ok (.brRemZero 0x36) ∧
    decodeMicroOp (storeWord storeImage 0x2E) = .ok (.brRemOne 0x32) ∧
    decodeMicroOp (storeWord storeImage 0x31) = .ok (.jmp 0x2D) := by decide

theorem witness_StepRunsFetchedMicroOp :
    (mid 0x11 State.reset.bri).fault = none ∧ pickAgent (mid 0x11 State.reset.bri) = .sequencer ∧
      (mid 0x11 State.reset.bri).seq.run = .busy ∧
      decodeMicroOp (storeWord (mid 0x11 State.reset.bri).store (mid 0x11 State.reset.bri).seq.upc) = .ok .ret := by decide

theorem witness_StepRunsIssuedCommand :
    (issuing 0x0075D000 0 0).fault = none ∧ pickAgent (issuing 0x0075D000 0 0) = .caller ∧
      (issuing 0x0075D000 0 0).seq.run = .ready ∧ (issuing 0x0075D000 0 0).caller ≠ [] ∧
      decodeCommand 0x0075D000 = .ok (.byteRead 0xD0 0x75) := by decide

theorem witness_ReservedCommandRefused :
    decodeCommand 0x0000D003 = .error .reservedOp ∧ (issuing 0x0000D003 0 0).fault = none ∧
      pickAgent (issuing 0x0000D003 0 0) = .caller ∧ (issuing 0x0000D003 0 0).seq.run = .ready ∧
      (issuing 0x0000D003 0 0).caller = [.issue { word := 0x0000D003, port := { n := 0, buf := 0x1000, len := 0 } }] := by
  decide

theorem witness_RaisingStepHasNoOtherEffect :
    (∃ t, step (mid 0x12 State.reset.bri) = .next t ∧ t.fault = some { kind := .illegalMicroop, upc := some 0x12 }) ∧
      ∃ t, step (issuing 0x0000D003 0 0) = .next t ∧ t.fault = some { kind := .cmdRefused, upc := none } :=
  ⟨field_some (by decide), field_some (by decide)⟩

theorem witness_SeqPrioritySchedule :
    (mid 0x02 { State.reset.bri with start := true }).params.sched = .seqPriority ∧
    (atBlockedWait (mid 0x02 { State.reset.bri with start := true }) = true ∧
      engineNext (mid 0x02 { State.reset.bri with start := true }) = some .start) ∧
    atBlockedWait (mid 0x00 State.reset.bri) = false ∧
    (atBlockedWait (mid 0x04 (inPhase .addrNacked)) = true ∧ engineNext (mid 0x04 (inPhase .addrNacked)) = none) ∧
    engineNext (quiet { State.reset.bri with start := true }) = some .start ∧ engineNext State.reset = none := by decide

theorem witness_FreeScheduleTakesChosenAgent :
    let s := State.reset.givingTurn .engine
    s.fault = none ∧ s.params.sched = .free ∧ s.turns.script = [.engine] := by decide

theorem witness_UnwrittenRegisterFaults :
    State.reset.seq.sa = none ∧ State.reset.seq.ra = none ∧ State.reset.seq.rem = none ∧ State.reset.seq.op = none ∧
      { Params.s0 with checked := true }.checked = true ∧
      (mid 0x30 (inPhase .rx)).seq.rem ≠ some 0 ∧ { (mid 0x30 (inPhase .rx)).seq with buf := none }.buf = none ∧
      { (mid 0x30 (inPhase .rx)).seq with cur := none }.cur = none := by decide

theorem witness_CommandAccept :
    State.reset.seq.run = .ready ∧
    ¬(State.reset.params.addrLsb = .reject ∧ (0xD1 : Byte).getLsbD 0 = true) ∧
    ({ Params.s0 with addrLsb := .reject }.addrLsb = .reject ∧ (0xD1 : Byte).getLsbD 0 = true) ∧
    ((4294967295 : Nat) ≤ 4294967295 ∧ (4294967295 : Nat) < 2 ^ 32) := by decide

/-- A BUSY block under FREE whose caller hands over a command all the same, at the caller's turn. -/
def overlapping (c : CommandWord) : State :=
  { freely (mid 0x02 State.reset.bri) with
    turns := { script := [.caller], count := 0 }
    caller := [.overlap { word := c, port := { n := 0, buf := 0, len := 0 } }] }

theorem witness_CommandRefused :
    decodeCommand 0x0175D000 = .error .reservedHigh ∧ (mid 0x00 State.reset.bri).seq.run = .busy ∧
      ({ n := 3, buf := 0, len := 2 } : Port).len < ({ n := 3, buf := 0, len := 2 } : Port).n ∧
      2 ^ 32 ≤ ({ n := 4294967296, buf := 0, len := 4294967296 } : Port).n ∧
      ((overlapping 0x0075D000).fault = none ∧ pickAgent (overlapping 0x0075D000) = .caller ∧
        (overlapping 0x0075D000).seq.run = .busy ∧
        (overlapping 0x0075D000).caller = [.overlap { word := 0x0075D000, port := { n := 0, buf := 0, len := 0 } }]) := by
  decide

theorem witness_ControlRegisterWrites :
    { inPhase .rx with stop := true }.stop = true ∧ (inPhase .idle).ph = .idle ∧ (inPhase .tx).ph = .tx ∧
      (inPhase .txNacked).ph = .txNacked ∧
      ((inPhase .rx).stop = false ∧ (inPhase .rx).ph ≠ .idle ∧ (inPhase .rx).ph ≠ .tx ∧ (inPhase .rx).ph ≠ .txNacked) := by
  decide

theorem witness_WaitsComplete :
    (State.reset.bri.ph = .idle ∧ State.reset.params.extBusy = false ∧ State.reset.bri.addr = false) ∧
      { inPhase .started with sb := true }.sb = true ∧ (acked true).addr = true ∧ { inPhase .tx with txe := true }.txe = true ∧
      { inPhase .tx with btf := true }.btf = true ∧ { inPhase .rx with rxne := true }.rxne = true := by decide

theorem witness_WaitPollOutcome :
    let ck (b : Nat) : State := { mid 0x04 { inPhase .addrNacked with af := true } with params := { Params.s0 with checked := true, pollBudget := b } }
    isWait .waitSb = true ∧ waitBlocked (mid 0x02 { inPhase .started with sb := true }) .waitSb = false ∧
    (waitBlocked (ck 5) .waitAddr = true ∧ (ck 5).params.checked = true ∧ (ck 5).bri.af = true) ∧
    (waitBlocked (ck 1) .waitSb = true ∧ (ck 1).params.pollBudget ≤ (ck 1).seq.polls + 1) ∧
    (waitBlocked (ck 2) .waitSb = true ∧ (ck 2).seq.polls + 1 < (ck 2).params.pollBudget) ∧
    (waitBlocked (mid 0x02 State.reset.bri) .waitSb = true ∧ (mid 0x02 State.reset.bri).params.checked = false) := by decide

theorem witness_ClrAddrEndsAddressPhase :
    ((acked false).addrSeen = true ∧ (acked false).addr = true ∧ (acked false).ph = .addrAcked false) ∧
    ((acked true).addrSeen = true ∧ (acked true).addr = true ∧ (acked true).ph = .addrAcked true) ∧
    (({ acked true with ph := .started } : Bri).addrSeen = true ∧ ({ acked true with ph := .started } : Bri).addr = true ∧
      ∀ d, ({ acked true with ph := .started } : Bri).ph ≠ .addrAcked d) ∧
    ((inPhase .idle).addrSeen = false ∧ { acked true with addr := false }.addr = false) := by decide

theorem witness_TwoReadAddressClear :
    ({ acked true with addrSeen := false }.addr = true ∧ { acked true with addrSeen := false }.ph = .addrAcked true ∧
      { acked true with addrSeen := false }.addrSeen = false) ∧
    ((acked false).addr = true ∧ (acked false).ph = .addrAcked false) := by decide

theorem witness_AddressByteQueued :
    (mid 0x03 (inPhase .started)).bri.rxne = false ∧ (mid 0x03 (inPhase .started)).bri.ph = .started ∧
      (mid 0x03 (inPhase .started)).seq.sa = some 0xD0 ∧ (mid 0x03 (inPhase .started)).seq.ra = some 0x75 := by decide

theorem witness_DataByteWritten :
    let s := mid 0x06 { inPhase .tx with txe := true }
    s.bri.rxne = false ∧ s.bri.ph = .tx ∧ s.bri.txe = true ∧ s.seq.ra = some 0x75 ∧ s.seq.sa = some 0xD0 := by decide

theorem witness_DataRegisterWriteFaults :
    let s := mid 0x4A (inPhase .rx)
    { inPhase .started with rxne := true }.rxne = true ∧
    (s.bri.ph ≠ .started ∧ ¬(s.bri.ph = .tx ∧ s.bri.txe = true)) ∧ s.seq.sa.isSome ∧ s.seq.ra.isSome ∧
      s.seq.rem = some 1 ∧ (1 : Count) ≠ 0 ∧ s.seq.buf.isSome ∧ s.seq.cur.isSome := by decide

theorem witness_RdResTakesByte :
    ({ inPhase .rx with rxne := true, shift := some 0x02 }.rxne = true ∧
      { inPhase .rx with rxne := true, shift := some 0x02 }.shift = some 0x02) ∧
    ({ inPhase .rx with rxne := true }.rxne = true ∧ { inPhase .rx with rxne := true }.shift = none) ∧
    (inPhase .rx).rxne = false := by decide

theorem witness_RdDataStoresByte :
    let s := mid 0x30 { inPhase .rx with rxne := true }
    s.mem.wf ∧ s.seq.rem = some 1 ∧ (1 : Count) ≠ 0 ∧ s.seq.buf = some 0x1000 ∧ s.seq.cur = some 1 ∧ s.bri.rxne = true ∧
      s.bri.shift = none ∧ { s.bri with shift := some 0x02 }.shift = some 0x02 ∧ (inPhase .rx).rxne = false := by decide

theorem witness_WrDataSendsByte :
    let s := mid 0x4A { inPhase .tx with txe := true }
    s.seq.rem = some 1 ∧ (1 : Count) ≠ 0 ∧ s.seq.buf = some 0x1000 ∧ s.seq.cur = some 1 ∧ s.bri.rxne = false ∧
      s.bri.ph = .tx ∧ s.bri.txe = true ∧ (inPhase .started).ph = .started ∧ (inPhase .started).rxne = false := by decide

theorem witness_ByteMoveOverrun : (mid 0x30 (inPhase .rx) 1 0).seq.rem = some 0 := by decide

theorem witness_BranchTargets :
    (mid 0x2D (inPhase .rx) 1 0).seq.rem = some 0 ∧ (mid 0x2D (inPhase .rx) 1 1).seq.rem = some 1 ∧
      (mid 0x2D (inPhase .rx) 1 2).seq.rem = some 2 := by decide

theorem witness_RetCompletes :
    (mid 0x11 State.reset.bri).params.checked = false ∧ { Params.s0 with checked := true }.checked = true ∧
      (mid 0x4E State.reset.bri 2).seq.op = some 2 ∧ (mid 0x11 State.reset.bri).seq.op = some 0 := by decide

theorem witness_EngineStepsExclusive :
    EngineStep.enabled (quiet { State.reset.bri with start := true }) .start = true := by decide

theorem witness_EngineGeneratesStart :
    engineNext (quiet { State.reset.bri with start := true }) = some .start ∧
      engineNext (quiet { inPhase .tx with start := true, txe := true }) = some .start := by decide

theorem witness_EngineSendsAddress : engineNext (quiet (inPhase .addrQueued)) = some .addr := by decide

theorem witness_EngineTransmits :
    engineNext (quiet (inPhase .tx)) = some .txLoad ∧
      engineNext (quiet { inPhase .tx with shift := some 0x75 }) = some .txDone := by decide

theorem witness_EngineReceives :
    engineNext (quiet (inPhase .rx)) = some .rx ∧ (inPhase .rx).ack = true ∧
      engineNext (quiet { inPhase .rx with ack := false }) = some .rx ∧ (inPhase .rx).stop = false ∧
      engineNext (quiet { inPhase .rx with ack := false, stop := true }) = some .rx := by decide

theorem witness_EngineGeneratesStop :
    engineNext (quiet { inPhase .tx with stop := true, txe := true }) = some .stopTx ∧
      engineNext (quiet { inPhase .rxDone with stop := true }) = some .stopRxDone ∧
      engineNext (quiet { inPhase .addrNacked with stop := true }) = some .stopHeld ∧
      engineNext (quiet { inPhase .idle with stop := true }) = some .stopIdle := by decide

theorem witness_EngineHeldPhases :
    { Params.s0 with periphLive := false }.periphLive = false ∧ (acked true).stop = false ∧
      (acked true).ph = .addrAcked true ∧ (inPhase .addrNacked).ph = .addrNacked ∧ (inPhase .rxDone).ph = .rxDone ∧
      ((inPhase .txNacked).stop = false ∧ (inPhase .txNacked).start = false ∧ (inPhase .txNacked).ph = .txNacked) ∧
      ({ inPhase .rx with rxne := true, shift := some 0x02 }.rxne = true ∧
        { inPhase .rx with rxne := true, shift := some 0x02 }.shift ≠ none) := by decide

theorem witness_ExternallyBusyBus :
    let s : State := { State.reset with params := { Params.s0 with extBusy := true } }
    s.params.extBusy = true ∧ s.bri.ph = .idle ∧ ∃ t, step s = .next t :=
  ⟨by decide, by decide, step_next (by decide)⟩

theorem mid_seqInv : SeqInv (mid 0x0D { acked true with ack := false }) :=
  ⟨rfl, fun _ => ⟨rfl, rfl, rfl, rfl, rfl, rfl⟩, fun _ => by decide, fun _ h => absurd h (by decide), fun r h => by cases h⟩

theorem witness_FixedStoreNeverRunsAstray :
    SeqInv (mid 0x0D { acked true with ack := false }) ∧ ∃ t, step (mid 0x0D { acked true with ack := false }) = .next t :=
  ⟨mid_seqInv, step_next (by decide)⟩

theorem witness_FlagsFollowBusPhase : BriInv (acked true) ∧ ∃ t, step (mid 0x0D (acked true)) = .next t :=
  ⟨by constructor <;> simp [acked, inPhase, State.reset, State.launch], step_next (by decide)⟩

theorem witness_StatusCodesKept : StatusInv (mid 0x0D (acked true)) ∧ ∃ t, step (mid 0x0D (acked true)) = .next t :=
  ⟨⟨by decide, by decide, by decide, by decide, by decide⟩, step_next (by decide)⟩

theorem witness_CallerMemoryStaysCanonical :
    Memory.wf [(0x1000, 0xAA), (0x1001, 0xBB)] ∧
      ∃ t, step { State.reset with mem := [(0x1000, 0xAA), (0x1001, 0xBB)] } = .next t :=
  ⟨by decide, step_next (by decide)⟩

theorem witness_OnlyRdDataWritesMemory :
    (mid 0x30 { inPhase .rx with rxne := true, dr := 0x03 }).mem.wf ∧
    (∃ t, step (mid 0x30 { inPhase .rx with rxne := true, dr := 0x03 }) = .next t ∧ t.mem.read 0x1001 = 0x03) ∧
    (mid 0x30 { inPhase .rx with rxne := true, dr := 0x03 }).mem.read 0x1001 ≠ 0x03 ∧
    ∃ t, step { State.reset with caller := [.fill 0x1000 0xAA] } = .next t ∧ t.mem.read 0x1000 = 0xAA :=
  ⟨by decide, field_some (by decide), by decide, field_some (by decide)⟩

theorem witness_CursorPlusRemaining :
    (∃ t, step (mid 0x30 { inPhase .rx with rxne := true }) = .next t) ∧
      pickAgent (mid 0x30 { inPhase .rx with rxne := true }) ≠ .caller ∧
      (mid 0x30 (inPhase .rx)).seq.rem = some 1 ∧ (mid 0x30 (inPhase .rx)).seq.cur = some 1 :=
  ⟨step_next (by decide), by decide, by decide, by decide⟩

theorem witness_OperandsFixedAtAccept :
    (∃ t, step (mid 0x11 State.reset.bri) = .next t) ∧ pickAgent (mid 0x11 State.reset.bri) ≠ .caller ∧
      (mid 0x11 State.reset.bri).seq.run = .busy ∧
      (∃ t, step { State.reset with caller := [.fill 0x20 0xAA] } = .next t) ∧
      ∀ r rest, [CallerAct.fill 0x20 0xAA] ≠ .issue r :: rest ∧ [CallerAct.fill 0x20 0xAA] ≠ .overlap r :: rest :=
  ⟨step_next (by decide), by decide, by decide, step_next (by decide), by simp⟩

theorem witness_WireTraceOnlyGrows :
    ∃ t, step (quiet { State.reset.bri with start := true }) = .next t ∧ t.wire = [.start] := field_some (by decide)

theorem witness_BusyRisesAtStartFallsAtStop :
    (∃ t, step (quiet { State.reset.bri with start := true }) = .next t ∧ t.bri.ph = .started) ∧
      ∃ t, step (quiet { inPhase .rxDone with stop := true }) = .next t ∧ t.bri.ph = .idle :=
  ⟨field_some (by decide), field_some (by decide)⟩

theorem witness_AckEnableWriters :
    ∃ t, step (mid 0x0C (acked true)) = .next t ∧ (t.bri.ack, (acked true).ack) = (false, true) := field_some (by decide)

theorem witness_SingleByteIsNacked :
    SeqInv (mid 0x0D { acked true with ack := false }) ∧
      ∃ t, step (mid 0x0D { acked true with ack := false }) = .next t ∧
        (t.seq.run, t.seq.upc, ({ acked true with ack := false } : Bri).ack) = (.busy, 0x0E, false) :=
  ⟨mid_seqInv, field_some (by decide)⟩

/-- The receiving clause: at WAIT_RXNE, the last word before the byte is read, with the acknowledge enable 0. -/
theorem witness_SingleByteIsNacked_receive :
    let s := answering (mid 0x0F { inPhase .rx with ack := false, stop := true }) 0x68
    SeqInv s ∧ (s.seq.run, s.seq.upc, s.bri.ack) = (.busy, 0x0F, false) ∧
      ∃ t, step s = .next t ∧ t.wire = s.wire ++ [.receive 0x68 false, .stop] :=
  ⟨⟨rfl, fun _ => ⟨rfl, rfl, rfl, rfl, rfl, rfl⟩, fun _ => by decide, fun _ h => absurd h (by decide), fun r h => by cases h⟩,
    by decide, field_some (by decide)⟩

theorem witness_StuckStateHangs :
    Stuck (mid 0x04 { inPhase .addrNacked with af := true }) ∧ BriInv { inPhase .addrNacked with af := true } ∧
      (mid 0x04 { inPhase .addrNacked with af := true }).params.sched = .seqPriority ∧
      { inPhase .addrNacked with af := true }.addr = false :=
  ⟨⟨by decide, by decide, by decide, by decide, by decide⟩,
    by constructor <;> simp [inPhase, State.reset, State.launch], by decide, by decide⟩

theorem witness_ByteReadTransaction :
    FreshBus (fresh 0x0075D000 0) ∧ decodeCommand 0x0075D000 = .ok (.byteRead 0xD0 0x75) ∧
      (0xD0 : Byte).getLsbD 0 = false ∧
      (fresh 0x0075D000 0).caller = [.issue { word := 0x0075D000, port := { n := 0, buf := 0x1000, len := 0 } }] ∧
      (fresh 0x0075D000 0).slave.addrAcks = [true, true] ∧ (fresh 0x0075D000 0).slave.dataAcks = [true, true] ∧
      (fresh 0x0075D000 0).slave.rxBytes = [0x68] :=
  ⟨fresh_freshBus _ _, by decide, by decide, by decide, by decide, by decide, by decide⟩

theorem witness_BurstWriteLoopPass :
    let s := answering (mid 0x48 { inPhase .tx with txe := true } 2 3 0) 0
    s.fault = none ∧ s.params.sched = .seqPriority ∧ s.params.periphLive = true ∧ s.store = storeImage ∧
      s.seq.run = .busy ∧ s.seq.upc = 0x48 ∧ s.seq.rem = some 3 ∧ (3 : Count) ≠ 0 ∧ s.seq.cur = some 0 ∧
      s.seq.buf = some 0x1000 ∧ s.bri.ph = .tx ∧ s.bri.txe = true ∧ s.bri.shift = none ∧ s.bri.rxne = false ∧
      s.bri.addr = false ∧ s.bri.start = false ∧ s.bri.stop = false ∧ s.slave.dataAcks = [true, true] :=
  ⟨rfl, rfl, rfl, rfl, rfl, rfl, rfl, by decide, rfl, rfl, rfl, rfl, rfl, rfl, rfl, rfl, rfl, rfl⟩

/-- A state of a launch with `P_EMIT_STOP_ON_WRITE`. -/
def stopping (s : State) : State := { s with params := { s.params with emitStopOnWrite := true } }

theorem witness_BurstWriteTransaction :
    FreshBus (fresh 0x006BD002 1) ∧ FreshBus (stopping (fresh 0x006BD002 1)) ∧
      (stopping (fresh 0x006BD002 1)).params.emitStopOnWrite = true ∧
      decodeCommand 0x006BD002 = .ok (.burstWrite 0xD0 0x6B) ∧ (0xD0 : Byte).getLsbD 0 = false ∧
      (fresh 0x006BD002 1).caller = [.issue { word := 0x006BD002, port := { n := 1, buf := 0x1000, len := 1 } }] ∧
      (1 : Nat) ≤ 1 ∧ (1 : Nat) < 2 ^ 32 ∧ (fresh 0x006BD002 1).slave.addrAcks = [true, true] ∧
      (fresh 0x006BD002 1).slave.dataAcks = true :: (List.replicate 1 true ++ []) :=
  ⟨fresh_freshBus _ _,
    ⟨rfl, rfl, rfl, rfl, rfl, rfl, rfl, rfl, rfl, rfl,
      by constructor <;> simp [stopping, fresh, answering, issuing, State.reset, State.launch]⟩,
    by decide, by decide, by decide, by decide, by decide, by decide, by decide, by decide⟩

theorem witness_BurstReadTransaction :
    FreshBus (fresh 0x003BD001 1) ∧ (fresh 0x003BD001 1).mem.wf ∧
      decodeCommand 0x003BD001 = .ok (.burstRead 0xD0 0x3B) ∧ (0xD0 : Byte).getLsbD 0 = false ∧
      (fresh 0x003BD001 1).caller = [.issue { word := 0x003BD001, port := { n := 1, buf := 0x1000, len := 1 } }] ∧
      1 = ([] : List Byte).length + 1 ∧ (1 : Nat) ≤ 1 ∧ (1 : Nat) < 2 ^ 32 ∧
      (fresh 0x003BD001 1).slave.addrAcks = [true, true] ∧ (fresh 0x003BD001 1).slave.dataAcks = [true, true] ∧
      (fresh 0x003BD001 1).slave.rxBytes = [] ++ (0x68 : Byte) :: [] :=
  ⟨fresh_freshBus _ _, by decide, by decide, by decide, by decide, by decide, by decide, by decide, by decide, by decide,
    by decide⟩

theorem witness_BurstReadOfNothing :
    FreshBus (fresh 0x003BD001 0) ∧ decodeCommand 0x003BD001 = .ok (.burstRead 0xD0 0x3B) ∧ (0xD0 : Byte).getLsbD 0 = false ∧
      (fresh 0x003BD001 0).caller = [.issue { word := 0x003BD001, port := { n := 0, buf := 0x1000, len := 0 } }] ∧
      (fresh 0x003BD001 0).slave.addrAcks = [true, true] ∧ (fresh 0x003BD001 0).slave.dataAcks = [true, true] :=
  ⟨fresh_freshBus _ _, by decide, by decide, by decide, by decide, by decide⟩

/-- The sequencer moves once, then the caller has the turn and issues nothing. -/
def onceThenCaller : Nat → Agent
  | 0 => .sequencer
  | _ + 1 => .caller

/-- A block at RET under FREE. -/
def atRet : State := freely (mid 0x11 State.reset.bri)

/-- A READY block whose caller issues nothing stays as it is. -/
theorem atRet_rests : ∀ k, runBy onceThenCaller atRet (k + 1) = stepBy .sequencer atRet
  | 0 => rfl
  | k + 1 => by
    rw [runBy_succ, atRet_rests k]
    rfl

theorem witness_FairCommandEnds :
    (atRet.seq.run = .busy ∧ SeqInv atRet ∧ Interleaves onceThenCaller atRet ∧ WeaklyFair onceThenCaller atRet ∧
      (runBy onceThenCaller atRet 1).seq.run = .ready) ∧
    ((freely (mid 0x02 State.reset.bri)).seq.run = .busy ∧ (freely (mid 0x02 State.reset.bri)).params.sched = .free ∧
      (freely (mid 0x02 State.reset.bri)).params.checked = false ∧ (freely (mid 0x02 State.reset.bri)).fault = none ∧
      atBlockedWait (freely (mid 0x02 State.reset.bri)) = true) := by
  refine ⟨⟨rfl, ⟨rfl, fun _ => ⟨rfl, rfl, rfl, rfl, rfl, rfl⟩, fun _ => by decide, fun _ h => absurd h (by decide),
    fun r h => by cases h⟩, fun k _ => ?_, fun _ e k h => ?_, rfl⟩, by decide⟩
  · cases k with
    | zero => rfl
    | succ k => rw [atRet_rests k]; rfl
  · have := (h (k + 1) (by omega)).2
    rw [atRet_rests k] at this
    cases e <;> cases this

theorem witness_HangsExactlyWhenStuck :
    SeqInv (mid 0x04 { inPhase .addrNacked with af := true }) ∧
      (mid 0x04 { inPhase .addrNacked with af := true }).params.sched = .seqPriority ∧
      (mid 0x04 { inPhase .addrNacked with af := true }).params.checked = false ∧
      ReachesStuck (mid 0x04 { inPhase .addrNacked with af := true }) :=
  ⟨⟨rfl, fun _ => ⟨rfl, rfl, rfl, rfl, rfl, rfl⟩, fun _ => by decide, fun _ h => absurd h (by decide), fun r h => by cases h⟩,
    rfl, rfl, 0, _, rfl, ⟨by decide, by decide, by decide, by decide, by decide⟩, fun j h => by omega⟩

end Sys2Proof.Tests
end

section
/-! SUPPORT. What a turn does to the Bus Register Interface, said once for the claims about its flags: a sequencer's turn makes one
BRI access, which an abort may follow; an engine's turn is the effect of an enabled step; no other turn touches it. -/

namespace Sys2Proof.Machine

/-- An abort leaves the phase alone: it requests the STOP, the engine makes it (R252). -/
@[simp] theorem release_ph (b : Bri) : b.release.ph = b.ph := rfl

/-- A micro-op makes one BRI access; an abort of a wait in checked mode releases the bus after it and ends the command with status
1 or 2 (R140, R250, R252). -/
theorem move_bri {i : Instr} {s t : State} (h : Move i s t) :
    BriMove i s t.bri ∨
      ∃ b, isWait i = true ∧ s.params.checked = true ∧ BriMove i s b ∧ t.bri = b.release ∧ t.seq.run = .ready ∧
        (t.seq.status = 1 ∨ t.seq.status = 2) := by
  cases h with
  | fault k hk => exact .inl .same
  | goes b a hb ha => exact .inl hb
  | result b hi hb => exact .inl hb
  | received b c hi hc hb => exact .inl hb
  | sent b c hi hc hb => exact .inl hb
  | poll b hi hb hp => exact .inl (by simpa using hb)
  | abort b code hi hb hc hcode => exact .inr ⟨b, hi, hc, hb, rfl, rfl, hcode⟩
  | finish code hi hcode => exact .inl .same

/-- A step that changes the BRI is a micro-op's or an engine step's. -/
theorem step_bri_cases {s t : State} (h : step s = .next t) :
    t.bri = s.bri ∨
      (pickAgent s = .sequencer ∧ s.seq.run = .busy ∧ ∃ i, fetch s = .ok i ∧ Move i s.turnTaken t) ∨
      (pickAgent s = .engine ∧ ∃ e : EngineStep, e.enabled s.turnTaken = true ∧ t = e.effect s.turnTaken) := by
  obtain ⟨-, ⟨hp, hm⟩ | ⟨hp, hm⟩ | ⟨hp, hm⟩⟩ := step_moves h
  · cases hm with
    | idle hr => exact .inl (turnTaken_bri s)
    | illegal e hr hf => exact .inl (turnTaken_bri s)
    | runs i _ hr hf he hm => exact .inr (.inl ⟨hp, hr, i, hf, hm⟩)
  · cases hm with
    | idle => exact .inl (turnTaken_bri s)
    | steps e he => exact .inr (.inr ⟨hp, e, (enabled_turnTaken s e).trans he, rfl⟩)
  · left
    cases hm <;> simp

end Sys2Proof.Machine
end

section
/-! SUPPORT. The BRI's invariant (`BriInv`) phase by phase, and that every BRI access and every engine step keeps it. Read this
way, an operation whose phase is known meets one short list of flags before it and one after it. -/

namespace Sys2Proof.Machine

/-- What `BriInv` says of the flags, the shift register and the requests in one phase (spec/10_state.md R32 to R39). -/
def Bri.FlagsIn (b : Bri) : Phase → Prop
  | .idle =>
    b.sb = false ∧ b.addr = false ∧ b.addrSeen = false ∧ b.txe = false ∧ b.btf = b.shift.isSome ∧
      (b.shift.isSome = true → b.rxne = true)
  | .started =>
    b.sb = true ∧ b.addr = false ∧ b.addrSeen = false ∧ b.txe = false ∧ b.btf = false ∧
      (b.shift.isSome = true → b.rxne = true) ∧ (b.start = true → b.stop = true)
  | .addrQueued =>
    b.sb = false ∧ b.addr = false ∧ b.addrSeen = false ∧ b.txe = false ∧ b.btf = false ∧ b.shift = none ∧ b.rxne = false ∧
      (b.start = true → b.stop = true)
  | .addrAcked _ =>
    b.sb = false ∧ b.addr = true ∧ b.txe = false ∧ b.btf = false ∧ b.shift = none ∧ b.rxne = false ∧
      (b.start = true → b.stop = true)
  | .addrNacked =>
    b.sb = false ∧ b.addr = false ∧ b.addrSeen = false ∧ b.txe = false ∧ b.btf = false ∧ b.shift = none ∧ b.rxne = false ∧
      (b.af = true ∨ b.stop = true) ∧ (b.start = true → b.stop = true)
  | .tx =>
    b.sb = false ∧ b.addr = false ∧ b.addrSeen = false ∧ b.rxne = false ∧ (b.btf = true → b.txe = true ∧ b.shift = none)
  | .txNacked =>
    b.sb = false ∧ b.addr = false ∧ b.addrSeen = false ∧ b.btf = false ∧ b.shift = none ∧ b.rxne = false ∧
      (b.af = true ∨ b.stop = true)
  | .rx =>
    b.sb = false ∧ b.addr = false ∧ b.addrSeen = false ∧ b.txe = false ∧ b.btf = b.shift.isSome ∧
      (b.shift.isSome = true → b.rxne = true) ∧ (b.start = true → b.stop = true)
  | .rxDone =>
    b.sb = false ∧ b.addr = false ∧ b.addrSeen = false ∧ b.txe = false ∧ b.btf = b.shift.isSome ∧
      (b.shift.isSome = true → b.rxne = true) ∧ (b.start = true → b.stop = true)

/-- The invariant, phase by phase: in one phase, and with the shift register empty or full, each field of `BriInv` is a fact about
the flags alone. -/
theorem briInv_iff_flagsIn (b : Bri) : BriInv b ↔ b.FlagsIn b.ph := by
  obtain ⟨sb, addr, txe, btf, rxne, ack, start, stop, dr, shift, af, addrSeen, ph⟩ := b
  constructor
  · rintro ⟨hsb, haddr, hseen, htxe, hbtfTx, hbtfRx, hbtfElse, hshift, hrxne, hnacked, hstart⟩
    cases ph <;> cases shift <;> simp_all [Bri.FlagsIn]
  · intro h
    cases ph <;> cases shift <;> constructor <;> simp_all [Bri.FlagsIn]

/-- The flags of a phase the invariant's BRI is in. -/
theorem BriInv.flagsIn {b : Bri} {p : Phase} (h : BriInv b) (hp : b.ph = p) : b.FlagsIn p :=
  hp ▸ (briInv_iff_flagsIn b).1 h

/-- The invariant from the flags of the phase the BRI is in. -/
theorem Bri.FlagsIn.inv {b : Bri} {p : Phase} (h : b.FlagsIn p) (hp : b.ph = p) : BriInv b :=
  (briInv_iff_flagsIn b).2 (hp ▸ h)

/-! ### BRI accesses (spec/20_memory.md R64 to R68, spec/60_exceptions.md R252) -/

/-- `addrSeen` is set only while `addr` is (R64). -/
theorem afterSr1_keeps_inv {b : Bri} (h : BriInv b) : BriInv b.afterSr1 := by
  rw [afterSr1_eq]
  exact { h with seen := fun hs => (Bool.or_eq_true _ _ ▸ hs).elim id h.seen }

/-- An SR2 read that completes the two-read clear opens the data phase of the acknowledged direction; any other only forgets the
SR1 read (R65). -/
theorem afterSr2_keeps_inv {b : Bri} (h : BriInv b) : BriInv b.afterSr2 := by
  unfold Bri.afterSr2
  split
  · next hc =>
    obtain ⟨d, hp⟩ := h.addr.1 (Bool.and_eq_true _ _ ▸ hc).2
    have hf := h.flagsIn hp
    cases d with
    | false => exact Bri.FlagsIn.inv (p := .tx) (by simp_all [Bri.FlagsIn, Bri.endAddrPhase]) (by simp [Bri.endAddrPhase, hp])
    | true => exact Bri.FlagsIn.inv (p := .rx) (by simp_all [Bri.FlagsIn, Bri.endAddrPhase]) (by simp [Bri.endAddrPhase, hp])
  · exact { h with seen := nofun }

/-- A read of DR takes the unread byte: the one in the shift register moves up behind it, or `rxne` falls (R66). -/
theorem afterDr_keeps_inv {b : Bri} (h : BriInv b) : BriInv b.afterDr := by
  unfold Bri.afterDr
  split
  · next hr =>
    split
    · next v hs =>
      exact { h with
        btfTx := fun _ => nofun
        btfRx := fun _ => by simp
        btfElse := fun _ _ _ _ => rfl
        shift := fun _ => nofun }
    · next hs => exact { h with shift := fun _ hi => by simp [hs] at hi, rxne := nofun }
  · exact h

/-- A byte written in STARTED is queued as the address byte; one written in TX is there to send (R67). -/
theorem writeDr_keeps_inv {v : Byte} {b b' : Bri} (h : BriInv b) (hw : b.writeDr v = .ok b') : BriInv b' := by
  obtain ⟨hr, ⟨hp, rfl⟩ | ⟨hp, -, rfl⟩⟩ := writeDr_ok hw
  · have hf := h.flagsIn hp
    exact Bri.FlagsIn.inv (p := .addrQueued) (by simp_all [Bri.FlagsIn]) rfl
  · have hf := h.flagsIn hp
    exact Bri.FlagsIn.inv (p := .tx) (by simp_all [Bri.FlagsIn]) hp

/-- A START request is taken where it may wait, or behind a STOP (R68). -/
theorem requestStart_keeps_inv {b b' : Bri} (h : BriInv b) (hw : b.requestStart = .ok b') : BriInv b' := by
  obtain ⟨hs, rfl⟩ := requestStart_ok hw
  exact { h with start := fun _ hns => hs.resolve_left (by simp_all) }

theorem requestStop_keeps_inv {b : Bri} (h : BriInv b) : BriInv b.requestStop :=
  { h with nacked := fun _ => .inr rfl, start := fun _ => nofun }

theorem setAck_keeps_inv {b : Bri} (v : Bool) (h : BriInv b) : BriInv (b.setAck v) := { h with }

/-- An abort clears the failure and the START request, and requests a STOP in every phase but IDLE (R252). -/
theorem release_keeps_inv {b : Bri} (h : BriInv b) : BriInv b.release :=
  { h with
    nacked := fun hp => .inr (if_neg (by rcases hp with hp | hp <;> simp_all))
    start := nofun }

theorem briMove_keeps_inv {i : Instr} {s : State} {b : Bri} (h : BriInv s.bri) (hb : BriMove i s b) : BriInv b := by
  cases hb with
  | same => exact h
  | readSr1 => exact afterSr1_keeps_inv h
  | readSr2 => exact afterSr2_keeps_inv h
  | readDr => exact afterDr_keeps_inv h
  | writeDr v _ hw => exact writeDr_keeps_inv h hw
  | requestStart _ hw => exact requestStart_keeps_inv h hw
  | requestStop => exact requestStop_keeps_inv h
  | ackOn hi => exact setAck_keeps_inv true h
  | ackOff hi => exact setAck_keeps_inv false h

theorem move_keeps_briInv {i : Instr} {s t : State} (h : BriInv s.bri) (hm : Move i s t) : BriInv t.bri := by
  rcases move_bri hm with hb | ⟨b, -, -, hb, e, -, -⟩
  · exact briMove_keeps_inv h hb
  · exact e ▸ release_keeps_inv (briMove_keeps_inv h hb)

end Sys2Proof.Machine
end

section
/-! SUPPORT. The bus engine's guards as propositions, and that every engine step keeps the BRI's invariant (spec/46_bus_engine.md
R200 to R214). -/

namespace Sys2Proof.Machine

theorem isTx_iff (p : Phase) : p.isTx = true ↔ p = .tx ∨ p = .txNacked := by
  cases p <;> simp [Phase.isTx]

theorem isHeld_iff (p : Phase) : p.isHeld = true ↔ p = .started ∨ (∃ d, p = .addrAcked d) ∨ p = .addrNacked := by
  cases p <;> simp [Phase.isHeld]

/-- Nothing is left to send in a transmit phase (R200, R210). -/
theorem txDrained_iff (b : Bri) :
    b.txDrained = true ↔
      (b.ph = .tx ∨ b.ph = .txNacked) ∧ b.shift = none ∧ (b.txe = true ∨ b.ph = .txNacked) := by
  simp [Bri.txDrained, isTx_iff, and_assoc]

/-- The guard of an enabled step holds (R215). -/
theorem guard_of_enabled {s : State} {e : EngineStep} (h : e.enabled s = true) : e.guard s = true :=
  (Bool.and_eq_true _ _ ▸ enabled_eq s e ▸ h).2

/-- E_START leaves IDLE or a drained transmit phase, with no STOP pending (R200). -/
theorem guard_start {s : State} (h : EngineStep.start.guard s = true) :
    s.bri.start = true ∧ s.bri.stop = false ∧
      (s.bri.ph = .idle ∨ ((s.bri.ph = .tx ∨ s.bri.ph = .txNacked) ∧ s.bri.shift = none)) := by
  simp only [EngineStep.guard, Bool.and_eq_true, Bool.or_eq_true, Bool.not_eq_true', decide_eq_true_eq, txDrained_iff] at h
  obtain ⟨⟨hs, hn⟩, ⟨hp, -⟩ | ⟨hp, hd, -⟩⟩ := h
  · exact ⟨hs, hn, .inl hp⟩
  · exact ⟨hs, hn, .inr ⟨hp, hd⟩⟩

/-- E_TXLOAD loads from TX with a byte to send and a free shift register (R204). -/
theorem guard_txLoad {s : State} (h : EngineStep.txLoad.guard s = true) :
    s.bri.ph = .tx ∧ s.bri.txe = false ∧ s.bri.shift = none := by
  simpa [EngineStep.guard, and_assoc] using h

/-- E_TXDONE shifts a byte out in TX (R205). -/
theorem guard_txDone {s : State} (h : EngineStep.txDone.guard s = true) :
    s.bri.ph = .tx ∧ ∃ v, s.bri.shift = some v := by
  simpa [EngineStep.guard, Option.isSome_iff_exists] using h

/-- E_RX receives in RX into a free shift register (R206). -/
theorem guard_rx {s : State} (h : EngineStep.rx.guard s = true) : s.bri.ph = .rx ∧ s.bri.shift = none := by
  simpa [EngineStep.guard] using h

/-- A STOP leaves a transmit phase only when it is drained (R210). -/
theorem guard_stopTx {s : State} (h : EngineStep.stopTx.guard s = true) :
    (s.bri.ph = .tx ∨ s.bri.ph = .txNacked) ∧ s.bri.shift = none := by
  simp only [EngineStep.guard, Bool.and_eq_true, txDrained_iff] at h
  exact ⟨h.2.1, h.2.2.1⟩

theorem guard_stopRxDone {s : State} (h : EngineStep.stopRxDone.guard s = true) : s.bri.ph = .rxDone := by
  simp only [EngineStep.guard, Bool.and_eq_true, decide_eq_true_eq] at h
  exact h.2

theorem guard_stopHeld {s : State} (h : EngineStep.stopHeld.guard s = true) :
    s.bri.ph = .started ∨ (∃ d, s.bri.ph = .addrAcked d) ∨ s.bri.ph = .addrNacked := by
  simp only [EngineStep.guard, Bool.and_eq_true, isHeld_iff] at h
  exact h.2

theorem guard_stopIdle {s : State} (h : EngineStep.stopIdle.guard s = true) : s.bri.ph = .idle := by
  simp only [EngineStep.guard, Bool.and_eq_true, decide_eq_true_eq] at h
  exact h.2

@[simp] theorem toIdle_ph (b : Bri) : b.toIdle.ph = .idle := rfl

@[simp] theorem receive_ph (v : Byte) (b : Bri) : (b.receive v).ph = b.ph := by
  unfold Bri.receive
  split <;> rfl

/-! ### The effects keep the invariant -/

/-- A STOP that finds no byte on its way out keeps the received bytes, with `btf` for the one in the shift register (R214). -/
theorem toIdle_keeps_inv {b : Bri} (h : BriInv b) (hd : b.ph = .tx ∨ b.ph = .txNacked → b.shift = none) :
    BriInv b.toIdle := by
  refine Bri.FlagsIn.inv (p := .idle) ⟨rfl, rfl, rfl, rfl, ?_, ?_⟩ rfl
  · show (if b.ph.isTx = true then false else b.shift.isSome) = b.shift.isSome
    split
    · next hx => simp [hd ((isTx_iff _).1 hx)]
    · rfl
  · intro hs
    exact h.shift (fun hp => by simp [Bri.toIdle, hd (.inl hp)] at hs) hs

/-- A byte is received behind an unread one with `btf`, or as the unread one (R35, R206). -/
theorem receive_keeps_inv {b : Bri} (v : Byte) (h : BriInv b) (hp : b.ph = .rx) (hs : b.shift = none) :
    BriInv (b.receive v) := by
  have hf := h.flagsIn hp
  refine Bri.FlagsIn.inv (p := .rx) ?_ ((receive_ph v b).trans hp)
  unfold Bri.receive
  split <;> simp_all [Bri.FlagsIn]

/-- RX and RX_DONE say the same of the flags (R39). -/
theorem rxDone_keeps_inv {b : Bri} (h : BriInv b) (hp : b.ph = .rx) : BriInv { b with ph := .rxDone } :=
  Bri.FlagsIn.inv (p := .rxDone) (h.flagsIn hp) rfl

/-- Each phase that E_START leaves has `addr`, `addrSeen` and, but for an unread received byte, the shift register clear (R200). -/
theorem engineStart_keeps_inv {s : State} (h : BriInv s.bri) (hg : EngineStep.start.guard s = true) :
    BriInv (engineStart s).bri := by
  obtain ⟨-, -, hp | ⟨hp | hp, hd⟩⟩ := guard_start hg
  all_goals
    have hf := h.flagsIn hp
    exact Bri.FlagsIn.inv (p := .started) (by simp_all [Bri.FlagsIn, engineStart]) rfl

/-- The slave's answer opens ADDR_ACKED with `addr`, or ADDR_NACKED with `af` (R202, R203). -/
theorem engineAddr_keeps_inv {s : State} (h : BriInv s.bri) (hp : s.bri.ph = .addrQueued) : BriInv (engineAddr s).bri := by
  have hf := h.flagsIn hp
  unfold engineAddr
  dsimp only
  split
  · exact Bri.FlagsIn.inv (p := .addrAcked (s.bri.dr.getLsbD 0)) (by simp_all [Bri.FlagsIn]) rfl
  · exact Bri.FlagsIn.inv (p := .addrNacked) (by simp_all [Bri.FlagsIn]) rfl

theorem engineTxLoad_keeps_inv {s : State} (h : BriInv s.bri) (hg : EngineStep.txLoad.guard s = true) :
    BriInv (engineTxLoad s).bri := by
  obtain ⟨hp, ht, hs⟩ := guard_txLoad hg
  have hf := h.flagsIn hp
  exact Bri.FlagsIn.inv (p := .tx) (by simp_all [Bri.FlagsIn, engineTxLoad]) hp

/-- After a byte is sent TX goes on, with `btf` when no other waits; a refused byte ends it in TX_NACKED with `af` (R205). -/
theorem engineTxDone_keeps_inv {s : State} {v : Byte} (h : BriInv s.bri) (hp : s.bri.ph = .tx) (hs : s.bri.shift = some v) :
    BriInv (engineTxDone v s).bri := by
  have hf := h.flagsIn hp
  unfold engineTxDone
  dsimp only
  split
  · exact Bri.FlagsIn.inv (p := .tx) (by simp_all [Bri.FlagsIn]) hp
  · exact Bri.FlagsIn.inv (p := .txNacked) (by simp_all [Bri.FlagsIn]) rfl

/-- A received byte, and after a NACK the end of the reception, with the STOP that waits (R206, R207). -/
theorem engineRx_keeps_inv {s : State} (h : BriInv s.bri) (hp : s.bri.ph = .rx) (hs : s.bri.shift = none) :
    BriInv (engineRx s).bri := by
  have hr := receive_keeps_inv s.slave.rxByte h hp hs
  have hd := rxDone_keeps_inv hr ((receive_ph _ _).trans hp)
  unfold engineRx
  dsimp only
  split
  · exact hr
  · split
    · exact toIdle_keeps_inv hd (by simp)
    · exact hd

/-- Every enabled engine step keeps the invariant. -/
theorem effect_keeps_briInv {s : State} {e : EngineStep} (h : BriInv s.bri) (he : e.enabled s = true) :
    BriInv (e.effect s).bri := by
  have hg := guard_of_enabled he
  cases e with
  | start => exact engineStart_keeps_inv h hg
  | addr => exact engineAddr_keeps_inv h (by simpa [EngineStep.guard] using hg)
  | txLoad => exact engineTxLoad_keeps_inv h hg
  | txDone =>
    obtain ⟨hp, v, hs⟩ := guard_txDone hg
    simp only [EngineStep.effect, hs]
    exact engineTxDone_keeps_inv h hp hs
  | rx => exact engineRx_keeps_inv h (guard_rx hg).1 (guard_rx hg).2
  | stopTx => exact toIdle_keeps_inv h fun _ => (guard_stopTx hg).2
  | stopRxDone => exact toIdle_keeps_inv h (by simp [guard_stopRxDone hg])
  | stopHeld => exact toIdle_keeps_inv h (by rcases guard_stopHeld hg with hp | ⟨d, hp⟩ | hp <;> simp [hp])
  | stopIdle =>
    have hp := guard_stopIdle hg
    exact Bri.FlagsIn.inv (p := .idle) (h.flagsIn hp) hp

/-- Settles O42: a step that changes the BRI is a micro-op's, which makes one BRI access that an abort may follow, or an engine
step's; each keeps the invariant. -/
theorem flagsFollowBusPhase : Obligations.FlagsFollowBusPhase := by
  intro s t h hst
  have hu : BriInv s.turnTaken.bri := (turnTaken_bri s).symm ▸ h
  rcases step_bri_cases hst with e | ⟨-, -, i, -, hm⟩ | ⟨-, e, he, rfl⟩
  · exact e ▸ h
  · exact move_keeps_briInv hu hm
  · exact effect_keeps_briInv hu he

end Sys2Proof.Machine
end

section
/-! SUPPORT. What a turn does to the sequencer's registers, to caller memory, to the acknowledge enable and to the wire trace, said
once per kind of move, and the claims of spec/10_state.md and spec/20_memory.md that follow. -/

namespace Sys2Proof.Machine

/-! ### The sequencer's registers (R20, R22, R23) -/

/-- No micro-op writes a register that accept latches for the whole command (R22). -/
theorem move_operands {i : Instr} {s t : State} (h : Move i s t) :
    t.seq.op = s.seq.op ∧ t.seq.sa = s.seq.sa ∧ t.seq.ra = s.seq.ra ∧ t.seq.buf = s.seq.buf := by
  cases h with
  | poll b hi hb hp => simp [countPoll_eq]
  | fault | goes | result | received | sent | abort | finish => exact ⟨rfl, rfl, rfl, rfl⟩

/-- A micro-op leaves cursor and remaining count alone, or moves one byte from the one to the other (R165, R166). -/
theorem move_cursor {i : Instr} {s t : State} (h : Move i s t) :
    (t.seq.rem = s.seq.rem ∧ t.seq.cur = s.seq.cur) ∨
      ∃ c, takeByteCount s = .ok c ∧ t.seq.rem = some (c.rem - 1) ∧ t.seq.cur = some (c.cur + 1) := by
  cases h with
  | poll b hi hb hp => simp [countPoll_eq]
  | received b c hi hc hb => exact .inr ⟨c, hc, rfl, rfl⟩
  | sent b c hi hc hb => exact .inr ⟨c, hc, rfl, rfl⟩
  | fault | goes | result | abort | finish => exact .inl ⟨rfl, rfl⟩

/-- A step that is not the caller's and changes the sequencer is a micro-op's. -/
theorem step_seq_cases {s t : State} (h : step s = .next t) (hp : pickAgent s ≠ .caller) :
    t.seq = s.seq ∨ ∃ i, Move i s.turnTaken t := by
  obtain ⟨-, ⟨-, hm⟩ | ⟨-, hm⟩ | ⟨hc, -⟩⟩ := step_moves h
  · cases hm with
    | idle hr => exact .inl (turnTaken_seq s)
    | illegal e hr hf => exact .inl (turnTaken_seq s)
    | runs i _ hr hf he hm => exact .inr ⟨i, hm⟩
  · left
    cases hm with
    | idle => exact turnTaken_seq s
    | steps e he => exact (effect_frame _ e).seq.trans (turnTaken_seq s)
  · exact absurd hc hp

/-- Settles O46: a byte move takes 1 from `rem` and gives it to `cur`; nothing else but accept writes them. -/
theorem cursorPlusRemaining : Obligations.CursorPlusRemaining := by
  intro s t rem cur hst hp hrem hcur
  rcases step_seq_cases hst hp with e | ⟨i, hm⟩
  · exact ⟨rem, cur, e ▸ hrem, e ▸ hcur, rfl⟩
  · rcases move_cursor hm with ⟨hr, hc⟩ | ⟨c, htake, hr, hc⟩
    · rw [turnTaken_seq] at hr hc
      exact ⟨rem, cur, hr.trans hrem, hc.trans hcur, rfl⟩
    · obtain ⟨hr', -, hc', -⟩ := takeByteCount_ok htake
      simp only [turnTaken_seq, hrem, hcur, Option.some.injEq] at hr' hc'
      exact ⟨_, _, hr, hc, by rw [hr', hc']; ring⟩

/-- A command handed over to a BUSY block is refused, whatever its word (R83, R107). -/
theorem issueTurn_busy (r : Request) {s : State} (h : s.seq.run = .busy) : issueTurn r s = .next s.refuse := by
  have refuses : ∀ op, acceptRefuses op s = true := fun op => by simp [acceptRefuses, h]
  rcases issueTurn_cases r s with ⟨-, e⟩ | ⟨i, hi, e⟩
  · exact e
  · rcases decodeCommand_ok hi with rfl | rfl | rfl <;>
      simp [e, exec, execByteRead, execBurstRead, execBurstWrite, State.accept, refuses]

/-- The caller's turn leaves the sequencer alone when the block is BUSY, and when no command is handed over (R106, R107). -/
theorem callerTurn_seq {s t : State} (h : callerTurn s = .next t)
    (hc : s.seq.run = .busy ∨ ∀ r rest, s.caller ≠ .issue r :: rest ∧ s.caller ≠ .overlap r :: rest) : t.seq = s.seq := by
  rcases callerTurn_cases s with e | ⟨r, rest, ho, e⟩ | ⟨r, rest, hi, hr, e⟩ | ⟨a, b, rest, -, -, e⟩ <;> rw [e] at h
  · cases h; rfl
  · have hb : s.seq.run = .busy := hc.resolve_right fun hn => (hn r rest).2 ho
    rw [issueTurn_busy r (s := s.present r rest) hb] at h
    cases h; rfl
  · exact (hc.elim (fun hb => by simp [hr] at hb) fun hn => (hn r rest).1 hi).elim
  · cases h; rfl

/-- Settles O47: no micro-op writes them, and the caller's turn touches the sequencer only to accept a command. -/
theorem operandsFixedAtAccept : Obligations.OperandsFixedAtAccept := by
  intro s t hst hwhen
  by_cases hp : pickAgent s = .caller
  · obtain ⟨-, ⟨hq, -⟩ | ⟨hq, -⟩ | ⟨-, hturn⟩⟩ := step_cases hst
    · simp [hp] at hq
    · simp [hp] at hq
    · have e := callerTurn_seq hturn (by simpa using hwhen.resolve_left (not_not_intro hp))
      simp [e]
  · rcases step_seq_cases hst hp with e | ⟨i, hm⟩
    · simp [e]
    · simpa using move_operands hm

/-! ### Caller memory (R24, R61, R62) -/

/-- RD_DATA is the only micro-op that stores, one byte at `buf + cur` (R165). -/
theorem move_mem {i : Instr} {s t : State} (h : Move i s t) :
    t.mem = s.mem ∨
      (i = .rdData ∧ ∃ c v, takeByteCount s = .ok c ∧ t.mem = s.mem.write (bufAddr c.buf c.cur) v) := by
  cases h with
  | poll b hi hb hp => simp
  | received b c hi hc hb => exact .inr ⟨hi, c, _, hc, rfl⟩
  | fault | goes | result | sent | abort | finish => exact .inl rfl

/-- An address that reads otherwise after a write is the one written. -/
theorem eq_of_read_write_ne {m : Memory} {d a : Nat} {v : Byte} (h : (m.write d v).read a ≠ m.read a) : a = d :=
  of_not_not fun hne => h (memory_read_write_other m d a v hne)

/-- Settles O45: RD_DATA is the only micro-op that stores, and the caller's fill the only other write. -/
theorem onlyRdDataWritesMemory : Obligations.OnlyRdDataWritesMemory := by
  intro s t a _ hst hne
  obtain ⟨-, ⟨hp, hm⟩ | ⟨-, hm⟩ | ⟨hp, hm⟩⟩ := step_moves hst
  · cases hm with
    | idle hr => simp at hne
    | illegal e hr hf => simp at hne
    | runs i _ hr hf he hm =>
      rcases move_mem hm with e | ⟨rfl, c, v, hc, e⟩ <;> rw [e, turnTaken_mem] at hne
      · exact absurd rfl hne
      · obtain ⟨-, hbuf, hcur, -⟩ := takeByteCount_ok hc
        rw [turnTaken_seq] at hbuf hcur
        exact .inl ⟨hp, hr, hf, c.buf, c.cur, hbuf, hcur, eq_of_read_write_ne hne⟩
  · cases hm with
    | idle => simp at hne
    | steps e he => simp [(effect_frame s.turnTaken e).mem] at hne
  · cases hm with
    | idle => simp at hne
    | refused r rest => simp at hne
    | accepted r rest op sa ra => simp at hne
    | filled d b rest hc hr =>
      exact .inr ⟨hp, hr, d, b, rest, hc, eq_of_read_write_ne (m := s.mem) (by simpa using hne)⟩

/-! ### The wire trace and `busy` (R31, R42) -/

/-- Only the engine's turn puts events on the wire. -/
theorem step_wire {s t : State} (h : step s = .next t) :
    ∃ evs, t.wire = s.wire ++ evs ∧ (pickAgent s ≠ .engine → evs = []) := by
  obtain ⟨-, ⟨-, hm⟩ | ⟨hp, hm⟩ | ⟨-, hm⟩⟩ := step_moves h
  · refine ⟨[], ?_, fun _ => rfl⟩
    cases hm with
    | idle hr => simp
    | illegal e hr hf => simp
    | runs i _ hr hf he hm => simp [(exec_frame he).wire]
  · cases hm with
    | idle => exact ⟨[], by simp, fun _ => rfl⟩
    | steps e he =>
      obtain ⟨evs, hw⟩ := (effect_frame s.turnTaken e).wire
      exact ⟨evs, by rw [hw, turnTaken_wire], absurd hp⟩
  · refine ⟨[], ?_, fun _ => rfl⟩
    cases hm <;> simp

/-- Settles O48: the engine alone appends to the trace, and no turn of any agent changes the parameters or the store. -/
theorem wireTraceOnlyGrows : Obligations.WireTraceOnlyGrows := by
  intro s t hst
  obtain ⟨hf, -⟩ := step_cases hst
  have hfix := agentTurn_fixed (step_of_noFault hf ▸ hst)
  simp only [turnTaken_params, turnTaken_store] at hfix
  exact ⟨step_wire hst, hfix⟩

/-- No BRI access of the sequencer enters or leaves IDLE. -/
theorem briMove_idle {i : Instr} {s : State} {b : Bri} (h : BriMove i s b) : b.ph = .idle ↔ s.bri.ph = .idle := by
  cases h with
  | same | requestStop | ackOn | ackOff => rfl
  | readSr1 => simp [afterSr1_eq]
  | readSr2 =>
    unfold Bri.afterSr2 Bri.endAddrPhase
    split
    · split <;> simp_all
    · rfl
  | readDr =>
    unfold Bri.afterDr
    split
    · split <;> rfl
    · rfl
  | writeDr v _ hw => obtain ⟨-, ⟨hp, rfl⟩ | ⟨hp, -, rfl⟩⟩ := writeDr_ok hw <;> simp [hp]
  | requestStart _ hw => obtain ⟨-, rfl⟩ := requestStart_ok hw; rfl

theorem move_idle {i : Instr} {s t : State} (h : Move i s t) : t.bri.ph = .idle ↔ s.bri.ph = .idle := by
  rcases move_bri h with hb | ⟨b, -, -, hb, e, -, -⟩
  · exact briMove_idle hb
  · rw [e, release_ph]
    exact briMove_idle hb

/-- The engine leaves IDLE by E_START only, with `S` on the wire (R200). -/
theorem effect_leaves_idle {s : State} {e : EngineStep} (he : e.enabled s = true) (hp : s.bri.ph = .idle)
    (hq : (e.effect s).bri.ph ≠ .idle) : (e.effect s).wire = s.wire ++ [.start] := by
  have hg := guard_of_enabled he
  cases e with
  | start => simp [EngineStep.effect, engineStart, hp]
  | addr => simp [EngineStep.guard, hp] at hg
  | txLoad => simp [EngineStep.guard, hp] at hg
  | txDone => simp [EngineStep.guard, hp] at hg
  | rx => simp [EngineStep.guard, hp] at hg
  | stopTx | stopRxDone | stopHeld => exact absurd rfl hq
  | stopIdle => exact absurd hp hq

/-- The engine returns to IDLE with `P` as the last event (R206, R210 to R212). -/
theorem effect_returns_to_idle {s : State} {e : EngineStep} (he : e.enabled s = true) (hp : s.bri.ph ≠ .idle)
    (hq : (e.effect s).bri.ph = .idle) : ∃ evs, (e.effect s).wire = s.wire ++ evs ++ [.stop] := by
  have hg := guard_of_enabled he
  cases e with
  | start => cases hq
  | addr =>
    simp only [EngineStep.effect, engineAddr] at hq
    split at hq <;> cases hq
  | txLoad => exact absurd hq hp
  | txDone =>
    obtain ⟨hp', v, hs⟩ := guard_txDone hg
    simp only [EngineStep.effect, hs, engineTxDone] at hq
    split at hq
    · exact absurd hq hp
    · cases hq
  | rx =>
    simp only [EngineStep.effect, engineRx] at hq ⊢
    split at hq
    · exact absurd ((receive_ph _ _).symm.trans hq) hp
    · split at hq
      · exact ⟨[.receive s.slave.rxByte s.bri.ack], by simp_all⟩
      · cases hq
  | stopTx | stopRxDone | stopHeld => exact ⟨[], by simp [EngineStep.effect, engineStopTx, engineStopRxDone, engineStopHeld]⟩
  | stopIdle => exact absurd (guard_stopIdle hg) hp

/-- Settles O49: the sequencer and the caller never enter or leave IDLE; the engine leaves it with `S` and returns with `P`. -/
theorem busyRisesAtStartFallsAtStop : Obligations.BusyRisesAtStartFallsAtStop := by
  intro s
  refine ⟨by simp [State.busy], fun t hst => ?_⟩
  rcases step_bri_cases hst with e | ⟨-, -, i, -, hm⟩ | ⟨-, e, he, rfl⟩
  · exact ⟨fun hp hq => absurd (e ▸ hp) hq, fun hp hq => absurd (e ▸ hq) hp⟩
  · have hi := move_idle hm
    rw [turnTaken_bri] at hi
    exact ⟨fun hp hq => absurd (hi.2 hp) hq, fun hp hq => absurd (hi.1 hq) hp⟩
  · rw [← turnTaken_bri s, ← turnTaken_wire s]
    exact ⟨effect_leaves_idle he, effect_returns_to_idle he⟩

/-! ### The acknowledge enable (R36, R252) -/

/-- A BRI access that changes the acknowledge enable is ACK_ON's or ACK_OFF's. -/
theorem briMove_ack {i : Instr} {s : State} {b : Bri} (h : BriMove i s b) :
    b.ack = s.bri.ack ∨ (i = .ackOn ∧ b.ack = true) ∨ (i = .ackOff ∧ b.ack = false) := by
  cases h with
  | same | requestStop => exact .inl rfl
  | ackOn hi => exact .inr (.inl ⟨hi, rfl⟩)
  | ackOff hi => exact .inr (.inr ⟨hi, rfl⟩)
  | readSr1 => simp [afterSr1_eq]
  | readSr2 =>
    left
    unfold Bri.afterSr2 Bri.endAddrPhase
    split
    · split <;> rfl
    · rfl
  | readDr =>
    left
    unfold Bri.afterDr
    split
    · split <;> rfl
    · rfl
  | writeDr v _ hw => obtain ⟨-, ⟨-, rfl⟩ | ⟨-, -, rfl⟩⟩ := writeDr_ok hw <;> exact .inl rfl
  | requestStart _ hw => obtain ⟨-, rfl⟩ := requestStart_ok hw; exact .inl rfl

/-- Settles O50: a micro-op changes the acknowledge enable by ACK_ON, by ACK_OFF, or by a wait's abort in RX; an engine step never
does. -/
theorem ackEnableWriters : Obligations.AckEnableWriters := by
  intro s t hst hne
  rcases step_bri_cases hst with e | ⟨hp, hr, i, hf, hm⟩ | ⟨-, e, -, rfl⟩
  · exact absurd (congrArg Bri.ack e) hne
  · refine ⟨hp, hr, ?_⟩
    rcases move_bri hm with hb | ⟨b, hw, hc, hb, e, hready, hstatus⟩
    · rcases briMove_ack hb with e | ⟨rfl, ha⟩ | ⟨rfl, ha⟩
      · exact absurd (turnTaken_bri s ▸ e) hne
      · exact .inl ⟨hf, ha⟩
      · exact .inr (.inl ⟨hf, ha⟩)
    · have hb' : b.ack = s.bri.ack := by
        rcases briMove_ack hb with e | ⟨rfl, -⟩ | ⟨rfl, -⟩
        · exact turnTaken_bri s ▸ e
        · cases hw
        · cases hw
      have hrx : b.ph = .rx := of_not_not fun hn => hne (by rw [e, ← hb']; exact if_neg hn)
      exact .inr (.inr ⟨turnTaken_params s ▸ hc, e ▸ hrx, by rw [e]; exact if_pos hrx, hready, hstatus⟩)
  · exact absurd ((effect_frame _ e).ack.trans (congrArg Bri.ack (turnTaken_bri s))) hne

end Sys2Proof.Machine
end

section
/-! SUPPORT. The register images bit by bit (spec/10_state.md R44 to R47; log 17). -/

namespace Sys2Proof.Machine

theorem getLsbD_bitAt {k : Nat} (hk : k < 32) (b : Bool) (i : Nat) : (bitAt k b).getLsbD i = (decide (i = k) && b) := by
  cases b with
  | false => simp [bitAt]
  | true => simp [bitAt, BitVec.getLsbD_twoPow, hk, eq_comm]

/-- The bits of CR1 that the BRI holds (R44). -/
theorem cr1_mask : (0x700 : BitVec 32) = bitAt 8 true ||| bitAt 9 true ||| bitAt 10 true := by decide

theorem getLsbD_cr1Image (b : Bri) (rest : BitVec 32) (i : Nat) :
    (b.cr1Image rest).getLsbD i =
      (if i = 8 then b.start else if i = 9 then b.stop else if i = 10 then b.ack else rest.getLsbD i) := by
  have hrest : (rest.getLsbD i && decide (i < 32)) = rest.getLsbD i := by
    by_cases hi : i < 32
    · simp [hi]
    · simp [BitVec.getLsbD_of_ge rest i (by omega)]
  simp (disch := decide) only [Bri.cr1Image, cr1_mask, BitVec.getLsbD_or, BitVec.getLsbD_and, BitVec.getLsbD_not, getLsbD_bitAt]
  split_ifs with h8 h9 h10
  · subst h8; simp
  · subst h9; simp
  · subst h10; simp
  · simp only [h8, h9, h10, decide_false, Bool.false_and, Bool.or_false, Bool.not_false, Bool.and_true, hrest]

theorem getLsbD_sr1Image (s : State) (i : Nat) :
    s.sr1Image.getLsbD i =
      (if i = 0 then s.bri.sb else if i = 1 then s.bri.addr else if i = 2 then s.bri.btf else if i = 6 then s.bri.rxne
        else if i = 7 then s.bri.txe else if i = 10 then s.bri.af else false) := by
  simp (disch := decide) only [State.sr1Image, State.sr1, BitVec.getLsbD_or, getLsbD_bitAt]
  split_ifs with h0 h1 h2 h6 h7 h10 <;> simp [*]

/-- TRA is 1 in the transmitter's phases (R46). -/
theorem tra_eq (b : Bri) : b.tra = decide (b.ph = .addrAcked false ∨ b.ph = .tx ∨ b.ph = .txNacked) := by
  unfold Bri.tra
  split <;> simp_all

theorem getLsbD_sr2Image (s : State) (i : Nat) :
    s.sr2Image.getLsbD i =
      (if i = 0 then decide (s.bri.ph ≠ .idle) else if i = 1 then s.busy
        else if i = 2 then decide (s.bri.ph = .addrAcked false ∨ s.bri.ph = .tx ∨ s.bri.ph = .txNacked) else false) := by
  simp (disch := decide) only [State.sr2Image, State.sr2, Bri.msl, tra_eq, BitVec.getLsbD_or, getLsbD_bitAt]
  split_ifs with h0 h1 h2 <;> simp [*]

theorem getLsbD_drImage (b : Bri) (i : Nat) : b.drImage.getLsbD i = (decide (i < 8) && b.dr.getLsbD i) := by
  rw [Bri.drImage, BitVec.getLsbD_setWidth]
  by_cases hi : i < 8
  · simp [hi, show i < 32 by omega]
  · simp [BitVec.getLsbD_of_ge b.dr i (by omega)]

/-- Settles O53: an image is a disjunction of single bits, each the flag the spec places there. -/
theorem registerImages : Obligations.RegisterImages := fun s rest i =>
  ⟨getLsbD_cr1Image s.bri rest i, getLsbD_sr1Image s i, getLsbD_sr2Image s i, getLsbD_drImage s.bri i⟩

end Sys2Proof.Machine
end

section
/-! SUPPORT. The micro-ops that read a latch without a value (spec/10_state.md R29; log 13, 18). -/

namespace Sys2Proof.Machine

theorem sendByte_unwritten (form : Byte → Byte) (s : State) : sendByte none form s = .error .unwrittenReg := rfl

theorem takeByteCount_unwritten {s : State} (hz : s.seq.rem ≠ some 0)
    (h : s.seq.rem = none ∨ s.seq.buf = none ∨ s.seq.cur = none) : takeByteCount s = .error .unwrittenReg := by
  cases htake : takeByteCount s with
  | ok c =>
    obtain ⟨hr, hb, hc, -⟩ := takeByteCount_ok htake
    simp [hr, hb, hc] at h
  | error k =>
    rcases takeByteCount_error htake with ⟨rfl, -⟩ | ⟨-, h0⟩
    · rfl
    · exact absurd h0 hz

/-- A byte move without its operands raises their fault and makes no BRI access (R165, R166). -/
theorem exec_byteMove_error {s : State} {k : Fault} (h : takeByteCount s = .error k) :
    exec .rdData s = .next (s.raise k) ∧ exec .wrData s = .next (s.raise k) := by
  simp [exec, execRdData, execWrData, h]

/-- Settles O12: each of these micro-ops reads its latches before it makes its BRI access. -/
theorem unwrittenRegisterFaults : Obligations.UnwrittenRegisterFaults := by
  intro s
  refine ⟨fun h => ?_, fun h => ?_, fun h => ?_, fun hz h => ?_, fun h hc => ?_⟩
  · simp only [exec, execWrAddrW, execWrAddrROr, execWrAddrRInc, h, sendByte_unwritten]
    exact ⟨rfl, rfl, rfl⟩
  · simp only [exec, execWrReg, h, sendByte_unwritten]
    rfl
  · obtain ⟨hrd, hwr⟩ := exec_byteMove_error (takeByteCount_unwritten (by simp [h]) (.inl h))
    refine ⟨hrd, hwr, fun t => ?_⟩
    simp only [exec, execBrRemZero, execBrRemOne, branchOnRem_none _ _ _ h]
    exact ⟨rfl, rfl⟩
  · exact exec_byteMove_error (takeByteCount_unwritten hz (.inr h))
  · simp only [exec, execRet, hc, h, if_true, latch_none]
    rfl

end Sys2Proof.Machine
end

section
/-! SUPPORT. The canonical form of caller memory, the writes of the control and data registers, and the SR2 read of the address
clear, and the claims of spec/20_memory.md that follow (R61, R65, R67, R68; log 1, 4). -/

namespace Sys2Proof.Machine

/-! ### Caller memory (R61) -/

/-- A step leaves caller memory alone or writes one byte of the 32-bit address space: RD_DATA's or the caller's fill. -/
theorem step_mem_cases {s t : State} (h : step s = .next t) :
    t.mem = s.mem ∨ ∃ a v, a < 2 ^ 32 ∧ t.mem = s.mem.write a v := by
  obtain ⟨-, ⟨-, hm⟩ | ⟨-, hm⟩ | ⟨-, hm⟩⟩ := step_moves h
  · cases hm with
    | idle | illegal => simp
    | runs i _ hr hf he hm =>
      rcases move_mem hm with e | ⟨-, c, v, -, e⟩ <;> rw [turnTaken_mem] at e
      · exact .inl e
      · exact .inr ⟨_, v, bufAddr_lt c.buf c.cur, e⟩
  · cases hm with
    | idle => simp
    | steps e he => simp [(effect_frame s.turnTaken e).mem]
  · cases hm with
    | idle | refused | accepted => simp
    | filled a b rest => exact .inr ⟨_, b, a.isLt, by simp⟩

/-- Settles O44: the one byte a step may write is inserted in its place, or removed when it is the blank one. -/
theorem callerMemoryStaysCanonical : Obligations.CallerMemoryStaysCanonical := by
  intro s t hwf hst
  rcases step_mem_cases hst with e | ⟨a, v, ha, e⟩ <;> rw [e]
  · exact hwf
  · exact memory_write_wf _ a v ha hwf

/-! ### Control-register writes (R68) -/

theorem takesStart_iff (p : Phase) : p.takesStart = true ↔ p = .idle ∨ p = .tx ∨ p = .txNacked := by
  cases p <;> simp [Phase.takesStart]

theorem requestStart_defined {b : Bri} (h : b.stop = true ∨ b.ph = .idle ∨ b.ph = .tx ∨ b.ph = .txNacked) :
    b.requestStart = .ok { b with start := true } :=
  if_pos (by simpa [takesStart_iff] using h)

theorem requestStart_undefined {b : Bri} (h : ¬(b.stop = true ∨ b.ph = .idle ∨ b.ph = .tx ∨ b.ph = .txNacked)) :
    b.requestStart = .error .briUnspec := by
  cases hr : b.requestStart with
  | ok b' => exact absurd (requestStart_ok hr).1 h
  | error k => rw [requestStart_error hr]

/-- Settles O15: GEN_START is the START request where it is defined and its fault elsewhere; the other three writes are defined in
every state. -/
theorem controlRegisterWrites : Obligations.ControlRegisterWrites := by
  intro s
  refine ⟨fun h => ?_, fun hstop hidle htx hnacked => ?_, rfl, rfl, rfl⟩
  · simp only [exec, execGenStart, requestStart_defined h]
    rfl
  · have h : s.bri.requestStart = .error .briUnspec := requestStart_undefined (by simp [hstop, hidle, htx, hnacked])
    simp only [exec, execGenStart, h]
    rfl

/-! ### Data-register writes that are not defined (R67) -/

theorem writeDr_undefined {b : Bri} (h : b.rxne = true ∨ (b.ph ≠ .started ∧ ¬(b.ph = .tx ∧ b.txe = true))) (v : Byte) :
    b.writeDr v = .error .briUnspec := by
  cases hw : b.writeDr v with
  | error k => rw [writeDr_error hw]
  | ok b' => obtain ⟨hr, ⟨hp, -⟩ | ⟨hp, ht, -⟩⟩ := writeDr_ok hw <;> simp [*] at h

theorem sendByte_undefined {s : State} (hw : ∀ v, s.bri.writeDr v = .error .briUnspec) {x : Option Byte} (hx : x.isSome)
    (form : Byte → Byte) : sendByte x form s = .error .briUnspec := by
  obtain ⟨v, rfl⟩ := Option.isSome_iff_exists.1 hx
  simp [sendByte, hw]

/-- Settles O23: each of the five micro-ops writes DR before it changes anything, so the write's fault is all it does (R244). -/
theorem dataRegisterWriteFaults : Obligations.DataRegisterWriteFaults := by
  intro s h
  have hw := writeDr_undefined h
  refine ⟨fun hsa => ?_, fun hra => ?_, fun rem hrem hz hbuf hcur => ?_⟩
  · simp only [exec, execWrAddrW, execWrAddrROr, execWrAddrRInc, sendByte_undefined hw hsa]
    exact ⟨rfl, rfl, rfl⟩
  · simp only [exec, execWrReg, sendByte_undefined hw hra]
    rfl
  · obtain ⟨buf, hbuf⟩ := Option.isSome_iff_exists.1 hbuf
    obtain ⟨cur, hcur⟩ := Option.isSome_iff_exists.1 hcur
    simp only [exec, execWrData, takeByteCount_of hrem hz hbuf hcur, hw]
    rfl

/-! ### The SR2 read of the address clear (R65) -/

theorem endAddrPhase_transmit {b : Bri} (hp : b.ph = .addrAcked false) :
    b.endAddrPhase = { b with addr := false, ph := .tx, txe := true, btf := false } := by
  simp [Bri.endAddrPhase, hp]

theorem endAddrPhase_receive {b : Bri} (hp : b.ph = .addrAcked true) :
    b.endAddrPhase = { b with addr := false, ph := .rx } := by
  simp [Bri.endAddrPhase, hp]

theorem endAddrPhase_elsewhere {b : Bri} (hp : ∀ d, b.ph ≠ .addrAcked d) : b.endAddrPhase = { b with addr := false } := by
  unfold Bri.endAddrPhase
  split
  · next h => exact absurd h (hp false)
  · next h => exact absurd h (hp true)
  · rfl

theorem afterSr2_completes {b : Bri} (hs : b.addrSeen = true) (ha : b.addr = true) :
    b.afterSr2 = { b.endAddrPhase with addrSeen := false } :=
  if_pos (by simp [hs, ha])

theorem afterSr2_forgets {b : Bri} (h : b.addrSeen = false ∨ b.addr = false) : b.afterSr2 = { b with addrSeen := false } :=
  if_neg (by simpa [imp_iff_not_or] using h)

/-- CLR_ADDR is the SR2 read and nothing else (R150). -/
theorem exec_clrAddr (s : State) : exec .clrAddr s = .next (s.setBri s.bri.afterSr2).advance := rfl

/-- Settles O19: the read completes the two-read clear exactly when both flags are set, and then the phase decides. -/
theorem clrAddrEndsAddressPhase : Obligations.ClrAddrEndsAddressPhase := by
  intro s
  refine ⟨fun hs ha hp => ?_, fun hs ha hp => ?_, fun hs ha hp => ?_, fun h => ?_⟩ <;> rw [exec_clrAddr]
  · rw [afterSr2_completes hs ha, endAddrPhase_transmit hp]
    rfl
  · rw [afterSr2_completes hs ha, endAddrPhase_receive hp]
    rfl
  · rw [afterSr2_completes hs ha, endAddrPhase_elsewhere hp]
    rfl
  · rw [afterSr2_forgets h]
    rfl

end Sys2Proof.Machine
end

section
/-! SUPPORT. What the two decoders answer, said once over the fields of a word (spec/30_encoding.md R81 to R87), and that a word
decodes to an instruction exactly when it is the word `encode` gives that instruction. -/

namespace Sys2Proof

/-! ### Command words -/

/-- The command map of R82 on the fields `op`, `sa` and `ra`, as `decodeOpc` is the map of R86 on the fields of a micro-op. -/
def decodeOp (op : BitVec 2) (sa ra : Byte) : Except DecodeError Instr :=
  match op.toNat with
  | 0 => .ok (.byteRead sa ra)
  | 1 => .ok (.burstRead sa ra)
  | 2 => .ok (.burstWrite sa ra)
  | _ => .error .reservedOp

theorem decodeCommand_of_zeros {c : CommandWord} (h0 : cmdZ0 c = 0) (h1 : cmdZ1 c = 0) :
    decodeCommand c = decodeOp (cmdOp c) (cmdSa c) (cmdRa c) :=
  (if_neg (not_not_intro h1)).trans (if_neg (not_not_intro h0))

theorem decodeCommand_of_nonzero {c : CommandWord} (h : cmdZ0 c ≠ 0 ∨ cmdZ1 c ≠ 0) : ∃ e, decodeCommand c = .error e := by
  by_cases h1 : cmdZ1 c = 0
  · exact ⟨.reservedLow, (if_neg (not_not_intro h1)).trans (if_pos (h.resolve_right (not_not_intro h1)))⟩
  · exact ⟨.reservedHigh, if_pos h1⟩

theorem decodeCommand_commandWord (op : BitVec 2) (sa ra : Byte) :
    decodeCommand (commandWord op sa ra) = decodeOp op sa ra := by
  obtain ⟨hop, h0, hsa, hra, h1⟩ := commandWord_fields op sa ra
  rw [decodeCommand_of_zeros h0 h1, hop, hsa, hra]

/-- The code 11 is reserved; every other code is a command, the one whose word has that code (R82, R83). -/
theorem decodeOp_cases (op : BitVec 2) (sa ra : Byte) :
    (op = 0b11 ∧ ∃ e, decodeOp op sa ra = .error e) ∨
      (op ≠ 0b11 ∧ ∃ i, decodeOp op sa ra = .ok i ∧ encode i = .command (commandWord op sa ra)) := by
  have hop : op = 0 ∨ op = 1 ∨ op = 2 ∨ op = 3 := by revert op; decide
  rcases hop with rfl | rfl | rfl | rfl
  · exact .inr ⟨by decide, _, rfl, rfl⟩
  · exact .inr ⟨by decide, _, rfl, rfl⟩
  · exact .inr ⟨by decide, _, rfl, rfl⟩
  · exact .inl ⟨rfl, _, rfl⟩

/-- The reserved command words of R83. -/
theorem decodeCommand_error_iff (c : CommandWord) :
    (∃ e, decodeCommand c = .error e) ↔ cmdOp c = 0b11 ∨ cmdZ0 c ≠ 0 ∨ cmdZ1 c ≠ 0 := by
  by_cases hz : cmdZ0 c ≠ 0 ∨ cmdZ1 c ≠ 0
  · exact iff_of_true (decodeCommand_of_nonzero hz) (.inr hz)
  · obtain ⟨h0, h1⟩ : cmdZ0 c = 0 ∧ cmdZ1 c = 0 := by simpa [not_or] using hz
    rw [decodeCommand_of_zeros h0 h1, or_iff_left hz]
    rcases decodeOp_cases (cmdOp c) (cmdSa c) (cmdRa c) with ⟨hop, he⟩ | ⟨hop, i, hi, -⟩
    · exact iff_of_true he hop
    · exact iff_of_false (fun ⟨e, he⟩ => nomatch hi.symm.trans he) hop

theorem encode_of_decodeCommand {c : CommandWord} {i : Instr} (h : decodeCommand c = .ok i) : encode i = .command c := by
  by_cases hz : cmdZ0 c ≠ 0 ∨ cmdZ1 c ≠ 0
  · obtain ⟨e, he⟩ := decodeCommand_of_nonzero hz
    cases he.symm.trans h
  · obtain ⟨h0, h1⟩ : cmdZ0 c = 0 ∧ cmdZ1 c = 0 := by simpa [not_or] using hz
    rw [decodeCommand_of_zeros h0 h1] at h
    rcases decodeOp_cases (cmdOp c) (cmdSa c) (cmdRa c) with ⟨-, e, he⟩ | ⟨-, j, hj, hw⟩
    · cases he.symm.trans h
    · cases hj.symm.trans h
      rw [hw, commandWord_of_fields c h0 h1]

/-! ### Micro-op words -/

theorem decodeMicroOp_of_zero {w : MicroWord} (h : mopZ w = 0) : decodeMicroOp w = decodeOpc (mopOpc w) (mopImm w) :=
  if_neg (not_not_intro h)

theorem decodeMicroOp_of_nonzero {w : MicroWord} (h : mopZ w ≠ 0) : decodeMicroOp w = .error .illegalZ :=
  if_pos h

theorem decodeMicroOp_microWord (opc : BitVec 5) (imm : Byte) : decodeMicroOp (microWord opc imm) = decodeOpc opc imm := by
  obtain ⟨hopc, hz, himm⟩ := microWord_fields opc imm
  rw [decodeMicroOp_of_zero hz, hopc, himm]

theorem plainOp_error_iff {imm : Byte} {i : Instr} : (∃ e, plainOp imm i = .error e) ↔ imm ≠ 0 := by
  by_cases h : imm = 0
  · simp [plainOp, h]
  · exact iff_of_true ⟨_, if_neg h⟩ h

/-- The micro-opcodes that take a target in `imm8` (R84, R86). -/
def IsBranchOpc (opc : BitVec 5) : Prop := opc = 0x14 ∨ opc = 0x15 ∨ opc = 0x16

/-- The micro-opcodes that no micro-op has (R87). -/
def IsFreeOpc (opc : BitVec 5) : Prop := opc = 0x00 ∨ 0x18 ≤ opc.toNat

theorem decodeOpc_free {opc : BitVec 5} (h : IsFreeOpc opc) (imm : Byte) : decodeOpc opc imm = .error .illegalOpc := by
  rcases h with rfl | h
  · rfl
  · obtain ⟨n, hn, rfl⟩ : ∃ n < 32, opc = BitVec.ofNat 5 n := ⟨opc.toNat, opc.isLt, by simp⟩
    rw [BitVec.toNat_ofNat, Nat.mod_eq_of_lt hn] at h
    interval_cases n <;> rfl

theorem decodeOpc_branch {opc : BitVec 5} (h : IsBranchOpc opc) (imm : Byte) :
    ∃ i, decodeOpc opc imm = .ok i ∧ encode i = .microOp (microWord opc imm) := by
  rcases h with rfl | rfl | rfl <;> exact ⟨_, rfl, rfl⟩

/-- Every other micro-opcode is that of one micro-op without an operand. -/
theorem decodeOpc_plain {opc : BitVec 5} (hf : ¬IsFreeOpc opc) (hb : ¬IsBranchOpc opc) :
    ∃ i, encode i = .microOp (microWord opc 0) ∧ ∀ imm, decodeOpc opc imm = plainOp imm i := by
  obtain ⟨n, hn, rfl⟩ : ∃ n < 32, opc = BitVec.ofNat 5 n := ⟨opc.toNat, opc.isLt, by simp⟩
  simp only [IsFreeOpc, IsBranchOpc, ← BitVec.toNat_inj, BitVec.toNat_ofNat, BitVec.ofNat_eq_ofNat, Nat.reduceMod, Nat.reducePow] at hf hb
  obtain ⟨h1, h2⟩ | rfl : (1 ≤ n ∧ n ≤ 0x13) ∨ n = 0x17 := by omega
  · interval_cases n <;> exact ⟨_, rfl, fun _ => rfl⟩
  · exact ⟨.ret, rfl, fun _ => rfl⟩

/-- The illegal micro-op words of R87. -/
theorem decodeMicroOp_error_iff (w : MicroWord) :
    (∃ e, decodeMicroOp w = .error e) ↔
      IsFreeOpc (mopOpc w) ∨ mopZ w ≠ 0 ∨ (mopImm w ≠ 0 ∧ ¬IsBranchOpc (mopOpc w)) := by
  by_cases hz : mopZ w = 0
  · rw [decodeMicroOp_of_zero hz]
    by_cases hf : IsFreeOpc (mopOpc w)
    · exact iff_of_true ⟨_, decodeOpc_free hf _⟩ (.inl hf)
    by_cases hb : IsBranchOpc (mopOpc w)
    · obtain ⟨i, hi, -⟩ := decodeOpc_branch hb (mopImm w)
      simp [hi, hf, hb, hz]
    · obtain ⟨i, -, hi⟩ := decodeOpc_plain hf hb
      simp [hi, hf, hb, hz, plainOp_error_iff]
  · exact iff_of_true ⟨_, decodeMicroOp_of_nonzero hz⟩ (.inr (.inl hz))

theorem encode_of_decodeMicroOp {w : MicroWord} {i : Instr} (h : decodeMicroOp w = .ok i) : encode i = .microOp w := by
  by_cases hz : mopZ w = 0
  · rw [decodeMicroOp_of_zero hz] at h
    rw [← microWord_of_fields w hz]
    by_cases hf : IsFreeOpc (mopOpc w)
    · cases (decodeOpc_free hf _).symm.trans h
    by_cases hb : IsBranchOpc (mopOpc w)
    · obtain ⟨j, hj, hw⟩ := decodeOpc_branch hb (mopImm w)
      cases hj.symm.trans h
      exact hw
    · obtain ⟨j, hw, hj⟩ := decodeOpc_plain hf hb
      obtain ⟨himm, rfl⟩ := plainOp_ok ((hj _).symm.trans h)
      rw [himm, hw]
  · cases (decodeMicroOp_of_nonzero hz).symm.trans h

/-! ### Both formats -/

theorem decode_encode (i : Instr) : decode (encode i) = .ok i := by
  cases i with
  | byteRead sa ra => exact decodeCommand_commandWord 0b00 sa ra
  | burstRead sa ra => exact decodeCommand_commandWord 0b01 sa ra
  | burstWrite sa ra => exact decodeCommand_commandWord 0b10 sa ra
  | _ => exact decodeMicroOp_microWord _ _

theorem encode_space (i : Instr) : (encode i).space = i.space := by cases i <;> rfl

theorem encode_of_decode {c : Code} {i : Instr} (h : decode c = .ok i) : encode i = c := by
  cases c with
  | command c => exact encode_of_decodeCommand h
  | microOp w => exact encode_of_decodeMicroOp h

/-- The decoder and the encoder are inverse to each other. -/
theorem decode_ok_iff (c : Code) (i : Instr) : decode c = .ok i ↔ encode i = c :=
  ⟨encode_of_decode, fun h => h ▸ decode_encode i⟩

/-! ### Match and mask of a command word (R82) -/

theorem eq_commandWord_iff {c : CommandWord} {op : BitVec 2} {sa ra : Byte} :
    c = commandWord op sa ra ↔ cmdOp c = op ∧ cmdZ0 c = 0 ∧ cmdSa c = sa ∧ cmdRa c = ra ∧ cmdZ1 c = 0 := by
  constructor
  · rintro rfl
    exact commandWord_fields op sa ra
  · rintro ⟨rfl, h0, rfl, rfl, h1⟩
    exact (commandWord_of_fields c h0 h1).symm

/-- R82's mask keeps `op`, `z0` and `z1` and clears the operands. -/
theorem masked_fields (c : CommandWord) :
    cmdOp (c &&& 0xFF0000FF#32) = cmdOp c ∧ cmdZ0 (c &&& 0xFF0000FF#32) = cmdZ0 c ∧ cmdSa (c &&& 0xFF0000FF#32) = 0 ∧
      cmdRa (c &&& 0xFF0000FF#32) = 0 ∧ cmdZ1 (c &&& 0xFF0000FF#32) = cmdZ1 c := by
  refine ⟨?_, ?_, ?_, ?_, ?_⟩ <;> simp only [BitVec.extractLsb'_and]
  · exact BitVec.and_allOnes
  · exact BitVec.and_allOnes
  · exact BitVec.and_zero
  · exact BitVec.and_zero
  · exact BitVec.and_allOnes

/-- A word matches the row of `op` in R82 exactly when it is the word of `op` and the operands it holds. -/
theorem masked_eq_iff (c : CommandWord) (op : BitVec 2) :
    c &&& 0xFF0000FF#32 = commandWord op 0 0 ↔ commandWord op (cmdSa c) (cmdRa c) = c := by
  obtain ⟨hop, h0, hsa, hra, h1⟩ := masked_fields c
  rw [eq_commandWord_iff, eq_comm (b := c), eq_commandWord_iff, hop, h0, hsa, hra, h1]
  simp

/-- A row of the command map: match, and the instruction it spells with the operands of the word. -/
theorem matches_iff_decodes (c : CommandWord) (op : BitVec 2) {i : Instr}
    (hi : encode i = .command (commandWord op (cmdSa c) (cmdRa c))) :
    c &&& 0xFF0000FF#32 = commandWord op 0 0 ↔ decodeCommand c = .ok i := by
  rw [masked_eq_iff, ← Code.command.injEq, ← hi]
  exact (decode_ok_iff (.command c) i).symm

end Sys2Proof
end

section
/-! SUPPORT. The claims about the encoding (spec/30_encoding.md), and the turns that meet a word: the sequencer's at an illegal
micro-op, the caller's with a command. -/

namespace Sys2Proof.Machine

/-! ### Decoding and encoding (R81 to R87) -/

/-- Settles O1: each arm of `encode` builds the word whose fields its arm of the decoder reads. -/
theorem decodeOfEncode : Obligations.DecodeOfEncode := fun i =>
  ⟨decide_eq_true (encode_space i).symm, decode_encode i⟩

/-- Settles O2: an accepted word has its reserved fields 0, so it is the word of the fields the decoder read. -/
theorem encodeOfDecode : Obligations.EncodeOfDecode := by
  intro c i h
  obtain rfl := encode_of_decode h
  exact ⟨rfl, decide_eq_true (encode_space i).symm⟩

/-- Settles O3: each row of R82 is the word of its code, and a masked word is that word exactly when `z0` and `z1` are 0. -/
theorem commandWordMap : Obligations.CommandWordMap :=
  ⟨fun c => ⟨matches_iff_decodes c 0b00 rfl, matches_iff_decodes c 0b01 rfl, matches_iff_decodes c 0b10 rfl⟩, rfl, rfl, rfl⟩

/-- Settles O5: the eight words, computed. -/
theorem specWordsDecode : Obligations.SpecWordsDecode := by
  unfold Obligations.SpecWordsDecode
  decide

/-! ### The sequencer at an illegal word (R87) -/

/-- A sequencer's step at an illegal word records ILLEGAL_MICROOP and does nothing else. -/
theorem step_illegal {s : State} {e : DecodeError} (hf : s.fault = none) (hp : pickAgent s = .sequencer)
    (hr : s.seq.run = .busy) (he : fetch s = .error e) : step s = .next (s.turnTaken.raise .illegalMicroop) := by
  simp [step_of_noFault hf, hp, agentTurn, sequencerTurn, hr, fetch_turnTaken, he]

theorem sameBlock_raise_turnTaken (k : Fault) (s : State) : SameBlock s (s.turnTaken.raise k) := by simp [SameBlock]

/-- Outside the programs the image is filled with 0x0000 (R88): 256 words, looked at one by one. -/
theorem fill_outside_programs : ∀ a : MicroAddr, inProgram a = false → storeWord storeImage a = 0x0000 := by
  decide +kernel

/-- The image's word at an address decodes exactly when the address lies inside a program, and then as listed. -/
theorem image_word_cases (a : MicroAddr) :
    (inProgram a = false ∧ storeWord storeImage a = 0x0000 ∧ decodeMicroOp (storeWord storeImage a) = .error .illegalOpc) ∨
      (inProgram a = true ∧ ∃ i, (a, i) ∈ imageListing ∧ decodeMicroOp (storeWord storeImage a) = .ok i) := by
  cases hin : inProgram a with
  | false =>
    have hw := fill_outside_programs a hin
    exact .inl ⟨rfl, hw, by rw [hw]; rfl⟩
  | true =>
    obtain ⟨⟨_, i⟩, hm, rfl⟩ := listed_of_inProgram a hin
    exact .inr ⟨rfl, i, hm, image_decodes _ hm⟩

/-- The target of a branch (R85). -/
def branchTarget : Instr → Option MicroAddr
  | .brRemZero t => some t
  | .brRemOne t => some t
  | .jmp t => some t
  | _ => none

theorem listed_targets : ∀ p ∈ imageListing, (branchTarget p.2).all inProgram = true := by decide

theorem image_target_inProgram {a t : MicroAddr} {i : Instr} (h : decodeMicroOp (storeWord storeImage a) = .ok i)
    (ht : branchTarget i = some t) : inProgram t = true := by
  rcases image_word_cases a with ⟨-, -, he⟩ | ⟨-, j, hm, hj⟩
  · cases he.symm.trans h
  · cases hj.symm.trans h
    simpa [ht] using listed_targets _ hm

/-- Settles O4: the illegal words field by field, the raising turn, and the image word by word. -/
theorem illegalMicroOpWords : Obligations.IllegalMicroOpWords := by
  refine ⟨fun w => ?_, fun s e hf hp hr he => ?_, fun a e he => ?_, fun a t h => ?_⟩
  · simpa [IsFreeOpc, IsBranchOpc, or_assoc] using decodeMicroOp_error_iff w
  · exact ⟨_, step_illegal hf hp hr he, by simp, sameBlock_raise_turnTaken _ s⟩
  · rcases image_word_cases a with ⟨hin, hw, -⟩ | ⟨-, i, -, hi⟩
    · exact ⟨hw, hin⟩
    · cases hi.symm.trans he
  · rcases h with h | h | h <;> exact image_target_inProgram h rfl

/-! ### The caller's turn on a READY block (R80, R83, R100) -/

/-- A READY block that is handed a command takes it off the caller's list and runs or refuses it. -/
theorem step_issue {s : State} {r : Request} {rest : List CallerAct} (hf : s.fault = none) (hp : pickAgent s = .caller)
    (hr : s.seq.run = .ready) (hc : s.caller = .issue r :: rest) :
    step s = issueTurn r (s.turnTaken.present r rest) := by
  simp [step_of_noFault hf, hp, agentTurn, callerTurn, hr, hc]

theorem issueTurn_ok (r : Request) {i : Instr} (h : decodeCommand r.word = .ok i) (s : State) : issueTurn r s = exec i s := by
  simp [issueTurn, h]

theorem issueTurn_reserved (r : Request) {e : DecodeError} (h : decodeCommand r.word = .error e) (s : State) :
    issueTurn r s = .next s.refuse := by
  simp [issueTurn, h]

/-- Settles O7: the turn is the hand-over, and the word decodes. -/
theorem stepRunsIssuedCommand : Obligations.StepRunsIssuedCommand := by
  intro s i r rest hf hp hr hc hi
  rw [step_issue hf hp hr hc, issueTurn_ok r hi]
  rfl

/-- Settles O8: the reserved words field by field; the turn that is handed one only refuses it. -/
theorem reservedCommandRefused : Obligations.ReservedCommandRefused := by
  refine fun c => ⟨decodeCommand_error_iff c, fun s p rest ⟨e, he⟩ hf hp hr hc => ?_⟩
  refine ⟨(s.turnTaken.present ⟨c, p⟩ rest).refuse, ?_, rfl, by simp [SameBlock]⟩
  rw [step_issue hf hp hr hc, issueTurn_reserved ⟨c, p⟩ he]

end Sys2Proof.Machine
end

section
/-! SUPPORT. Accept case by case (spec/41_commands.md R100, R107), the caller that hands a command over to a BUSY block (R106), and
the claims about accept. -/

namespace Sys2Proof.Machine

/-! ### The outcomes of accept -/

/-- A BUSY block refuses every command; a burst command is refused for a buffer shorter than the count too, and for a count that
does not fit (R107). -/
theorem acceptRefuses_iff (op : BitVec 2) (s : State) :
    acceptRefuses op s = true ↔
      s.seq.run = .busy ∨ (op ≠ opByteRead ∧ (s.port.len < s.port.n ∨ 2 ^ 32 ≤ s.port.n)) := by
  simp [acceptRefuses, countFits]

theorem acceptRefuses_eq_false {op : BitVec 2} {s : State} (hr : s.seq.run = .ready)
    (hfits : op ≠ opByteRead → s.port.n ≤ s.port.len ∧ s.port.n < 2 ^ 32) : acceptRefuses op s = false := by
  rw [← Bool.not_eq_true, acceptRefuses_iff]
  rintro (hbusy | ⟨hop, hlong | hwide⟩)
  · simp [hr] at hbusy
  · exact absurd (hfits hop).1 (by omega)
  · exact absurd (hfits hop).2 (by omega)

theorem accept_refused {op : BitVec 2} {s : State} (h : acceptRefuses op s = true) (sa ra : Byte) :
    s.accept op sa ra = s.refuse := by
  simp [State.accept, h]

/-- Accept of an address that `P_ADDR_LSB` lets through starts the program (R100). -/
theorem accept_started {op : BitVec 2} {sa : Byte} {s : State} (h : acceptRefuses op s = false)
    (hn : ¬(s.params.addrLsb = .reject ∧ sa.getLsbD 0 = true)) (ra : Byte) :
    s.accept op sa ra = (s.latchCommand op sa ra).goto (entryOf op) :=
  (if_neg (by simp [h])).trans (if_neg (by simpa using hn))

/-- Under REJECT an address with bit 0 set ends the command at once (R100). -/
theorem accept_rejected {op : BitVec 2} {sa : Byte} {s : State} (h : acceptRefuses op s = false)
    (hr : s.params.addrLsb = .reject) (hb : sa.getLsbD 0 = true) (ra : Byte) :
    s.accept op sa ra = (s.latchCommand op sa ra).finish 4 := by
  simp [State.accept, h, hr, hb]

/-- Settles O13: none of the three is refused, so `P_ADDR_LSB` decides between the two ends of accept. -/
theorem commandAccept : Obligations.CommandAccept := by
  intro sa ra s hready sa' started rejected fits
  have accepts : ∀ op, (op ≠ opByteRead → fits) → acceptRefuses op s = false := fun _ => acceptRefuses_eq_false hready
  have hbyte := accepts opByteRead (absurd rfl)
  constructor
  · intro hn
    exact ⟨congrArg _ (accept_started hbyte hn ra),
      fun hf => congrArg _ (accept_started (accepts opBurstRead fun _ => hf) hn ra),
      fun hf => congrArg _ (accept_started (accepts opBurstWrite fun _ => hf) hn ra)⟩
  · intro hr hb
    exact ⟨congrArg _ (accept_rejected hbyte hr hb ra),
      fun hf => congrArg _ (accept_rejected (accepts opBurstRead fun _ => hf) hr hb ra),
      fun hf => congrArg _ (accept_rejected (accepts opBurstWrite fun _ => hf) hr hb ra)⟩

/-! ### Refusals -/

/-- A caller that does not wait for READY hands its command over all the same (R106; log 10). -/
theorem step_overlap {s : State} {r : Request} {rest : List CallerAct} (hf : s.fault = none) (hp : pickAgent s = .caller)
    (hc : s.caller = .overlap r :: rest) : step s = issueTurn r (s.turnTaken.present r rest) := by
  simp [step_of_noFault hf, hp, agentTurn, callerTurn, hc]

/-- Settles O14: each cause of R107 makes accept refuse, and so does every word that is handed over to a BUSY block. -/
theorem commandRefused : Obligations.CommandRefused := by
  intro sa ra s refused
  refine ⟨fun r ⟨e, he⟩ => issueTurn_reserved r he s, fun hbusy => ?_, fun h => ?_, fun r rest hf hp hbusy hc => ?_⟩
  · exact congrArg _ (accept_refused ((acceptRefuses_iff opByteRead s).2 (.inl hbusy)) sa ra)
  · have refuses : ∀ op, op ≠ opByteRead → acceptRefuses op s = true := fun op hop =>
      (acceptRefuses_iff op s).2 (h.imp_right fun hport => ⟨hop, hport⟩)
    exact ⟨congrArg _ (accept_refused (refuses opBurstRead (by decide)) sa ra),
      congrArg _ (accept_refused (refuses opBurstWrite (by decide)) sa ra)⟩
  · refine ⟨(s.turnTaken.present r rest).refuse, ?_, rfl, by simp [SameBlock]⟩
    rw [step_overlap hf hp hc, issueTurn_busy r (by simpa using hbusy)]

end Sys2Proof.Machine
end

section
/-! SUPPORT. Running the fixed control store under SEQ_PRIORITY, step by step: a state in the course of a program is written as the
state the program started in with an address, a BRI, a wire trace and a slave put in (`State.on`), so that a run is a chain of
equations between such states. -/

namespace Sys2Proof.Machine

/-! ### States in the course of a program -/

/-- `s` on its way through a program: at `a`, with nothing polled in vain, and `b`, `w` and `v` as its BRI, wire and slave. -/
def State.on (s : State) (a : MicroAddr) (b : Bri) (w : List WireEvent) (v : Slave) : State :=
  { s with seq := { s.seq with polls := 0, upc := a }, bri := b, wire := w, slave := v }

section
variable (s : State) (a : MicroAddr) (b : Bri) (w : List WireEvent) (v : Slave)

@[simp] theorem on_seq : (s.on a b w v).seq = { s.seq with polls := 0, upc := a } := rfl
@[simp] theorem on_bri : (s.on a b w v).bri = b := rfl
@[simp] theorem on_mem : (s.on a b w v).mem = s.mem := rfl
@[simp] theorem on_store : (s.on a b w v).store = s.store := rfl
@[simp] theorem on_wire : (s.on a b w v).wire = w := rfl
@[simp] theorem on_fault : (s.on a b w v).fault = s.fault := rfl
@[simp] theorem on_params : (s.on a b w v).params = s.params := rfl
@[simp] theorem on_slave : (s.on a b w v).slave = v := rfl
@[simp] theorem on_turns : (s.on a b w v).turns = s.turns := rfl
@[simp] theorem on_caller : (s.on a b w v).caller = s.caller := rfl
@[simp] theorem on_port : (s.on a b w v).port = s.port := rfl

end

/-- `s` in the course of a burst: memory, and how far it has come. -/
def State.burst (s : State) (m : Memory) (rem cur : Count) : State :=
  { s with mem := m, seq := { s.seq with rem := some rem, cur := some cur } }

@[simp] theorem burst_seq (s : State) (m : Memory) (rem cur : Count) :
    (s.burst m rem cur).seq = { s.seq with rem := some rem, cur := some cur } := rfl
@[simp] theorem burst_mem (s : State) (m : Memory) (rem cur : Count) : (s.burst m rem cur).mem = m := rfl
@[simp] theorem burst_params (s : State) (m : Memory) (rem cur : Count) : (s.burst m rem cur).params = s.params := rfl

/-- The BRI in a phase with every flag down, no request pending and the shift register empty. -/
def Bri.quiet (p : Phase) (ack : Bool) (dr : Byte) : Bri where
  sb := false
  addr := false
  txe := false
  btf := false
  rxne := false
  ack := ack
  start := false
  stop := false
  dr := dr
  shift := none
  af := false
  addrSeen := false
  ph := p

/-- A command executes from the fixed control store under SEQ_PRIORITY, on a live peripheral (R231). -/
structure Executing (s : State) : Prop where
  noFault : s.fault = none
  sched : s.params.sched = .seqPriority
  live : s.params.periphLive = true
  store : s.store = storeImage
  busy : s.seq.run = .busy

theorem Executing.burst {s : State} (h : Executing s) (m : Memory) (rem cur : Count) : Executing (s.burst m rem cur) := { h with }

/-! ### One step of a program -/

/-- The enabled engine step is the one R231 lets go next: no other is enabled beside it (R221). -/
theorem engineNext_of_enabled {s : State} {e : EngineStep} (h : e.enabled s = true) : engineNext s = some e := by
  have hl : s.params.periphLive = true := (Bool.and_eq_true _ _ ▸ h).1
  cases e with
  | start => simp [engineNext, engineSteps, h]
  | addr | txLoad | txDone | rx | stopRxDone | stopIdle =>
    simp_all [engineNext, engineSteps, EngineStep.enabled, EngineStep.guard, Bri.txDrained, Phase.isTx, Phase.isHeld]
  | stopTx =>
    obtain ⟨hp | hp, -⟩ := guard_stopTx (guard_of_enabled h) <;>
      simp_all [engineNext, engineSteps, EngineStep.enabled, EngineStep.guard, Bri.txDrained, Phase.isTx]
  | stopHeld =>
    obtain hp | ⟨d, hp⟩ | hp := guard_stopHeld (guard_of_enabled h) <;>
      simp_all [engineNext, engineSteps, EngineStep.enabled, EngineStep.guard, Bri.txDrained, Phase.isTx]

/-- One run after another. -/
theorem run_trans {j k : Nat} {s t u : State} (h : core.run k s = .next t) (h' : core.run j t = .next u) :
    core.run (k + j) s = .next u :=
  (run_add j k s t h).trans h'

section
variable {s : State} {a : MicroAddr} {b : Bri} {w : List WireEvent} {v : Slave} {i : Instr}

theorem Executing.on (h : Executing s) (a : MicroAddr) (b : Bri) (w : List WireEvent) (v : Slave) :
    Executing (s.on a b w v) := { h with }

/-- The sequencer runs a micro-op that is no blocked wait (R185, R231). -/
theorem Executing.microOp {t : State} (h : Executing s) (hi : (a, i) ∈ imageListing)
    (hb : waitBlocked (s.on a b w v) i = false) (he : exec i (s.on a b w v) = .next t) :
    step (s.on a b w v) = .next t :=
  have h := h.on a b w v
  (step_runs_microOp h.noFault h.sched h.busy (fetch_listed h.store rfl hi) hb).trans he

/-- At a blocked wait the engine makes the step whose guard holds (R231). -/
theorem Executing.engine {t : State} (h : Executing s) (hi : (a, i) ∈ imageListing)
    (hb : waitBlocked (s.on a b w v) i = true) (e : EngineStep) (hg : e.guard (s.on a b w v) = true)
    (he : e.effect (s.on a b w v) = t) : step (s.on a b w v) = .next t :=
  have h := h.on a b w v
  he ▸ step_runs_engine h.noFault h.sched h.busy (fetch_listed h.store rfl hi) hb
    (engineNext_of_enabled (Bool.and_eq_true_iff.2 ⟨h.live, hg⟩))

end

/-! ### The parts the programs share -/

/-- Writing a byte from a latch that holds it, where `WriteDR` is defined. -/
theorem settle_sendByte {x : Option Byte} {form : Byte → Byte} {s : State} {v : Byte} {b : Bri} (hx : x = some v)
    (hw : s.bri.writeDr (form v) = .ok b) : settle s (sendByte x form s) = .next (s.setBri b).advance := by
  simp [sendByte, hx, hw]

/-- The micro-op writes a form of the slave address (spec/44_data_transfer.md R160 to R162). -/
def SendsAddress (i : Instr) (form : Byte → Byte) : Prop :=
  ∀ s : State, waitBlocked s i = false ∧ exec i s = settle s (sendByte s.seq.sa form s)

section
variable {s : State} {a : MicroAddr} {k f : Bool} {d sa ra : Byte} {w : List WireEvent} {v : Slave} {acks dacks : List Bool}
  {bytes : List Byte} {n : Nat}

/-- GEN_START and WAIT_SB on an idle bus. -/
theorem run_start (h : Executing s) (hx : s.params.extBusy = false) (c0 : (a, .genStart) ∈ imageListing)
    (c1 : (a + 1, .waitSb) ∈ imageListing) :
    core.run 3 (s.on a { Bri.quiet .idle k d with af := f } w v) =
      .next (s.on (a + 1 + 1) { Bri.quiet .started k d with sb := true } (w ++ [WireEvent.start]) v) := calc
  _ = core.run 2 (s.on (a + 1) { Bri.quiet .idle k d with af := f, start := true } w v) :=
    run_succ_next 2 (h.microOp c0 rfl rfl)
  _ = core.run 1 (s.on (a + 1) { Bri.quiet .started k d with sb := true } (w ++ [WireEvent.start]) v) :=
    run_succ_next 1 (h.engine c1 rfl .start (by simp [EngineStep.guard, Bri.quiet, hx]) rfl)
  _ = _ := run_succ_next 0 (h.microOp c1 rfl rfl)

/-- An address byte, acknowledged: the micro-op that writes it and WAIT_ADDR. -/
theorem run_address {i : Instr} {form : Byte → Byte} (h : Executing s) (hi : SendsAddress i form) (hsa : s.seq.sa = some sa)
    (c0 : (a, i) ∈ imageListing) (c1 : (a + 1, .waitAddr) ∈ imageListing) :
    core.run 3 (s.on a { Bri.quiet .started k d with sb := true } w ⟨true :: acks, dacks, bytes, n⟩) =
      .next (s.on (a + 1 + 1)
        { Bri.quiet (.addrAcked ((form sa).getLsbD 0)) k (form sa) with addr := true, addrSeen := true }
        (w ++ [WireEvent.address (form sa) true]) ⟨acks, dacks, bytes, n⟩) := calc
  _ = core.run 2 (s.on (a + 1) (Bri.quiet .addrQueued k (form sa)) w ⟨true :: acks, dacks, bytes, n⟩) :=
    run_succ_next 2 (h.microOp c0 (hi _).1 ((hi _).2.trans (settle_sendByte hsa rfl)))
  _ = core.run 1 (s.on (a + 1) { Bri.quiet (.addrAcked ((form sa).getLsbD 0)) k (form sa) with addr := true }
        (w ++ [WireEvent.address (form sa) true]) ⟨acks, dacks, bytes, n⟩) :=
    run_succ_next 1 (h.engine c1 rfl .addr rfl rfl)
  _ = _ := run_succ_next 0 (h.microOp c1 rfl rfl)

/-- CLR_ADDR opens the transmit phase after a write address (R65). -/
theorem run_clrAddr_tx (h : Executing s) (hd : d.getLsbD 0 = false) (c0 : (a, .clrAddr) ∈ imageListing) :
    core.run 1 (s.on a { Bri.quiet (.addrAcked (d.getLsbD 0)) k d with addr := true, addrSeen := true } w v) =
      .next (s.on (a + 1) { Bri.quiet .tx k d with txe := true } w v) := by
  rw [hd]
  exact run_succ_next 0 (h.microOp c0 rfl rfl)

/-- CLR_ADDR opens the receive phase after a read address (R65). -/
theorem run_clrAddr_rx (h : Executing s) (hd : d.getLsbD 0 = true) (c0 : (a, .clrAddr) ∈ imageListing) :
    core.run 1 (s.on a { Bri.quiet (.addrAcked (d.getLsbD 0)) k d with addr := true, addrSeen := true } w v) =
      .next (s.on (a + 1) (Bri.quiet .rx k d) w v) := by
  rw [hd]
  exact run_succ_next 0 (h.microOp c0 rfl rfl)

/-- The register address and a repeated START: WR_REG, WAIT_TXE, GEN_START and WAIT_SB. The byte leaves the shift register while
WAIT_SB is blocked. -/
theorem run_restart (h : Executing s) (hra : s.seq.ra = some ra) (c0 : (a, .wrReg) ∈ imageListing)
    (c1 : (a + 1, .waitTxe) ∈ imageListing) (c2 : (a + 1 + 1, .genStart) ∈ imageListing)
    (c3 : (a + 1 + 1 + 1, .waitSb) ∈ imageListing) :
    core.run 7 (s.on a { Bri.quiet .tx k d with txe := true } w ⟨acks, true :: dacks, bytes, n⟩) =
      .next (s.on (a + 1 + 1 + 1 + 1) { Bri.quiet .started k ra with sb := true }
        (w ++ [WireEvent.transmit ra true] ++ [WireEvent.repStart]) ⟨acks, dacks, bytes, n⟩) := calc
  _ = core.run 6 (s.on (a + 1) (Bri.quiet .tx k ra) w ⟨acks, true :: dacks, bytes, n⟩) :=
    run_succ_next 6 (h.microOp c0 rfl (settle_sendByte hra rfl))
  _ = core.run 5 (s.on (a + 1) { Bri.quiet .tx k ra with txe := true, shift := some ra } w
        ⟨acks, true :: dacks, bytes, n⟩) :=
    run_succ_next 5 (h.engine c1 rfl .txLoad rfl rfl)
  _ = core.run 4 (s.on (a + 1 + 1) { Bri.quiet .tx k ra with txe := true, shift := some ra } w
        ⟨acks, true :: dacks, bytes, n⟩) :=
    run_succ_next 4 (h.microOp c1 rfl rfl)
  _ = core.run 3 (s.on (a + 1 + 1 + 1) { Bri.quiet .tx k ra with txe := true, shift := some ra, start := true } w
        ⟨acks, true :: dacks, bytes, n⟩) :=
    run_succ_next 3 (h.microOp c2 rfl rfl)
  _ = core.run 2 (s.on (a + 1 + 1 + 1) { Bri.quiet .tx k ra with txe := true, btf := true, start := true }
        (w ++ [WireEvent.transmit ra true]) ⟨acks, dacks, bytes, n⟩) :=
    run_succ_next 2 (h.engine c3 rfl .txDone rfl rfl)
  _ = core.run 1 (s.on (a + 1 + 1 + 1) { Bri.quiet .started k ra with sb := true }
        (w ++ [WireEvent.transmit ra true] ++ [WireEvent.repStart]) ⟨acks, dacks, bytes, n⟩) :=
    run_succ_next 1 (h.engine c3 rfl .start rfl rfl)
  _ = _ := run_succ_next 0 (h.microOp c3 rfl rfl)

end

end Sys2Proof.Machine
end

section
/-! SUPPORT. From accept to the data phase in an all-ACK run on a fresh bus (spec/41_commands.md R100 to R103): the parts of the
three programs up to the first data byte. -/

namespace Sys2Proof.Machine

/-! ### The fresh bus and accept -/

/-- A fresh bus shows no flag but, perhaps, an old acknowledge failure. -/
theorem FreshBus.bri_eq {s : State} (h : FreshBus s) :
    s.bri = { Bri.quiet .idle s.bri.ack s.bri.dr with af := s.bri.af } := by
  obtain ⟨-, -, -, -, -, -, hidle, hstart, hstop, hrxne, hflags⟩ := h
  obtain ⟨hsb, haddr, hseen, htxe, hbtf, hshift⟩ := hflags.flagsIn hidle
  have hnone : s.bri.shift = none := by simpa [hrxne] using hshift
  cases hb : s.bri
  simp_all [Bri.quiet]

theorem engineNext_fresh {s : State} (h : FreshBus s) : engineNext s = none := by
  simp [engineNext, engineSteps, EngineStep.enabled, EngineStep.guard, Bri.txDrained, Phase.isTx, Phase.isHeld, h.idle, h.noStart,
    h.noStop]

/-- The state `s` starts a command in: the request at the port, the operands latched. -/
def State.accepted (op : BitVec 2) (sa ra : Byte) (r : Request) (rest : List CallerAct) (s : State) : State :=
  (s.present r rest).latchCommand op sa ra

@[simp] theorem accepted_mem (op : BitVec 2) (sa ra : Byte) (r : Request) (rest : List CallerAct) (s : State) :
    (s.accepted op sa ra r rest).mem = s.mem := rfl
@[simp] theorem accepted_params (op : BitVec 2) (sa ra : Byte) (r : Request) (rest : List CallerAct) (s : State) :
    (s.accepted op sa ra r rest).params = s.params := rfl

theorem FreshBus.executing {s : State} (h : FreshBus s) (op : BitVec 2) (sa ra : Byte) (r : Request) (rest : List CallerAct) :
    Executing (s.accepted op sa ra r rest) where
  noFault := h.noFault
  sched := h.sched
  live := h.live
  store := h.store
  busy := rfl

/-- NORMALIZE changes no address with bit 0 clear (R100). -/
theorem latchedSa_of_even (p : Params) {sa : Byte} (h : sa.getLsbD 0 = false) : latchedSa p sa = sa := by
  unfold latchedSa
  split
  · revert sa; decide
  · rfl

/-- A slave whose next answers are known. -/
theorem Slave.eq_mk {v : Slave} {acks dacks : List Bool} {bytes : List Byte} (ha : v.addrAcks = acks) (hd : v.dataAcks = dacks)
    (hb : v.rxBytes = bytes) : v = ⟨acks, dacks, bytes, v.draws⟩ := by
  subst ha hd hb; rfl

/-- The caller's turn on a fresh bus: the command is accepted and its program begins. -/
theorem run_accept {s : State} {i : Instr} {op : BitVec 2} {sa ra : Byte} {r : Request} {rest : List CallerAct} (h : FreshBus s)
    (hc : s.caller = .issue r :: rest) (hd : decodeCommand r.word = .ok i)
    (hi : exec i (s.present r rest) = .next ((s.present r rest).accept op sa ra))
    (heven : sa.getLsbD 0 = false) (hfits : op ≠ opByteRead → r.port.n ≤ r.port.len ∧ r.port.n < 2 ^ 32) :
    core.run 1 s =
      .next ((s.accepted op sa ra r rest).on (entryOf op) { Bri.quiet .idle s.bri.ack s.bri.dr with af := s.bri.af } s.wire
        s.slave) := by
  have hpick : pickAgent s = .caller := by simp [pickAgent, h.sched, priorityAgent, h.ready, engineCan, engineNext_fresh h]
  have hstep : step s = .next ((s.present r rest).accept op sa ra) := by
    rw [step_issue h.noFault hpick h.ready hc, turnTaken_priority h.sched, issueTurn_ok r hd, hi]
  have hno : acceptRefuses op (s.present r rest) = false := acceptRefuses_eq_false h.ready hfits
  rw [run_succ_next 0 hstep, accept_started hno fun hn => Bool.false_ne_true (heven.symm.trans hn.2), ← h.bri_eq]
  rfl

/-! ### The address phases -/

section
variable {s : State} {a : MicroAddr} {k f : Bool} {d sa ra : Byte} {w : List WireEvent} {acks dacks : List Bool}
  {bytes : List Byte} {n : Nat}

theorem wrAddrW_sends : SendsAddress .wrAddrW addrByteW := fun _ => ⟨rfl, rfl⟩
theorem wrAddrROr_sends : SendsAddress .wrAddrROr addrByteROr := fun _ => ⟨rfl, rfl⟩
theorem wrAddrRInc_sends : SendsAddress .wrAddrRInc addrByteRInc := fun _ => ⟨rfl, rfl⟩

theorem addrByteROr_odd (sa : Byte) : (addrByteROr sa).getLsbD 0 = true := by simp [addrByteROr]

theorem addrByteRInc_odd {sa : Byte} (h : sa.getLsbD 0 = false) : (addrByteRInc sa).getLsbD 0 = true := by
  revert sa; decide

/-- From an idle bus to the transmit phase, as every program begins. -/
theorem run_toTransmit (h : Executing s) (hx : s.params.extBusy = false) (hsa : s.seq.sa = some sa)
    (heven : sa.getLsbD 0 = false) (c0 : (a, .genStart) ∈ imageListing) (c1 : (a + 1, .waitSb) ∈ imageListing)
    (c2 : (a + 1 + 1, .wrAddrW) ∈ imageListing) (c3 : (a + 1 + 1 + 1, .waitAddr) ∈ imageListing)
    (c4 : (a + 1 + 1 + 1 + 1, .clrAddr) ∈ imageListing) :
    core.run 7 (s.on a { Bri.quiet .idle k d with af := f } w ⟨true :: acks, dacks, bytes, n⟩) =
      .next (s.on (a + 1 + 1 + 1 + 1 + 1) { Bri.quiet .tx k sa with txe := true }
        (w ++ [WireEvent.start] ++ [WireEvent.address sa true]) ⟨acks, dacks, bytes, n⟩) :=
  run_trans (run_trans (run_start h hx c0 c1) (run_address h wrAddrW_sends hsa c2 c3)) (run_clrAddr_tx h heven c4)

/-- The micro-op writes the acknowledge enable (spec/42_bus_control.md R123, R124). -/
def WritesAck (i : Instr) (k : Bool) : Prop :=
  ∀ s : State, waitBlocked s i = false ∧ exec i s = .next (s.setBri (s.bri.setAck k)).advance

theorem ackOn_writes : WritesAck .ackOn true := fun _ => ⟨rfl, rfl⟩
theorem ackOff_writes : WritesAck .ackOff false := fun _ => ⟨rfl, rfl⟩

theorem run_ack {j : Instr} {b : Bri} {v : Slave} (h : Executing s) (hj : WritesAck j k) (c0 : (a, j) ∈ imageListing) :
    core.run 1 (s.on a b w v) = .next (s.on (a + 1) (b.setAck k) w v) :=
  run_succ_next 0 (h.microOp c0 (hj _).1 (hj _).2)

/-- The instructions stand in the image one after the other from an address on (spec/30_encoding.md R91). -/
def Listed (a : MicroAddr) : List Instr → Prop
  | [] => True
  | i :: is => (a, i) ∈ imageListing ∧ Listed (a + 1) is

/-- The micro-ops of a read from the idle bus to the receive phase; `i` writes the read address and `j` the acknowledge enable. -/
def readOpening (i j : Instr) : List Instr :=
  [.genStart, .waitSb, .wrAddrW, .waitAddr, .clrAddr, .wrReg, .waitTxe, .genStart, .waitSb, i, .waitAddr, j, .clrAddr]

theorem readOpening_byteRead : Listed 0x01 (readOpening .wrAddrROr .ackOff) := by
  simp only [readOpening, Listed]
  and_intros <;> decide

theorem readOpening_burstRead : Listed 0x20 (readOpening .wrAddrRInc .ackOn) := by
  simp only [readOpening, Listed]
  and_intros <;> decide

/-- From an idle bus to the receive phase: the register address is written, then a repeated START turns the bus around. -/
theorem run_toReceive {i j : Instr} {form : Byte → Byte} {k' : Bool} (h : Executing s) (hx : s.params.extBusy = false)
    (hsa : s.seq.sa = some sa) (hra : s.seq.ra = some ra) (heven : sa.getLsbD 0 = false) (hi : SendsAddress i form)
    (hodd : (form sa).getLsbD 0 = true) (hj : WritesAck j k') (hc : Listed a (readOpening i j)) :
    core.run 19 (s.on a { Bri.quiet .idle k d with af := f } w ⟨true :: true :: acks, true :: dacks, bytes, n⟩) =
      .next (s.on (a + 13) (Bri.quiet .rx k' (form sa))
        (w ++ [WireEvent.start, .address sa true, .transmit ra true, .repStart, .address (form sa) true])
        ⟨acks, dacks, bytes, n⟩) := by
  obtain ⟨c0, c1, c2, c3, c4, c5, c6, c7, c8, c9, c10, c11, c12, -⟩ := hc
  have toTransmit := run_toTransmit (k := k) (d := d) (f := f) (w := w) (acks := true :: acks) (dacks := true :: dacks)
    (bytes := bytes) (n := n) h hx hsa heven c0 c1 c2 c3 c4
  have toStarted := run_trans toTransmit (run_restart h hra c5 c6 c7 c8)
  have toAcked := run_trans toStarted (run_address h hi hsa c9 c10)
  have toAck := run_trans toAcked (run_ack h hj c11)
  have toReceive := run_trans toAck (run_clrAddr_rx (k := k') h hodd c12)
  have hw : w ++ [WireEvent.start, .address sa true, .transmit ra true, .repStart, .address (form sa) true] =
      w ++ [WireEvent.start] ++ [WireEvent.address sa true] ++ [WireEvent.transmit ra true] ++ [WireEvent.repStart] ++
        [WireEvent.address (form sa) true] := by simp
  have ha : a + 13 = a + 1 + 1 + 1 + 1 + 1 + 1 + 1 + 1 + 1 + 1 + 1 + 1 + 1 := by simp only [BitVec.add_assoc]; rfl
  rw [hw, ha]
  exact toReceive

end

end Sys2Proof.Machine
end

section
/-! SUPPORT. What the micro-ops of the data phases and RET do where they are defined, byteRead from its receive phase to its end,
and the claim about it (spec/41_commands.md R101; spec/70_reset_and_hazards.md R291). -/

namespace Sys2Proof.Machine

/-! ### What the micro-ops of the data phases do -/

/-- A wait whose condition holds makes its read and completes. -/
theorem exec_wait_met {i : Instr} {s : State} (h : isWait i = true) (hb : waitBlocked s i = false) :
    exec i s = .next (s.setBri (afterWaitRead i s.bri)).advance := by
  simp [exec_wait h, hb, State.waitStep]

theorem exec_rdData {s : State} {c : Cursor} (h : takeByteCount s = .ok c) :
    exec .rdData s =
      .next (((s.setBri s.bri.afterDr).memWrite (bufAddr c.buf c.cur) s.bri.dr).moveCursor c.cur c.rem).advance := by
  simp [exec, execRdData, h]

theorem exec_wrData {s : State} {c : Cursor} {b : Bri} (h : takeByteCount s = .ok c)
    (hw : s.bri.writeDr (s.mem.read (bufAddr c.buf c.cur)) = .ok b) :
    exec .wrData s = .next ((s.setBri b).moveCursor c.cur c.rem).advance := by
  simp [exec, execWrData, h, hw]

theorem exec_brRemZero_taken {t : MicroAddr} {s : State} (h : s.seq.rem = some 0) :
    exec (.brRemZero t) s = .next (s.goto t) := by
  rw [exec, execBrRemZero, branchOnRem_of 0 0 t s h, if_pos rfl, settle_ok]

theorem exec_brRemZero_not_taken {t : MicroAddr} {s : State} {rem : Count} (h : s.seq.rem = some rem) (hz : rem ≠ 0) :
    exec (.brRemZero t) s = .next s.advance := by
  rw [exec, execBrRemZero, branchOnRem_of 0 rem t s h, if_neg hz, settle_ok]

theorem exec_brRemOne_taken {t : MicroAddr} {s : State} (h : s.seq.rem = some 1) :
    exec (.brRemOne t) s = .next (s.goto t) := by
  rw [exec, execBrRemOne, branchOnRem_of 1 1 t s h, if_pos rfl, settle_ok]

theorem exec_brRemOne_not_taken {t : MicroAddr} {s : State} {rem : Count} (h : s.seq.rem = some rem) (ho : rem ≠ 1) :
    exec (.brRemOne t) s = .next s.advance := by
  rw [exec, execBrRemOne, branchOnRem_of 1 rem t s h, if_neg ho, settle_ok]

/-- RET's status: INCOMPLETE for a checked `burstWrite` without its STOP (spec/45_control_flow.md R183). -/
def retStatus (p : Params) (op : BitVec 2) : BitVec 3 :=
  if p.checked = true ∧ op = opBurstWrite ∧ p.emitStopOnWrite = false then 3 else 0

theorem exec_ret {s : State} {op : BitVec 2} {code : BitVec 3} (h : s.seq.op = some op) (hc : retStatus s.params op = code) :
    exec .ret s = .next (s.finish code) := by
  subst hc
  cases hk : s.params.checked <;> simp [exec, execRet, retStatus, h, hk]

/-- On a READY block the engine makes the step whose guard holds before the caller moves (R231). -/
theorem step_engine_ready {s : State} (hf : s.fault = none) (hp : s.params.sched = .seqPriority)
    (hl : s.params.periphLive = true) (hr : s.seq.run = .ready) (e : EngineStep) (hg : e.guard s = true) :
    step s = .next (e.effect s) := by
  have he : engineNext s = some e := engineNext_of_enabled (Bool.and_eq_true_iff.2 ⟨hl, hg⟩)
  rw [step_of_noFault hf, turnTaken_priority hp]
  simp [pickAgent, hp, priorityAgent, hr, engineCan, he, agentTurn, engineTurn]

/-! ### byteRead -/

section
variable {s : State} {a : MicroAddr} {k f : Bool} {d x : Byte} {w : List WireEvent} {acks dacks : List Bool}
  {bytes : List Byte} {n : Nat}

/-- The last byte of a read, refused with the STOP pending: GEN_STOP and WAIT_RXNE. -/
theorem run_lastByte (h : Executing s) (c0 : (a, .genStop) ∈ imageListing) (c1 : (a + 1, .waitRxne) ∈ imageListing) :
    core.run 3 (s.on a (Bri.quiet .rx false d) w ⟨acks, dacks, x :: bytes, n⟩) =
      .next (s.on (a + 1 + 1) { Bri.quiet .idle false x with rxne := true }
        (w ++ [WireEvent.receive x false] ++ [WireEvent.stop]) ⟨acks, dacks, bytes, n⟩) := calc
  _ = core.run 2 (s.on (a + 1) { Bri.quiet .rx false d with stop := true } w ⟨acks, dacks, x :: bytes, n⟩) :=
    run_succ_next 2 (h.microOp c0 rfl rfl)
  _ = core.run 1 (s.on (a + 1) { Bri.quiet .idle false x with rxne := true }
        (w ++ [WireEvent.receive x false] ++ [WireEvent.stop]) ⟨acks, dacks, bytes, n⟩) :=
    run_succ_next 1 (h.engine c1 rfl .rx rfl rfl)
  _ = _ := run_succ_next 0 (h.microOp c1 rfl rfl)

theorem run_waitIdle (h : Executing s) (hx : s.params.extBusy = false) {v : Slave} :
    core.run 1 (s.on 0x00 { Bri.quiet .idle k d with af := f } w v) =
      .next (s.on 0x01 { Bri.quiet .idle k d with af := f } w v) :=
  have hb : waitBlocked (s.on 0x00 { Bri.quiet .idle k d with af := f } w v) .waitIdle = false := by
    simp [waitBlocked, idleMet, State.sr2, State.busy, Bri.quiet, hx]
  run_succ_next 0 (h.microOp (i := .waitIdle) (by decide) hb (exec_wait_met rfl hb))

/-- byteRead from its receive phase to its end. -/
theorem run_byteReadEnd (h : Executing s) (hop : s.seq.op = some opByteRead) :
    core.run 5 (s.on 0x0E (Bri.quiet .rx false d) w ⟨acks, dacks, x :: bytes, n⟩) =
      .next (((s.setRes x).on 0x11 (Bri.quiet .idle false x) (w ++ [WireEvent.receive x false] ++ [WireEvent.stop])
        ⟨acks, dacks, bytes, n⟩).finish 0) :=
  have h' : Executing (s.setRes x) := { h with }
  run_trans (run_lastByte h (by decide) (by decide)) (calc
    _ = core.run 1 ((s.setRes x).on 0x11 (Bri.quiet .idle false x) (w ++ [WireEvent.receive x false] ++ [WireEvent.stop])
          ⟨acks, dacks, bytes, n⟩) :=
      run_succ_next 1 (h.microOp (i := .rdRes) (by decide) rfl rfl)
    _ = _ := run_succ_next 0 (h'.microOp (i := .ret) (by decide) rfl (exec_ret hop (by simp [retStatus]))))

end

/-- Settles O54: accept, WAIT_IDLE, the opening that both reads share, and the one byte. -/
theorem byteReadTransaction : Obligations.ByteReadTransaction := by
  intro s sa ra v r rest acks dacks bytes hf hc hd heven ha hda hb
  have h := hf.executing opByteRead sa ra r rest
  have accept := run_accept (op := opByteRead) hf hc hd rfl heven (absurd rfl)
  rw [Slave.eq_mk ha hda hb] at accept
  have waited := run_trans accept (run_waitIdle h hf.own)
  have opened := run_trans waited (run_toReceive h hf.own (congrArg some (latchedSa_of_even _ heven)) rfl heven wrAddrROr_sends
    (addrByteROr_odd sa) ackOff_writes readOpening_byteRead)
  have ended := run_trans opened (run_byteReadEnd h rfl)
  exact ⟨_, ended, by simp [addrByteROr], rfl, rfl, rfl, rfl, rfl, rfl, rfl, rfl, rfl, rfl, hf.noFault, rfl⟩

end Sys2Proof.Machine
end

section
/-! SUPPORT. The data phase of burstWrite (spec/41_commands.md R103): its loop, byte by byte, and the claims about it. -/

namespace Sys2Proof.Machine

/-- A count of one more byte, as the sequencer holds it: not 0, and 1 less after a byte. -/
theorem count_succ {n : Nat} (h : n + 1 < 2 ^ 32) :
    BitVec.ofNat 32 (n + 1) ≠ 0 ∧ BitVec.ofNat 32 (n + 1) - 1 = BitVec.ofNat 32 n := by
  constructor
  · intro h0
    have := congrArg BitVec.toNat h0
    rw [BitVec.toNat_ofNat, Nat.mod_eq_of_lt h] at this
    exact Nat.succ_ne_zero n this
  · simp [BitVec.ofNat_add]

theorem cursor_succ (cur : Count) (i : Nat) : cur + 1#32 + BitVec.ofNat 32 i = cur + BitVec.ofNat 32 (i + 1) := by
  rw [BitVec.ofNat_add, BitVec.add_assoc, BitVec.add_comm 1#32]

/-- `b` in the transmit phase with no request pending and nothing in the shift register. -/
def Bri.sending (b : Bri) (txe btf : Bool) : Bri :=
  { b with
    ph := .tx, txe := txe, btf := btf, addr := false, rxne := false, start := false, stop := false, shift := none }

theorem sending_eq {b : Bri} (hp : b.ph = .tx) (ht : b.txe = true) (hs : b.shift = none) (hr : b.rxne = false)
    (ha : b.addr = false) (hstart : b.start = false) (hstop : b.stop = false) : b.sending true b.btf = b := by
  cases b
  simp_all [Bri.sending]

section
variable {s : State} {a : MicroAddr} {x : Byte} {w : List WireEvent} {acks dacks : List Bool} {bytes : List Byte} {n : Nat}

/-- WAIT_BTF with a byte to send: the engine loads it and shifts it out, and the slave acknowledges. -/
theorem run_waitBtf {b : Bri} (h : Executing s) (c0 : (a, .waitBtf) ∈ imageListing) :
    core.run 3 (s.on a (b.sending false false) w ⟨acks, true :: dacks, bytes, n⟩) =
      .next (s.on (a + 1) (b.sending true true) (w ++ [WireEvent.transmit b.dr true]) ⟨acks, dacks, bytes, n⟩) := calc
  core.run 3 (s.on a (b.sending false false) w ⟨acks, true :: dacks, bytes, n⟩)
  _ = core.run 2 (s.on a { b.sending true false with shift := some b.dr } w ⟨acks, true :: dacks, bytes, n⟩) :=
    run_succ_next 2 (h.engine c0 rfl .txLoad rfl rfl)
  _ = core.run 1 (s.on a (b.sending true true) (w ++ [WireEvent.transmit b.dr true]) ⟨acks, dacks, bytes, n⟩) :=
    run_succ_next 1 (h.engine c0 rfl .txDone rfl rfl)
  _ = _ := run_succ_next 0 (h.microOp c0 rfl rfl)

/-- A pass of the loop after its test, from WAIT_TXE to the jump back. -/
theorem run_sendByte {b : Bri} {btf : Bool} {rem cur : Count} {buf : Addr} (h : Executing s) (hrem : s.seq.rem = some rem)
    (hz : rem ≠ 0) (hbuf : s.seq.buf = some buf) (hcur : s.seq.cur = some cur)
    (hx : s.mem.read (bufAddr buf cur) = x) :
    core.run 6 (s.on 0x49 (b.sending true btf) w ⟨acks, true :: dacks, bytes, n⟩) =
      .next ((s.moveCursor cur rem).on 0x48 (Bri.sending { b with dr := x } true true)
        (w ++ [WireEvent.transmit x true]) ⟨acks, dacks, bytes, n⟩) :=
  have h' : Executing (s.moveCursor cur rem) := { h with }
  calc
  _ = core.run 5 (s.on 0x4A (b.sending true btf) w ⟨acks, true :: dacks, bytes, n⟩) :=
    run_succ_next 5 (h.microOp (i := .waitTxe) (by decide) rfl rfl)
  _ = core.run 4 ((s.moveCursor cur rem).on 0x4B (Bri.sending { b with dr := x } false false) w
        ⟨acks, true :: dacks, bytes, n⟩) := by
    subst hx
    exact run_succ_next 4 (h.microOp (i := .wrData) (by decide) rfl
      (exec_wrData (takeByteCount_of (s := s.on ..) hrem hz hbuf hcur) rfl))
  _ = core.run 1 ((s.moveCursor cur rem).on 0x4C (Bri.sending { b with dr := x } true true)
        (w ++ [WireEvent.transmit x true]) ⟨acks, dacks, bytes, n⟩) :=
    run_add 1 3 _ _ (run_waitBtf h' (by decide))
  _ = _ := run_succ_next 0 (h'.microOp (i := .jmp 0x48) (by decide) rfl rfl)

end

/-- Settles O55: the loop's test finds a byte left, and the rest of the pass sends it. -/
theorem burstWriteLoopPass : Obligations.BurstWriteLoopPass := by
  intro s rem cur buf dacks hf hp hl hs hr hupc hrem hz hcur hbuf hph htxe hshift hrxne haddr hstart hstop hd
  have h : Executing s := ⟨hf, hp, hl, hs, hr⟩
  have test : step s = .next (s.on 0x49 (s.bri.sending true s.bri.btf) s.wire
      ⟨s.slave.addrAcks, true :: dacks, s.slave.rxBytes, s.slave.draws⟩) := by
    rw [sending_eq hph htxe hshift hrxne haddr hstart hstop, ← hd,
      step_runs_microOp hf hp hr (fetch_listed (i := .brRemZero 0x4D) hs hupc (by decide)) rfl,
      exec_brRemZero_not_taken hrem hz]
    simp [State.advance, State.goto, State.on, hupc]
  have pass := (run_succ_next 6 test).trans (run_sendByte h hrem hz hbuf hcur rfl)
  have sent : Bri.sending { s.bri with dr := s.mem.read (bufAddr buf cur) } true true =
      { s.bri with dr := s.mem.read (bufAddr buf cur), btf := true } :=
    sending_eq (b := { s.bri with dr := s.mem.read (bufAddr buf cur), btf := true }) hph htxe hshift hrxne haddr hstart hstop
  rw [sent] at pass
  simpa [State.on, hupc] using pass

/-- The event of the buffer byte at a cursor, sent and acknowledged. -/
def sentAt (m : Memory) (buf : Addr) (cur : Count) : WireEvent := .transmit (m.read (bufAddr buf cur)) true

section
variable {s : State} {k : Bool} {ra : Byte} {buf : Addr} {acks dacks : List Bool} {bytes : List Byte} {n : Nat}

/-- burstWrite's loop, pass by pass: the bytes from the cursor on are sent in order. -/
theorem run_writeLoop (h : Executing s) (hbuf : s.seq.buf = some buf) :
    ∀ (count : Nat) (cur : Count) (d : Byte) (w : List WireEvent), count < 2 ^ 32 → ∃ d',
      core.run (7 * count) ((s.burst s.mem (BitVec.ofNat 32 count) cur).on 0x48 ((Bri.quiet .tx k d).sending true true) w
          ⟨acks, List.replicate count true ++ dacks, bytes, n⟩) =
        .next ((s.burst s.mem 0 (cur + BitVec.ofNat 32 count)).on 0x48 ((Bri.quiet .tx k d').sending true true)
          (w ++ (List.range count).map fun i => sentAt s.mem buf (cur + BitVec.ofNat 32 i)) ⟨acks, dacks, bytes, n⟩)
  | 0, cur, d, w, _ => ⟨d, by simp [Host.Core.run]⟩
  | count + 1, cur, d, w, hc => by
    obtain ⟨hz, hsub⟩ := count_succ hc
    obtain ⟨d', ih⟩ := run_writeLoop h hbuf count (cur + 1) (s.mem.read (bufAddr buf cur))
      (w ++ [sentAt s.mem buf cur]) (by omega)
    have pass := burstWriteLoopPass ((s.burst s.mem (BitVec.ofNat 32 (count + 1)) cur).on 0x48
        ((Bri.quiet .tx k d).sending true true) w ⟨acks, List.replicate (count + 1) true ++ dacks, bytes, n⟩)
      (BitVec.ofNat 32 (count + 1)) cur buf (List.replicate count true ++ dacks) h.noFault h.sched h.live h.store h.busy rfl rfl hz
      rfl hbuf rfl rfl rfl rfl rfl rfl rfl rfl
    rw [hsub] at pass
    have events : w ++ (List.range (count + 1)).map (fun i => sentAt s.mem buf (cur + BitVec.ofNat 32 i)) =
        w ++ [sentAt s.mem buf cur] ++ (List.range count).map fun i => sentAt s.mem buf (cur + 1 + BitVec.ofNat 32 i) := by
      simp [List.range_succ_eq_map, cursor_succ]
    rw [events, ← cursor_succ, Nat.mul_succ, Nat.add_comm]
    exact ⟨d', run_trans pass ih⟩

/-- The register address of a write, waited for until it is out: WAIT_TXE, WR_REG and WAIT_BTF. -/
theorem run_sendRegister {d : Byte} {w : List WireEvent} (h : Executing s) (hra : s.seq.ra = some ra) :
    core.run 5 (s.on 0x45 { Bri.quiet .tx k d with txe := true } w ⟨acks, true :: dacks, bytes, n⟩) =
      .next (s.on 0x48 ((Bri.quiet .tx k ra).sending true true) (w ++ [WireEvent.transmit ra true])
        ⟨acks, dacks, bytes, n⟩) := calc
  _ = core.run 4 (s.on 0x46 { Bri.quiet .tx k d with txe := true } w ⟨acks, true :: dacks, bytes, n⟩) :=
    run_succ_next 4 (h.microOp (i := .waitTxe) (by decide) rfl rfl)
  _ = core.run 3 (s.on 0x47 ((Bri.quiet .tx k ra).sending false false) w ⟨acks, true :: dacks, bytes, n⟩) :=
    run_succ_next 3 (h.microOp (i := .wrReg) (by decide) rfl (settle_sendByte hra rfl))
  _ = _ := run_waitBtf h (by decide)

/-- burstWrite when no byte is left: the branch out of the loop, OPT_STOP and RET. -/
theorem run_writeEnd {b : Bri} {w : List WireEvent} {v : Slave} (h : Executing s) (hop : s.seq.op = some opBurstWrite)
    (hrem : s.seq.rem = some 0) :
    core.run 3 (s.on 0x48 (b.sending true true) w v) =
      .next ((s.on 0x4E { b.sending true true with stop := s.params.emitStopOnWrite } w v).finish
        (retStatus s.params opBurstWrite)) := calc
  _ = core.run 2 (s.on 0x4D (b.sending true true) w v) :=
    run_succ_next 2 (h.microOp (i := .brRemZero 0x4D) (by decide) rfl (exec_brRemZero_taken hrem))
  _ = core.run 1 (s.on 0x4E { b.sending true true with stop := s.params.emitStopOnWrite } w v) :=
    run_succ_next 1 (h.microOp (i := .optStop) (by decide) rfl (by
      cases he : s.params.emitStopOnWrite <;>
        simp [exec, execOptStop, State.on, State.advance, State.goto, State.setBri, Bri.requestStop, Bri.sending, he]))
  _ = _ := run_succ_next 0 (h.microOp (i := .ret) (by decide) rfl (exec_ret hop rfl))

/-- A STOP pending when the block is READY goes onto the wire before the caller moves. -/
theorem step_writeStop {b : Bri} {w : List WireEvent} {v : Slave} {stop : Bool} {code : BitVec 3} (h : Executing s)
    (hstop : stop = true) :
    step ((s.on 0x4E { b.sending true true with stop := stop } w v).finish code) =
      .next ((s.on 0x4E { b.sending true true with stop := stop } w v).finish code).stopBus := by
  subst hstop
  exact step_engine_ready (s := State.finish code (s.on ..)) h.noFault h.sched h.live rfl .stopTx rfl

end

/-- Settles O56: accept, the address phase, the register address, the loop by induction on the count, and the end; a pending STOP is
then the engine's next step. -/
theorem burstWriteTransaction : Obligations.BurstWriteTransaction := by
  intro s sa ra r rest acks dacks hf hc hd heven hlen hn ha hda
  have h := hf.executing opBurstWrite sa ra r rest
  have accept := run_accept (op := opBurstWrite) hf hc hd rfl heven fun _ => ⟨hlen, hn⟩
  rw [Slave.eq_mk ha hda rfl] at accept
  have opened := run_trans accept (run_toTransmit h hf.own (congrArg some (latchedSa_of_even _ heven)) heven (by decide)
    (by decide) (by decide) (by decide) (by decide))
  have addressed := run_trans opened (run_sendRegister h rfl)
  obtain ⟨d, loop⟩ := run_writeLoop (k := s.bri.ack) (acks := acks) (dacks := dacks) (bytes := s.slave.rxBytes)
    (n := s.slave.draws) h rfl r.port.n 0 ra
    (s.wire ++ [WireEvent.start] ++ [WireEvent.address sa true] ++ [WireEvent.transmit ra true]) hn
  have ended := run_trans (run_trans addressed loop) (run_writeEnd (h.burst ..) rfl rfl)
  have hsteps : 1 + (5 * r.port.n + 11) + (4 + 2 * r.port.n) = 1 + 7 + 5 + 7 * r.port.n + 3 := by omega
  rw [hsteps]
  refine ⟨_, ended, ?_, ?_, rfl, rfl, rfl, rfl, rfl, rfl, rfl, rfl, rfl, hf.noFault, rfl, fun hemit =>
    ⟨_, step_writeStop (h.burst ..) hemit, rfl, rfl, hf.own, rfl, rfl, rfl⟩⟩
  · simp [sentAt]
  · simp [retStatus]

end Sys2Proof.Machine
end

section
/-! SUPPORT. The data phase of burstRead (spec/41_commands.md R102, R114): what a buffer holds after a run of stores, the loop byte
by byte, and the claims about it. -/

namespace Sys2Proof.Machine

/-! ### A run of bytes in caller memory (R62) -/

/-- Memory after the bytes have been stored in a buffer one after the other, from a cursor on. -/
def Memory.writeAll (buf : Addr) : Memory → Count → List Byte → Memory
  | m, _, [] => m
  | m, cur, x :: xs => Memory.writeAll buf (m.write (bufAddr buf cur) x) (cur + 1) xs

theorem writeAll_snoc (buf : Addr) (x : Byte) :
    ∀ (xs : List Byte) (m : Memory) (cur : Count), m.writeAll buf cur (xs ++ [x]) =
      (m.writeAll buf cur xs).write (bufAddr buf (cur + BitVec.ofNat 32 xs.length)) x
  | [], m, cur => by simp [Memory.writeAll]
  | y :: xs, m, cur => by
    rw [List.length_cons, ← cursor_succ]
    exact writeAll_snoc buf x xs _ _

theorem read_writeAll_other (buf : Addr) (a : Nat) :
    ∀ (xs : List Byte) (m : Memory) (cur : Count), (∀ i < xs.length, a ≠ bufAddr buf (cur + BitVec.ofNat 32 i)) →
      (m.writeAll buf cur xs).read a = m.read a
  | [], m, cur, _ => rfl
  | x :: xs, m, cur, h => by
    have hrest : ∀ i < xs.length, a ≠ bufAddr buf (cur + 1#32 + BitVec.ofNat 32 i) := fun i hi => by
      rw [cursor_succ]
      exact h (i + 1) (by simpa using hi)
    have hfirst : a ≠ bufAddr buf cur := by simpa using h 0 (by simp)
    exact (read_writeAll_other buf a xs _ _ hrest).trans (memory_read_write_other m _ a x hfirst)

/-- Within 2^32 bytes the buffer's addresses are different ones. -/
theorem bufAddr_ne (buf : Addr) (cur : Count) {i : Nat} (h : i + 1 < 2 ^ 32) :
    bufAddr buf cur ≠ bufAddr buf (cur + 1#32 + BitVec.ofNat 32 i) := by
  rw [cursor_succ]
  intro he
  have hz : BitVec.ofNat 32 (i + 1) = 0 := by
    simpa [← BitVec.add_assoc] using (BitVec.eq_of_toNat_eq he).symm
  exact (count_succ h).1 hz

theorem read_writeAll_at (buf : Addr) {b : Byte} :
    ∀ (xs : List Byte) (m : Memory) (cur : Count) (i : Nat), m.wf → xs.length ≤ 2 ^ 32 → xs[i]? = some b →
      (m.writeAll buf cur xs).read (bufAddr buf (cur + BitVec.ofNat 32 i)) = b
  | x :: xs, m, cur, 0, hm, hlen, hx => by
    obtain rfl : x = b := by simpa using hx
    rw [show cur + BitVec.ofNat 32 0 = cur from BitVec.add_zero cur]
    have hrest : ∀ i < xs.length, bufAddr buf cur ≠ bufAddr buf (cur + 1#32 + BitVec.ofNat 32 i) := fun i hi =>
      bufAddr_ne buf cur (by rw [List.length_cons] at hlen; omega)
    exact (read_writeAll_other buf _ xs _ _ hrest).trans (memory_read_write_same m _ x hm)
  | x :: xs, m, cur, i + 1, hm, hlen, hx => by
    rw [← cursor_succ]
    exact read_writeAll_at buf xs _ _ i (memory_write_wf m _ x (bufAddr_lt buf cur) hm)
      (by rw [List.length_cons] at hlen; omega) (by simpa using hx)

/-! ### The data phase -/

section
variable {s : State} {d x : Byte} {w : List WireEvent} {buf : Addr} {acks dacks : List Bool} {bytes : List Byte} {n : Nat}
  {m : Memory} {rem cur : Count}

/-- RD_DATA in the course of a burst with a byte left (R165). -/
theorem exec_rdData_burst {a : MicroAddr} {b : Bri} {v : Slave} (hbuf : s.seq.buf = some buf) (hz : rem ≠ 0) :
    exec .rdData ((s.burst m rem cur).on a b w v) =
      .next ((s.burst (m.write (bufAddr buf cur) b.dr) (rem - 1) (cur + 1)).on (a + 1) b.afterDr w v) :=
  exec_rdData (takeByteCount_of (s := (s.burst m rem cur).on a b w v) rfl hz hbuf rfl)

/-- A pass of the loop with more than one byte left: the byte is received, acknowledged and stored. -/
theorem run_readPass (h : Executing s) (hbuf : s.seq.buf = some buf) (hz : rem ≠ 0) (ho : rem ≠ 1) :
    core.run 6 ((s.burst m rem cur).on 0x2D (Bri.quiet .rx true d) w ⟨acks, dacks, x :: bytes, n⟩) =
      .next ((s.burst (m.write (bufAddr buf cur) x) (rem - 1) (cur + 1)).on 0x2D (Bri.quiet .rx true x)
        (w ++ [WireEvent.receive x true]) ⟨acks, dacks, bytes, n⟩) :=
  have h' := h.burst m rem cur
  calc
  _ = core.run 5 ((s.burst m rem cur).on 0x2E (Bri.quiet .rx true d) w ⟨acks, dacks, x :: bytes, n⟩) :=
    run_succ_next 5 (h'.microOp (i := .brRemZero 0x36) (by decide) rfl (exec_brRemZero_not_taken (rem := rem) rfl hz))
  _ = core.run 4 ((s.burst m rem cur).on 0x2F (Bri.quiet .rx true d) w ⟨acks, dacks, x :: bytes, n⟩) :=
    run_succ_next 4 (h'.microOp (i := .brRemOne 0x32) (by decide) rfl (exec_brRemOne_not_taken (rem := rem) rfl ho))
  _ = core.run 3 ((s.burst m rem cur).on 0x2F { Bri.quiet .rx true x with rxne := true } (w ++ [WireEvent.receive x true])
        ⟨acks, dacks, bytes, n⟩) :=
    run_succ_next 3 (h'.engine (i := .waitRxne) (by decide) rfl .rx rfl rfl)
  _ = core.run 2 ((s.burst m rem cur).on 0x30 { Bri.quiet .rx true x with rxne := true } (w ++ [WireEvent.receive x true])
        ⟨acks, dacks, bytes, n⟩) :=
    run_succ_next 2 (h'.microOp (i := .waitRxne) (by decide) rfl rfl)
  _ = core.run 1 ((s.burst (m.write (bufAddr buf cur) x) (rem - 1) (cur + 1)).on 0x31 (Bri.quiet .rx true x)
        (w ++ [WireEvent.receive x true]) ⟨acks, dacks, bytes, n⟩) :=
    run_succ_next 1 (h'.microOp (i := .rdData) (by decide) rfl (exec_rdData_burst hbuf hz))
  _ = _ := run_succ_next 0 ((h.burst ..).microOp (i := .jmp 0x2D) (by decide) rfl rfl)

/-- The bytes before the last, pass by pass. -/
theorem run_readLoop (h : Executing s) (hbuf : s.seq.buf = some buf) :
    ∀ (first : List Byte) (m : Memory) (cur : Count) (d : Byte) (w : List WireEvent), first.length + 1 < 2 ^ 32 → ∃ d',
      core.run (6 * first.length) ((s.burst m (BitVec.ofNat 32 (first.length + 1)) cur).on 0x2D (Bri.quiet .rx true d) w
          ⟨acks, dacks, first ++ bytes, n⟩) =
        .next ((s.burst (m.writeAll buf cur first) 1 (cur + BitVec.ofNat 32 first.length)).on 0x2D (Bri.quiet .rx true d')
          (w ++ first.map fun b => WireEvent.receive b true) ⟨acks, dacks, bytes, n⟩)
  | [], m, cur, d, w, _ => ⟨d, by simp [Host.Core.run, Memory.writeAll]⟩
  | x :: first, m, cur, d, w, hlen => by
    obtain ⟨hz, hsub⟩ := count_succ hlen
    have ho : BitVec.ofNat 32 (first.length + 1 + 1) ≠ 1 := fun he => by
      rw [List.length_cons] at hlen
      exact (count_succ (n := first.length) (by omega)).1 (by simpa [he] using hsub.symm)
    obtain ⟨d', ih⟩ := run_readLoop h hbuf first (m.write (bufAddr buf cur) x) (cur + 1) x (w ++ [WireEvent.receive x true])
      (by rw [List.length_cons] at hlen; omega)
    have pass := run_readPass (m := m) (cur := cur) (d := d) (w := w) (x := x) (acks := acks) (dacks := dacks)
      (bytes := first ++ bytes) (n := n) h hbuf hz ho
    rw [hsub] at pass
    rw [List.length_cons, Nat.mul_succ, Nat.add_comm, ← cursor_succ]
    exact ⟨d', by simpa [Memory.writeAll] using run_trans pass ih⟩

/-- The last byte: it is refused, the STOP goes out, and the byte is stored. -/
theorem run_readEnd (h : Executing s) (hbuf : s.seq.buf = some buf) (hop : s.seq.op = some opBurstRead) :
    core.run 8 ((s.burst m 1 cur).on 0x2D (Bri.quiet .rx true d) w ⟨acks, dacks, x :: bytes, n⟩) =
      .next (((s.burst (m.write (bufAddr buf cur) x) 0 (cur + 1)).on 0x36 (Bri.quiet .idle false x)
        (w ++ [WireEvent.receive x false] ++ [WireEvent.stop]) ⟨acks, dacks, bytes, n⟩).finish 0) :=
  have h' := h.burst m 1 cur
  calc
  _ = core.run 7 ((s.burst m 1 cur).on 0x2E (Bri.quiet .rx true d) w ⟨acks, dacks, x :: bytes, n⟩) :=
    run_succ_next 7 (h'.microOp (i := .brRemZero 0x36) (by decide) rfl (exec_brRemZero_not_taken (rem := 1) rfl (by decide)))
  _ = core.run 6 ((s.burst m 1 cur).on 0x32 (Bri.quiet .rx true d) w ⟨acks, dacks, x :: bytes, n⟩) :=
    run_succ_next 6 (h'.microOp (i := .brRemOne 0x32) (by decide) rfl (exec_brRemOne_taken rfl))
  _ = core.run 5 ((s.burst m 1 cur).on 0x33 (Bri.quiet .rx false d) w ⟨acks, dacks, x :: bytes, n⟩) :=
    run_add 5 1 _ _ (run_ack h' ackOff_writes (by decide))
  _ = core.run 2 ((s.burst m 1 cur).on 0x35 { Bri.quiet .idle false x with rxne := true }
        (w ++ [WireEvent.receive x false] ++ [WireEvent.stop]) ⟨acks, dacks, bytes, n⟩) :=
    run_add 2 3 _ _ (run_lastByte h' (by decide) (by decide))
  _ = core.run 1 ((s.burst (m.write (bufAddr buf cur) x) 0 (cur + 1)).on 0x36 (Bri.quiet .idle false x)
        (w ++ [WireEvent.receive x false] ++ [WireEvent.stop]) ⟨acks, dacks, bytes, n⟩) :=
    run_succ_next 1 (h'.microOp (i := .rdData) (by decide) rfl (exec_rdData_burst hbuf (by decide)))
  _ = _ := run_succ_next 0 ((h.burst ..).microOp (i := .ret) (by decide) rfl (exec_ret hop (by simp [retStatus])))

/-- A read of no byte: BR_REM_ZERO is taken at once, to RET. -/
theorem run_emptyRead {b : Bri} {v : Slave} (h : Executing s) (hop : s.seq.op = some opBurstRead) (hrem : s.seq.rem = some 0) :
    core.run 2 (s.on 0x2D b w v) = .next ((s.on 0x36 b w v).finish 0) := calc
  _ = core.run 1 (s.on 0x36 b w v) :=
    run_succ_next 1 (h.microOp (i := .brRemZero 0x36) (by decide) rfl (exec_brRemZero_taken hrem))
  _ = _ := run_succ_next 0 (h.microOp (i := .ret) (by decide) rfl (exec_ret hop (by simp [retStatus])))

/-- In RX with the shift register full and nothing requested the engine holds the bus (R207). -/
theorem engineNext_held (hp : s.bri.ph = .rx) (hshift : s.bri.shift = some x) (hstart : s.bri.start = false)
    (hstop : s.bri.stop = false) : engineNext s = none := by
  simp [engineNext, engineSteps, EngineStep.enabled, EngineStep.guard, hp, hshift, hstart, hstop]

/-- The engine in an open receive phase when the block is READY: it acknowledges a byte into DR and one into the shift register
(R206, R207). -/
theorem run_twoBytes {a : MicroAddr} {y : Byte} {code : BitVec 3} (h : Executing s) :
    core.run 2 ((s.on a (Bri.quiet .rx true d) w ⟨acks, dacks, x :: y :: bytes, n⟩).finish code) =
      .next ((s.on a { Bri.quiet .rx true x with rxne := true, shift := some y, btf := true }
        (w ++ [WireEvent.receive x true] ++ [WireEvent.receive y true]) ⟨acks, dacks, bytes, n⟩).finish code) := calc
  _ = core.run 1 ((s.on a { Bri.quiet .rx true x with rxne := true } (w ++ [WireEvent.receive x true])
        ⟨acks, dacks, y :: bytes, n⟩).finish code) :=
    run_succ_next 1 (step_engine_ready (s := State.finish code (s.on ..)) h.noFault h.sched h.live rfl .rx rfl)
  _ = _ := run_succ_next 0 (step_engine_ready (s := State.finish code (s.on ..)) h.noFault h.sched h.live rfl .rx rfl)

end

/-- burstRead on a fresh bus from accept to the head of its loop. -/
theorem run_openBurstRead {s : State} {sa ra : Byte} {r : Request} {rest : List CallerAct} {acks dacks : List Bool}
    {bytes : List Byte} (hf : FreshBus s) (hc : s.caller = .issue r :: rest)
    (hd : decodeCommand r.word = .ok (.burstRead sa ra)) (heven : sa.getLsbD 0 = false)
    (hlen : r.port.n ≤ r.port.len) (hfits : r.port.n < 2 ^ 32)
    (ha : s.slave.addrAcks = true :: true :: acks) (hda : s.slave.dataAcks = true :: dacks) (hb : s.slave.rxBytes = bytes) :
    core.run (1 + 19) s = .next ((s.accepted opBurstRead sa ra r rest).on 0x2D (Bri.quiet .rx true (sa + 1))
      (s.wire ++ [WireEvent.start, .address sa true, .transmit ra true, .repStart, .address (sa + 1) true])
      ⟨acks, dacks, bytes, s.slave.draws⟩) := by
  have accept := run_accept (op := opBurstRead) hf hc hd rfl heven fun _ => ⟨hlen, hfits⟩
  rw [Slave.eq_mk ha hda hb] at accept
  exact run_trans accept (run_toReceive (hf.executing ..) hf.own (congrArg some (latchedSa_of_even _ heven)) rfl heven
    wrAddrRInc_sends (addrByteRInc_odd heven) ackOn_writes readOpening_burstRead)

/-- Settles O57: accept, the opening that both reads share, the loop by induction on the bytes, and the last byte; what the buffer
then holds is what the run of stores leaves. -/
theorem burstReadTransaction : Obligations.BurstReadTransaction := by
  intro s sa ra ⟨word, n, buf, len⟩ rest acks dacks first last bytes hf hm hc hd heven hn hlen hfits ha hda hb
  obtain rfl : n = first.length + 1 := hn
  have h := hf.executing opBurstRead sa ra ⟨word, first.length + 1, buf, len⟩ rest
  have opened := run_openBurstRead hf hc hd heven hlen hfits ha hda hb
  obtain ⟨d, loop⟩ := run_readLoop (acks := acks) (dacks := dacks) (bytes := last :: bytes) (n := s.slave.draws) h rfl
    first s.mem 0 (sa + 1) (s.wire ++ [WireEvent.start, .address sa true, .transmit ra true, .repStart, .address (sa + 1) true])
    hfits
  have ended := run_trans (run_trans opened loop) (run_readEnd h rfl rfl)
  have hsteps : 1 + (5 * (first.length + 1) + 15) + (6 + (first.length + 1)) = 1 + 19 + 6 * first.length + 8 := by omega
  rw [← writeAll_snoc] at ended
  rw [hsteps]
  refine ⟨_, ended, ?_, rfl, ?_, rfl, rfl, rfl, rfl, hf.noFault, rfl, fun i b hi => ?_, fun a hother => ?_⟩
  · simp
  · exact congrArg some (by simp [BitVec.ofNat_add])
  · have := read_writeAll_at buf (first ++ [last]) s.mem 0 i hm (by simpa using hfits.le) hi
    simpa using this
  · have := read_writeAll_other buf a (first ++ [last]) s.mem 0 fun i hi => by simpa using hother i (by simpa using hi)
    simpa using this

/-- Settles O58: the opening that both reads share, and with no byte to read the end of the command at once; the engine then
receives two bytes, after which no step of it is enabled. -/
theorem burstReadOfNothing : Obligations.BurstReadOfNothing := by
  intro s sa ra v w ⟨word, n, buf, len⟩ rest acks dacks bytes hf hc hd heven hn ha hda hb
  obtain rfl : n = 0 := hn
  have h := hf.executing opBurstRead sa ra ⟨word, 0, buf, len⟩ rest
  have opened := run_openBurstRead hf hc hd heven (Nat.zero_le _) (Nat.two_pow_pos 32) ha hda hb
  have ended := run_trans opened (run_emptyRead h rfl rfl)
  exact ⟨_, _, ended, run_twoBytes h, rfl, rfl, rfl, rfl, rfl, rfl, by simp, rfl, rfl, rfl, rfl, rfl, rfl,
    hf.noFault, engineNext_held rfl rfl rfl rfl, rfl⟩

end Sys2Proof.Machine
end

section
/-! SUPPORT. OPT_STOP for each value of its parameter, and the claim of spec/42_bus_control.md about it (R122). -/

namespace Sys2Proof.Machine

/-- With P_EMIT_STOP_ON_WRITE the micro-op is the write of GEN_STOP (R121, R122). -/
theorem exec_optStop_emitting {s : State} (h : s.params.emitStopOnWrite = true) :
    exec .optStop s = .next (s.setBri s.bri.requestStop).advance := by
  simp only [exec, execOptStop, if_pos h]

/-- Without it the micro-op only goes on (R122). -/
theorem exec_optStop_silent {s : State} (h : ¬s.params.emitStopOnWrite = true) : exec .optStop s = .next s.advance := by
  simp only [exec, execOptStop, if_neg h]

/-- Settles O16: the parameter decides between the STOP request and no write at all. -/
theorem optStopFollowsParameter : Obligations.OptStopFollowsParameter := by
  intro s
  by_cases h : s.params.emitStopOnWrite = true
  · rw [exec_optStop_emitting h, if_pos h]
    rfl
  · rw [exec_optStop_silent h, if_neg h]
    rfl

end Sys2Proof.Machine
end

section
/-! SUPPORT. The outcomes of a poll that does not complete its wait, when each wait is blocked, and the claims of
spec/43_flag_waits.md about the waits (R140 to R149). -/

namespace Sys2Proof.Machine

/-! ### A poll whose condition is false (R140, R141) -/

section
variable {s : State}

theorem waitStep_noAck (hc : s.params.checked = true) : s.waitStep false true = s.abort 2 := by
  simpa [hc] using waitStep_cases false true s

theorem waitStep_timeout (hc : s.params.checked = true) (hp : s.params.pollBudget ≤ s.seq.polls + 1) :
    s.waitStep false false = s.abort 1 := by
  simpa [hc, hp, Nat.not_lt.mpr hp] using waitStep_cases false false s

theorem waitStep_counted (hc : s.params.checked = true) (hp : s.seq.polls + 1 < s.params.pollBudget) :
    s.waitStep false false = { s with seq := { s.seq with polls := s.seq.polls + 1 } } := by
  simpa [hc, hp, Nat.not_le.mpr hp] using waitStep_cases false false s

/-- In faithful mode not even the acknowledge failure ends the wait (R141). -/
theorem waitStep_faithful (nak : Bool) (hc : s.params.checked = false) : s.waitStep false nak = s := by
  simpa [hc] using waitStep_cases false nak s

end

/-! ### The poll of a blocked wait: its read, then the outcome -/

section
variable {i : Instr} {s : State}

theorem exec_wait_noAck (hi : isWait i = true) (hb : waitBlocked s i = true) (hc : s.params.checked = true)
    (ha : i = .waitAddr) (haf : s.bri.af = true) : exec i s = .next ((s.setBri (afterWaitRead i s.bri)).abort 2) := by
  rw [exec_wait hi, hb, if_pos ha, haf]
  exact congrArg _ (waitStep_noAck hc)

/-- But for WAIT_ADDR's acknowledge failure, the poll of a blocked wait shows none (R143). -/
theorem exec_wait_unmet (hi : isWait i = true) (hb : waitBlocked s i = true) (hn : ¬(i = .waitAddr ∧ s.bri.af = true)) :
    exec i s = .next ((s.setBri (afterWaitRead i s.bri)).waitStep false false) := by
  have hnak : (if i = .waitAddr then s.bri.af else false) = false := by
    split
    · next ha => simpa [ha] using hn
    · rfl
  rw [exec_wait hi, hb, hnak]
  rfl

theorem exec_wait_faithful (hi : isWait i = true) (hb : waitBlocked s i = true) (hc : s.params.checked = false) :
    exec i s = .next (s.setBri (afterWaitRead i s.bri)) := by
  rw [exec_wait hi, hb]
  exact congrArg _ (waitStep_faithful _ hc)

end

/-! ### When a wait is blocked (R144 to R149) -/

@[simp] theorem waitBlocked_waitIdle (s : State) : waitBlocked s .waitIdle = s.busy := Bool.not_not _
@[simp] theorem waitBlocked_waitSb (s : State) : waitBlocked s .waitSb = !s.bri.sb := rfl
@[simp] theorem waitBlocked_waitAddr (s : State) : waitBlocked s .waitAddr = !s.bri.addr := rfl
@[simp] theorem waitBlocked_waitTxe (s : State) : waitBlocked s .waitTxe = !s.bri.txe := rfl
@[simp] theorem waitBlocked_waitBtf (s : State) : waitBlocked s .waitBtf = !s.bri.btf := rfl
@[simp] theorem waitBlocked_waitRxne (s : State) : waitBlocked s .waitRxne = !s.bri.rxne := rfl

/-! ### The read of a wait (R142) -/

theorem afterWaitRead_waitIdle (b : Bri) : afterWaitRead .waitIdle b = b.afterSr2 := rfl

theorem afterWaitRead_sr1 {i : Instr} (h : i ≠ .waitIdle) (b : Bri) :
    afterWaitRead i b = { b with addrSeen := b.addr || b.addrSeen } := by
  rw [afterWaitRead, if_neg h, afterSr1_eq]

/-- A wait on SR1 that is not blocked completes, and beside that its read sets `addrSeen` when `addr = 1` (R64). -/
theorem exec_sr1Wait_met {i : Instr} {s : State} (hi : isWait i = true) (h : i ≠ .waitIdle) (hb : waitBlocked s i = false) :
    exec i s = .next (s.setBri { s.bri with addrSeen := s.bri.addr || s.bri.addrSeen }).advance := by
  rw [exec_wait_met hi hb, afterWaitRead_sr1 h]

/-- Settles O18: the condition, the mode, WAIT_ADDR's acknowledge failure and the poll budget decide, in this order, after the
read. -/
theorem waitPollOutcome : Obligations.WaitPollOutcome := by
  intro i s hi
  refine ⟨exec_wait_met hi, exec_wait_noAck hi, fun hb hc hn hp => ?_, fun hb hc hn hp => ?_, exec_wait_faithful hi,
    ?_, ?_, ?_, ?_, ?_, ?_, fun h => afterWaitRead_sr1 h _, fun h => ?_⟩
  · rw [exec_wait_unmet hi hb hn]
    exact congrArg _ (waitStep_timeout hc hp)
  · rw [exec_wait_unmet hi hb hn]
    exact congrArg _ (waitStep_counted hc hp)
  · simp [State.busy]
  · simp
  · simp
  · simp
  · simp
  · simp
  · exact ⟨_, exec_clrAddr s, h ▸ afterWaitRead_waitIdle s.bri⟩

/-- Settles O17: none of the six is blocked, and the read's side effect is that of its register. -/
theorem waitsComplete : Obligations.WaitsComplete := by
  intro s
  refine ⟨fun hp hx ha => ?_, fun h => ?_, fun h => ?_, fun h => ?_, fun h => ?_, fun h => ?_⟩
  · have hb : waitBlocked s .waitIdle = false := by simp [State.busy, hp, hx]
    rw [exec_wait_met rfl hb, afterWaitRead_waitIdle, afterSr2_forgets (.inr ha)]
    rfl
  · exact exec_sr1Wait_met rfl (by simp) (by simp [h])
  · rw [exec_sr1Wait_met rfl (by simp) (by simp [h]), h]
    rfl
  · exact exec_sr1Wait_met rfl (by simp) (by simp [h])
  · exact exec_sr1Wait_met rfl (by simp) (by simp [h])
  · exact exec_sr1Wait_met rfl (by simp) (by simp [h])

end Sys2Proof.Machine
end

section
/-! SUPPORT. The defined writes and the reads of the data register by each micro-op of spec/44_data_transfer.md, the two forms of a
read-direction address byte, and the claims of that chapter (R160 to R166; log 5, 12). -/

namespace Sys2Proof.Machine

/-! ### The byte written (R160 to R163) -/

/-- Where `WriteDR` is defined for every byte, the three address micro-ops write their forms of `sa` and go on. -/
theorem exec_wrAddr_defined {s : State} {sa : Byte} {after : Byte → Bri} (hw : ∀ v, s.bri.writeDr v = .ok (after v))
    (hsa : s.seq.sa = some sa) :
    exec .wrAddrW s = .next (s.setBri (after (addrByteW sa))).advance ∧
      exec .wrAddrROr s = .next (s.setBri (after (addrByteROr sa))).advance ∧
      exec .wrAddrRInc s = .next (s.setBri (after (addrByteRInc sa))).advance :=
  ⟨(wrAddrW_sends s).2.trans (settle_sendByte hsa (hw _)), (wrAddrROr_sends s).2.trans (settle_sendByte hsa (hw _)),
    (wrAddrRInc_sends s).2.trans (settle_sendByte hsa (hw _))⟩

theorem exec_wrReg_defined {s : State} {ra : Byte} {b : Bri} (hw : s.bri.writeDr (regByte ra) = .ok b)
    (hra : s.seq.ra = some ra) : exec .wrReg s = .next (s.setBri b).advance :=
  settle_sendByte hra hw

/-- Settles O21: in STARTED `WriteDR` queues whatever byte it is given. -/
theorem addressByteQueued : Obligations.AddressByteQueued := by
  intro s v hr hp
  have hw := fun b => writeDr_started b s.bri hr hp
  exact ⟨exec_wrAddr_defined hw, exec_wrReg_defined (hw v)⟩

/-- Settles O22: in TX with `txe = 1` `WriteDR` takes whatever byte it is given as data. -/
theorem dataByteWritten : Obligations.DataByteWritten := by
  intro s v hr hp ht
  have hw := fun b => writeDr_tx b s.bri hr hp ht
  exact ⟨exec_wrReg_defined (hw v), exec_wrAddr_defined hw⟩

/-! ### The two read-direction bytes (R161, R162) -/

/-- Adding 1 flips bit 0. -/
theorem addrByteRInc_bit0 (sa : Byte) : (addrByteRInc sa).getLsbD 0 = !sa.getLsbD 0 := by
  simp [addrByteRInc, BitVec.getElem_add]

/-- With bit 0 clear the sum carries nothing, so it is the bitwise or. -/
theorem addrByteROr_eq_addrByteRInc {sa : Byte} (h : sa.getLsbD 0 = false) : addrByteROr sa = addrByteRInc sa := by
  have hdisjoint : sa &&& 0x01 = 0 := by
    ext i hi
    cases i <;> simp_all
  exact (BitVec.add_eq_or_of_and_eq_zero sa 0x01 hdisjoint).symm

theorem addrByteROr_keeps_upper (sa : Byte) : (addrByteROr sa).extractLsb' 1 7 = sa.extractLsb' 1 7 := by
  ext i hi
  simp [addrByteROr]

/-- Settles O24: bit 0 of `sa | 1` is set, and bit 0 of the sum is set exactly when that of `sa` is clear. -/
theorem readDirectionBytes : Obligations.ReadDirectionBytes := by
  intro sa
  refine ⟨⟨fun h => ?_, addrByteROr_eq_addrByteRInc⟩, addrByteROr_odd sa, addrByteROr_keeps_upper sa, BitVec.toNat_add sa 1⟩
  have hodd : (addrByteRInc sa).getLsbD 0 = true := h ▸ addrByteROr_odd sa
  rwa [addrByteRInc_bit0, Bool.not_eq_true'] at hodd

/-! ### The byte read (R66, R164, R165; log 12) -/

theorem afterDr_shifted {b : Bri} {v : Byte} (hr : b.rxne = true) (hs : b.shift = some v) :
    b.afterDr = { b with dr := v, shift := none, btf := false } := by
  simp [Bri.afterDr, hr, hs]

theorem afterDr_emptied {b : Bri} (hr : b.rxne = true) (hs : b.shift = none) : b.afterDr = { b with rxne := false } := by
  simp [Bri.afterDr, hr, hs]

theorem afterDr_unchanged {b : Bri} (hr : b.rxne = false) : b.afterDr = b := by
  simp [Bri.afterDr, hr]

/-- RD_RES is the DR read into `res` and nothing else (R164). -/
theorem exec_rdRes (s : State) : exec .rdRes s = .next ((s.setBri s.bri.afterDr).setRes s.bri.dr).advance := rfl

/-- Settles O25: the byte read is `dr` as it was before the pop. -/
theorem rdResTakesByte : Obligations.RdResTakesByte := by
  intro s
  refine ⟨fun v hr hs => ?_, fun hr hs => ?_, fun hr => ?_⟩ <;> rw [exec_rdRes]
  · rw [afterDr_shifted hr hs]
    rfl
  · rw [afterDr_emptied hr hs]
    rfl
  · rw [afterDr_unchanged hr]
    rfl

/-! ### The byte moves of a burst (R165, R166; log 5) -/

/-- Settles O26: with its operands there RD_DATA is one memory write and one DR read, and the laws of each say the rest. -/
theorem rdDataStoresByte : Obligations.RdDataStoresByte := by
  intro s rem cur buf hwf hrem hz hbuf hcur
  exact ⟨_, exec_rdData (takeByteCount_of hrem hz hbuf hcur), memory_read_write_same _ _ _ hwf,
    fun a ha => memory_read_write_other _ _ a _ ha, fun _ hr hs => afterDr_shifted hr hs, afterDr_emptied, afterDr_unchanged, rfl⟩

/-- Settles O27: with its operands there WR_DATA is the DR write of the byte at the cursor, which the phase decides. -/
theorem wrDataSendsByte : Obligations.WrDataSendsByte := by
  intro s rem cur buf hrem hz hbuf hcur hr
  have htake := takeByteCount_of hrem hz hbuf hcur
  exact ⟨fun hp ht => exec_wrData htake (writeDr_tx _ _ hr hp ht), fun hp => exec_wrData htake (writeDr_started _ _ hr hp)⟩

/-- No byte remains to move (R165, R166). -/
theorem takeByteCount_overrun {s : State} (h : s.seq.rem = some 0) : takeByteCount s = .error .bufOverrun := by
  simp [takeByteCount, h]

/-- Settles O28: both moves read `rem` before they touch the BRI or memory. -/
theorem byteMoveOverrun : Obligations.ByteMoveOverrun := fun _ h =>
  exec_byteMove_error (takeByteCount_overrun h)

end Sys2Proof.Machine
end

section
/-! SUPPORT. The sequencer's own step, and the claims about it, the branches and RET (spec/45_control_flow.md R180 to R185). -/

namespace Sys2Proof.Machine

/-! ### The sequencer's step (R185) -/

theorem sequencerTurn_fetched {s : State} {i : Instr} (hr : s.seq.run = .busy) (hi : fetch s = .ok i) :
    sequencerTurn s = exec i s := by
  simp [sequencerTurn, hr, hi]

/-- Settles O6: using up the scheduler's choice changes neither `run` nor the word fetched. -/
theorem stepRunsFetchedMicroOp : Obligations.StepRunsFetchedMicroOp := by
  intro s i hf hp hr hd
  have hrun : s.turnTaken.seq.run = .busy := (congrArg Seq.run (turnTaken_seq s)).trans hr
  have hfetch : fetch s.turnTaken = .ok i := (fetch_turnTaken s).trans hd
  calc step s = agentTurn (pickAgent s) s.turnTaken := step_of_noFault hf
    _ = sequencerTurn s.turnTaken := by rw [hp, agentTurn]
    _ = exec i s.turnTaken := sequencerTurn_fetched hrun hfetch

/-! ### The branches (R180 to R182) -/

/-- Settles O29: the value in `rem` decides each branch, and `advance` goes to `upc + 1`. -/
theorem branchTargets : Obligations.BranchTargets := by
  intro s t rem
  refine ⟨fun hrem => ⟨?zero, ?one⟩, rfl⟩
  case zero =>
    split
    · next hz => exact exec_brRemZero_taken (hz ▸ hrem)
    · next hz => exact exec_brRemZero_not_taken hrem hz
  case one =>
    split
    · next ho => exact exec_brRemOne_taken (ho ▸ hrem)
    · next ho => exact exec_brRemOne_not_taken hrem ho

/-! ### RET (R183, R184) -/

/-- In faithful mode RET does not read `op` (log 13). -/
theorem exec_ret_faithful {s : State} (h : s.params.checked = false) : exec .ret s = .next (s.finish 0) := by
  simp [exec, execRet, h]

/-- Settles O30: `finish` is the whole effect, and in checked mode `op` and the parameter give its code. -/
theorem retCompletes : Obligations.RetCompletes := fun _ =>
  ⟨exec_ret_faithful, fun _ hc hop => exec_ret hop (by simp [retStatus, hc])⟩

end Sys2Proof.Machine
end

section
/-! SUPPORT. The bus engine's turn, said once per step: exactly when the step is the enabled one, and what can be the cause of any;
and the claims of spec/46_bus_engine.md R200 to R216 and R221. -/

namespace Sys2Proof.Machine

/-! ### The enabled step (R221) -/

theorem engineNext_iff {s : State} {e : EngineStep} : engineNext s = some e ↔ e.enabled s = true :=
  ⟨List.find?_some, engineNext_of_enabled⟩

theorem engineNext_none_iff {s : State} : engineNext s = none ↔ ∀ e : EngineStep, e.enabled s = false := by
  refine ⟨engineNext_none, fun h => Option.eq_none_iff_forall_ne_some.2 fun e he => ?_⟩
  simp [engineNext_iff, h e] at he

theorem engineTurn_of_next {s : State} {e : EngineStep} (h : engineNext s = some e) : engineTurn s = e.effect s := by
  simp [engineTurn, h]

theorem engineTurn_of_none {s : State} (h : engineNext s = none) : engineTurn s = s := by
  simp [engineTurn, h]

/-- Settles O31: the engine's search finds any step that is enabled, and it finds one step. -/
theorem engineStepsExclusive : Obligations.EngineStepsExclusive := fun _ _ _ he hf =>
  Option.some.inj ((engineNext_of_enabled he).symm.trans (engineNext_of_enabled hf))

/-! ### When each step is the enabled one (R200 to R213, R215) -/

section
variable {s : State}

theorem engineNext_start_iff :
    engineNext s = some .start ↔
      s.params.periphLive = true ∧ s.bri.start = true ∧ s.bri.stop = false ∧
        ((s.bri.ph = .idle ∧ s.params.extBusy = false) ∨
          ((s.bri.ph = .tx ∨ s.bri.ph = .txNacked) ∧ s.bri.shift = none ∧ (s.bri.txe = true ∨ s.bri.ph = .txNacked))) := by
  simp [engineNext_iff, EngineStep.enabled, EngineStep.guard, txDrained_iff, and_assoc]

theorem engineNext_addr_iff : engineNext s = some .addr ↔ s.params.periphLive = true ∧ s.bri.ph = .addrQueued := by
  simp [engineNext_iff, EngineStep.enabled, EngineStep.guard]

theorem engineNext_txLoad_iff :
    engineNext s = some .txLoad ↔ s.params.periphLive = true ∧ s.bri.ph = .tx ∧ s.bri.txe = false ∧ s.bri.shift = none := by
  simp [engineNext_iff, EngineStep.enabled, EngineStep.guard, and_assoc]

theorem engineNext_txDone_iff :
    engineNext s = some .txDone ↔ s.params.periphLive = true ∧ s.bri.ph = .tx ∧ s.bri.shift ≠ none := by
  simp [engineNext_iff, EngineStep.enabled, EngineStep.guard, Option.isSome_iff_ne_none]

theorem engineNext_rx_iff :
    engineNext s = some .rx ↔ s.params.periphLive = true ∧ s.bri.ph = .rx ∧ s.bri.shift = none := by
  simp [engineNext_iff, EngineStep.enabled, EngineStep.guard]

theorem engineNext_stopTx_iff :
    engineNext s = some .stopTx ↔
      s.params.periphLive = true ∧ s.bri.stop = true ∧ (s.bri.ph = .tx ∨ s.bri.ph = .txNacked) ∧ s.bri.shift = none ∧
        (s.bri.txe = true ∨ s.bri.ph = .txNacked) := by
  simp [engineNext_iff, EngineStep.enabled, EngineStep.guard, txDrained_iff]

theorem engineNext_stopRxDone_iff :
    engineNext s = some .stopRxDone ↔ s.params.periphLive = true ∧ s.bri.stop = true ∧ s.bri.ph = .rxDone := by
  simp [engineNext_iff, EngineStep.enabled, EngineStep.guard]

theorem engineNext_stopHeld_iff :
    engineNext s = some .stopHeld ↔
      s.params.periphLive = true ∧ s.bri.stop = true ∧
        (s.bri.ph = .started ∨ s.bri.ph = .addrAcked false ∨ s.bri.ph = .addrAcked true ∨ s.bri.ph = .addrNacked) := by
  simp [engineNext_iff, EngineStep.enabled, EngineStep.guard, isHeld_iff, or_assoc]

theorem engineNext_stopIdle_iff :
    engineNext s = some .stopIdle ↔ s.params.periphLive = true ∧ s.bri.stop = true ∧ s.bri.ph = .idle := by
  simp [engineNext_iff, EngineStep.enabled, EngineStep.guard]

end

/-- What an engine step has for a cause: a STOP or a START request in a phase that may take it, a queued address byte, a transmit
phase, or room for a received byte. -/
theorem engineNext_cause {s : State} {e : EngineStep} (h : engineNext s = some e) :
    (s.bri.stop = true ∧ s.bri.ph ≠ .rx) ∨
      (s.bri.start = true ∧ (s.bri.ph = .idle ∨ s.bri.ph = .tx ∨ s.bri.ph = .txNacked)) ∨
      s.bri.ph = .addrQueued ∨ s.bri.ph = .tx ∨ (s.bri.ph = .rx ∧ s.bri.shift = none) := by
  cases e with
  | start =>
    obtain ⟨-, hs, -, ⟨hp, -⟩ | ⟨hp, -⟩⟩ := engineNext_start_iff.1 h
    · exact .inr (.inl ⟨hs, .inl hp⟩)
    · exact .inr (.inl ⟨hs, .inr hp⟩)
  | addr => exact .inr (.inr (.inl (engineNext_addr_iff.1 h).2))
  | txLoad => exact .inr (.inr (.inr (.inl (engineNext_txLoad_iff.1 h).2.1)))
  | txDone => exact .inr (.inr (.inr (.inl (engineNext_txDone_iff.1 h).2.1)))
  | rx => exact .inr (.inr (.inr (.inr (engineNext_rx_iff.1 h).2)))
  | stopTx =>
    obtain ⟨-, hs, hp | hp, -⟩ := engineNext_stopTx_iff.1 h <;> exact .inl ⟨hs, by simp [hp]⟩
  | stopRxDone =>
    obtain ⟨-, hs, hp⟩ := engineNext_stopRxDone_iff.1 h
    exact .inl ⟨hs, by simp [hp]⟩
  | stopHeld =>
    obtain ⟨-, hs, hp | hp | hp | hp⟩ := engineNext_stopHeld_iff.1 h <;> exact .inl ⟨hs, by simp [hp]⟩
  | stopIdle =>
    obtain ⟨-, hs, hp⟩ := engineNext_stopIdle_iff.1 h
    exact .inl ⟨hs, by simp [hp]⟩

/-! ### What each step does -/

/-- A received byte goes to the data register, or behind an unread one (R35). -/
theorem receive_eq (v : Byte) (b : Bri) :
    b.receive v = if b.rxne = false then { b with dr := v, rxne := true } else { b with shift := some v, btf := true } := by
  unfold Bri.receive
  cases b.rxne <;> rfl

/-- What a STOP on the wire leaves (R214). -/
theorem stopBus_eq (s : State) :
    s.stopBus =
      { s with
        wire := s.wire ++ [.stop]
        bri :=
          { s.bri with
            ph := .idle, stop := false, sb := false, txe := false, addr := false, addrSeen := false
            btf := if s.bri.ph.isTx then false else s.bri.shift.isSome } } := rfl

/-- Settles O32: the guard as a proposition, and the effect as defined. -/
theorem engineGeneratesStart : Obligations.EngineGeneratesStart := fun _ =>
  ⟨engineNext_start_iff, engineTurn_of_next⟩

/-- Settles O33: the guard as a proposition, and the effect as defined. -/
theorem engineSendsAddress : Obligations.EngineSendsAddress := fun _ =>
  ⟨engineNext_addr_iff, engineTurn_of_next⟩

/-- Settles O34: the guards as propositions; E_TXDONE sends the byte the shift register holds. -/
theorem engineTransmits : Obligations.EngineTransmits := by
  refine fun s => ⟨engineNext_txLoad_iff, engineTurn_of_next, engineNext_txDone_iff, fun b h hs => ?_⟩
  rw [engineTurn_of_next h, EngineStep.effect, hs]
  rfl

/-- Settles O35: the acknowledge enable and then the STOP request decide how the step ends. -/
theorem engineReceives : Obligations.EngineReceives := by
  refine fun s => ⟨engineNext_rx_iff, fun h => ?_⟩
  intro v got
  have hgot : got = s.bri.receive v := (receive_eq v s.bri).symm
  rw [engineTurn_of_next h, hgot]
  refine ⟨fun ha => ?_, fun ha hs => ?_, fun ha hs => ?_⟩
  · simp [EngineStep.effect, engineRx, ha, v]
  · simp [EngineStep.effect, engineRx, ha, hs, State.setBri, v]
  · simp [EngineStep.effect, engineRx, ha, hs, stopBus_eq, State.setBri, Phase.isTx, v]

/-- Settles O36: three of the steps are one STOP, in phases that differ in `btf` only (R214). -/
theorem engineGeneratesStop : Obligations.EngineGeneratesStop := by
  intro s stopped
  have sent : s.bri.ph.isTx = true → s.stopBus = stopped false := fun hp => by rw [stopBus_eq, if_pos hp]
  have received : ¬s.bri.ph.isTx = true → s.stopBus = stopped s.bri.shift.isSome := fun hp => by
    rw [stopBus_eq, if_neg hp]
  refine ⟨engineNext_stopTx_iff, fun h => ?_, engineNext_stopRxDone_iff, fun h => ?_, engineNext_stopHeld_iff, fun h => ?_,
    engineNext_stopIdle_iff, engineTurn_of_next⟩
  · obtain ⟨-, -, hp, -⟩ := engineNext_stopTx_iff.1 h
    exact (engineTurn_of_next h).trans (sent ((isTx_iff _).2 hp))
  · obtain ⟨-, -, hp⟩ := engineNext_stopRxDone_iff.1 h
    exact (engineTurn_of_next h).trans (received (by simp [hp, Phase.isTx]))
  · obtain ⟨-, -, hp⟩ := engineNext_stopHeld_iff.1 h
    exact (engineTurn_of_next h).trans (received (by rcases hp with hp | hp | hp | hp <;> simp [hp, Phase.isTx]))

/-! ### Where the engine has no step (R203, R207 to R209, R215) -/

/-- Settles O37: on a live peripheral each case leaves a step without its cause. -/
theorem engineHeldPhases : Obligations.EngineHeldPhases := by
  refine fun s => ⟨fun hl => ?_, fun hs hp => ?_, fun hs hn hp => ?_, fun hp _ hs => ?_⟩
  · have h : engineNext s = none := engineNext_none_iff.2 fun e => by simp [enabled_eq, hl]
    exact ⟨h, engineTurn_of_none h⟩
  all_goals
    refine Option.eq_none_iff_forall_ne_some.2 fun e he => ?_
    have hc := engineNext_cause he
  · rcases hp with ⟨d, hp⟩ | hp | hp <;> simp [hs, hp] at hc
  · simp [hs, hn, hp] at hc
  · simp [hp, hs] at hc

/-! ### A bus owned from outside (R216) -/

/-- In IDLE with the bus owned from outside the engine can only discard a STOP request. -/
theorem enabled_externallyBusy {s : State} {e : EngineStep} (hx : s.params.extBusy = true) (hp : s.bri.ph = .idle)
    (he : e.enabled s = true) : e = .stopIdle := by
  have hn := engineNext_of_enabled he
  cases e with
  | stopIdle => rfl
  | start => simp [engineNext_start_iff, hp, hx] at hn
  | addr => simp [engineNext_addr_iff, hp] at hn
  | txLoad => simp [engineNext_txLoad_iff, hp] at hn
  | txDone => simp [engineNext_txDone_iff, hp] at hn
  | rx => simp [engineNext_rx_iff, hp] at hn
  | stopTx => simp [engineNext_stopTx_iff, hp] at hn
  | stopRxDone => simp [engineNext_stopRxDone_iff, hp] at hn
  | stopHeld => simp [engineNext_stopHeld_iff, hp] at hn

/-- A poll whose condition is false stays at its micro-op (R140). -/
theorem waitStep_unmet_upc (nak : Bool) (s : State) : (s.waitStep false nak).seq.upc = s.seq.upc := by
  rcases waitStep_cases false nak s with ⟨h, -⟩ | ⟨-, -, -, h⟩ | ⟨-, -, -, -, h⟩ | ⟨-, -, -, -, h⟩ | ⟨-, -, h⟩
  · cases h
  all_goals simp [h]

/-- Settles O38: `busy` is 1, so WAIT_IDLE is blocked; and of all steps only E_START leaves IDLE, which is not enabled. -/
theorem externallyBusyBus : Obligations.ExternallyBusyBus := by
  intro s hx
  have hbusy : s.busy = true := by simp [State.busy, hx]
  refine ⟨hbusy, fun hp h => ?_, ⟨_, exec_wait rfl s, ?_⟩, fun hp t hst => ?_⟩
  · have hs := enabled_externallyBusy hx hp (engineNext_iff.1 h)
    cases hs
  · rw [waitBlocked_waitIdle, hbusy]
    exact waitStep_unmet_upc _ _
  · rw [← turnTaken_bri] at hp
    rcases step_bri_cases hst with e | ⟨-, -, i, -, hm⟩ | ⟨-, e, he, rfl⟩
    · rwa [e, ← turnTaken_bri]
    · exact (move_idle hm).2 hp
    · rw [enabled_externallyBusy (by simpa using hx) hp he]
      exact hp

end Sys2Proof.Machine
end

section
/-! SUPPORT. Who moves (spec/46_bus_engine.md R230, R231), what a blocked wait is, and the stuck state (R233). -/

namespace Sys2Proof.Machine

/-! ### Who moves (R230, R231) -/

theorem step_priority {s : State} (hf : s.fault = none) (hp : s.params.sched = .seqPriority) :
    step s = agentTurn (priorityAgent s) s := by
  rw [step_of_noFault hf, turnTaken_priority hp, pickAgent, hp]

theorem priorityAgent_busy {s : State} (hr : s.seq.run = .busy) :
    priorityAgent s = if atBlockedWait s && engineCan s then .engine else .sequencer := by
  rw [priorityAgent, hr]

theorem priorityAgent_ready {s : State} (hr : s.seq.run = .ready) :
    priorityAgent s = if engineCan s then .engine else .caller := by
  rw [priorityAgent, hr]

theorem engineCan_of_some {s : State} {e : EngineStep} (h : engineNext s = some e) : engineCan s = true := by
  simp [engineCan, h]

theorem engineCan_of_none {s : State} (h : engineNext s = none) : engineCan s = false := by
  simp [engineCan, h]

/-- At a blocked wait the engine goes first when it can (R231). -/
theorem priorityAgent_engine {s : State} {e : EngineStep} (hr : s.seq.run = .busy) (hb : atBlockedWait s = true)
    (he : engineNext s = some e) : priorityAgent s = .engine := by
  rw [priorityAgent_busy hr, hb, engineCan_of_some he]
  rfl

/-- The sequencer goes on when it is at no blocked wait, and polls one when the engine has no step (R231). -/
theorem priorityAgent_sequencer {s : State} (hr : s.seq.run = .busy) (h : atBlockedWait s = false ∨ engineNext s = none) :
    priorityAgent s = .sequencer := by
  rw [priorityAgent_busy hr]
  rcases h with hb | he
  · simp [hb]
  · simp [engineCan_of_none he]

/-- Settles O10: the agent of each case, and its turn. -/
theorem seqPrioritySchedule : Obligations.SeqPrioritySchedule := by
  intro s hf hp
  rw [step_priority hf hp]
  refine ⟨fun e hr hb he => ?_, fun hr h => ?_, fun e hr he => ?_, fun hr he => ?_⟩
  · rw [priorityAgent_engine hr hb he, agentTurn, engineTurn_of_next he]
  · rw [priorityAgent_sequencer hr h, agentTurn]
  · rw [priorityAgent_ready hr, if_pos (engineCan_of_some he), agentTurn, engineTurn_of_next he]
  · rw [priorityAgent_ready hr, if_neg (by simp [engineCan_of_none he]), agentTurn]

/-- Settles O11: the schedule's head is the agent, and the turn uses it up. -/
theorem freeScheduleTakesChosenAgent : Obligations.FreeScheduleTakesChosenAgent := by
  intro s a rest hf hp ht
  have hpick : pickAgent s = a := by simp [pickAgent, hp, ht]
  have htaken : s.turnTaken = { s with turns := { s.turns with script := rest } } := by
    simp [State.turnTaken, hp, Turns.after, ht]
  rw [step_of_noFault hf, hpick, htaken]

/-! ### Blocked waits (R231) -/

theorem isWait_of_blocked {i : Instr} {s : State} (h : waitBlocked s i = true) : isWait i = true := by
  cases i with
  | waitIdle | waitSb | waitAddr | waitTxe | waitBtf | waitRxne => rfl
  | _ => cases h

theorem atBlockedWait_iff (s : State) : atBlockedWait s = true ↔ ∃ i, fetch s = .ok i ∧ waitBlocked s i = true := by
  unfold atBlockedWait
  cases fetch s <;> simp

/-- The sequencer's turn at a blocked wait in faithful mode is the read and nothing else (R141). -/
theorem sequencerTurn_blocked {s : State} {i : Instr} (hr : s.seq.run = .busy) (hc : s.params.checked = false)
    (hi : fetch s = .ok i) (hb : waitBlocked s i = true) :
    sequencerTurn s = .next (s.setBri (afterWaitRead i s.bri)) := by
  rw [sequencerTurn_fetched hr hi, exec_wait_faithful (isWait_of_blocked hb) hb hc]

/-- With no address acknowledge to clear, neither status read changes the BRI (R64, R65). -/
theorem afterWaitRead_unchanged (i : Instr) {b : Bri} (ha : b.addr = false) (hs : b.addrSeen = false) :
    afterWaitRead i b = b := by
  by_cases h : i = .waitIdle
  · rw [h, afterWaitRead_waitIdle, afterSr2_forgets (.inr ha), ← hs]
  · have hseen : (b.addr || b.addrSeen) = b.addrSeen := by simp [ha]
    rw [afterWaitRead_sr1 h, hseen]

/-- A state that steps to itself does so for ever. -/
theorem run_fixed {s : State} (h : step s = .next s) : ∀ k, Sys2Proof.core.run k s = .next s
  | 0 => rfl
  | k + 1 => (run_succ_next k h).trans (run_fixed h k)

/-- Settles O52: the poll is the only step, and its read finds `addr` and with it `addrSeen` 0. -/
theorem stuckStateHangs : Obligations.StuckStateHangs := by
  intro s hst hinv hp ha
  obtain ⟨i, hi, hb⟩ := (atBlockedWait_iff s).1 hst.blocked
  have hseen : s.bri.addrSeen = false := by
    by_contra h
    simp [hinv.seen (by simpa using h)] at ha
  have hstep : step s = .next s := by
    rw [step_priority hst.noFault hp, priorityAgent_sequencer hst.busy (.inr hst.engineOff), agentTurn,
      sequencerTurn_blocked hst.busy hst.faithful hi hb, afterWaitRead_unchanged i ha hseen]
    rfl
  exact ⟨hstep, run_fixed hstep⟩

end Sys2Proof.Machine
end

section
/-! SUPPORT. Why a command of the fixed control store cannot go on for ever: every micro-op that completes brings the sequencer
nearer to its RET, every engine step uses up work that only the sequencer can give it, and a checked wait is polled within its
budget. What is left is the poll of a faithful wait, which adds nothing (spec/46_bus_engine.md R230 to R233). -/

namespace Sys2Proof.Machine

/-! ### The way to RET -/

/-- How far a micro-address is from the end of the page. The words between a loop's byte move and the end of its jump back come
before the loop's head: they stand a page further off, which the byte just moved makes up for. -/
def placeLeft (a : MicroAddr) : Nat := (if a = 0x31 ∨ a = 0x4B ∨ a = 0x4C then 256 else 0) + (255 - a.toNat)

/-- What is left of a command's way: a page for each byte still to move, and the place in the program. -/
def Seq.wayLeft (q : Seq) : Nat := 256 * (q.rem.getD 0).toNat + placeLeft q.upc

/-- RD_DATA and WR_DATA. -/
def isByteMove : Instr → Bool
  | .rdData => true
  | .wrData => true
  | _ => false

theorem placeLeft_next : ∀ p ∈ imageListing, isByteMove p.2 = false → placeLeft (p.1 + 1) < placeLeft p.1 := by decide

theorem placeLeft_byteMove : ∀ p ∈ imageListing, placeLeft (p.1 + 1) < placeLeft p.1 + 256 := by decide

theorem placeLeft_target : ∀ p ∈ imageListing, (branchTarget p.2).all (fun t => placeLeft t < placeLeft p.1) = true := by decide

/-- A branch target or the next address is nearer to RET (R180 to R182). -/
theorem placeLeft_goesTo {i : Instr} {s : State} {a : MicroAddr} (hl : (s.seq.upc, i) ∈ imageListing)
    (hm : isByteMove i = false) (h : GoesTo i s a) : placeLeft a < placeLeft s.seq.upc := by
  have target : ∀ t, branchTarget i = some t → placeLeft t < placeLeft s.seq.upc := fun t ht => by
    simpa [ht] using placeLeft_target _ hl
  cases h with
  | next => exact placeLeft_next _ hl hm
  | zero t hi hr => exact target a (hi ▸ rfl)
  | one t hi hr => exact target a (hi ▸ rfl)
  | jump t hi => exact target a (hi ▸ rfl)

theorem wayLeft_of_placeLeft {q q' : Seq} (hr : q'.rem = q.rem) (h : placeLeft q'.upc < placeLeft q.upc) :
    q'.wayLeft < q.wayLeft := by
  rw [Seq.wayLeft, Seq.wayLeft, hr]
  omega

/-- A byte move raises a fault, or takes 1 from `rem` and goes on (R165, R166). -/
theorem byteMove_cases {i : Instr} {s t : State} (hi : isByteMove i = true) (h : exec i s = .next t) :
    t.fault ≠ none ∨ ∃ rem, s.seq.rem = some rem ∧ rem ≠ 0 ∧ t.seq.rem = some (rem - 1) ∧ t.seq.upc = s.seq.upc + 1 := by
  cases htake : takeByteCount s with
  | error k =>
    obtain ⟨hrd, hwr⟩ := exec_byteMove_error htake
    cases i with
    | rdData => cases hrd.symm.trans h; exact .inl nofun
    | wrData => cases hwr.symm.trans h; exact .inl nofun
    | _ => cases hi
  | ok c =>
    obtain ⟨hrem, -, -, hz⟩ := takeByteCount_ok htake
    cases i with
    | rdData => cases (exec_rdData htake).symm.trans h; exact .inr ⟨c.rem, hrem, hz, rfl, rfl⟩
    | wrData =>
      cases hw : s.bri.writeDr (s.mem.read (bufAddr c.buf c.cur)) with
      | ok b => cases (exec_wrData htake hw).symm.trans h; exact .inr ⟨c.rem, hrem, hz, rfl, rfl⟩
      | error k =>
        simp only [exec, execWrData, htake, hw, settle_error, Host.Outcome.next.injEq] at h
        exact .inl (h ▸ nofun)
    | _ => cases hi

/-- A micro-op that is no wait shortens the way, unless it ends the command or raises a fault. -/
theorem exec_wayLeft {i : Instr} {s t : State} (hl : (s.seq.upc, i) ∈ imageListing) (hs : i.space = .store)
    (hw : isWait i = false) (h : exec i s = .next t) (hr : t.seq.run = .busy) (hf : t.fault = none) :
    t.seq.wayLeft < s.seq.wayLeft := by
  cases hm : isByteMove i with
  | true =>
    obtain ⟨rem, hrem, hz, hrem', hupc⟩ := (byteMove_cases hm h).resolve_left (not_not_intro hf)
    have hp : placeLeft (s.seq.upc + 1) < placeLeft s.seq.upc + 256 := placeLeft_byteMove _ hl
    have hn : rem.toNat = (rem - 1).toNat + 1 := by bv_omega
    simp only [Seq.wayLeft, hrem, hrem', hupc, Option.getD_some]
    omega
  | false =>
    cases exec_move hs h with
    | fault k hk => cases hf
    | goes b a hb ha => exact wayLeft_of_placeLeft rfl (placeLeft_goesTo hl hm ha)
    | result b hi hb => exact wayLeft_of_placeLeft rfl (placeLeft_next _ hl hm)
    | received b c hi => cases hi ▸ hm
    | sent b c hi => cases hi ▸ hm
    | poll b hi => cases hw.symm.trans hi
    | abort b code hi => cases hw.symm.trans hi
    | finish code hi hcode => cases hr

/-! ### The engine's work -/

/-- Engine steps that can follow in a phase before the sequencer makes its next access. In TX a byte to load and one to shift out;
in RX room for two bytes; before them the address byte's answer, and its flag, which a status read may clear. -/
def Bri.phaseWork (b : Bri) : Nat :=
  match b.ph with
  | .addrQueued => 3
  | .addrAcked _ => 2
  | .tx => 2 * (!b.txe).toNat + b.shift.isSome.toNat
  | .rx => if b.shift.isSome then 0 else 1 + (!b.rxne).toNat
  | _ => 0

/-- The requests come before all of that: each can be served once, and that leads to a phase without work. -/
def Bri.workLeft (b : Bri) : Nat := 4 * (b.start.toNat + b.stop.toNat) + b.phaseWork

@[simp] theorem receive_stop (v : Byte) (b : Bri) : (b.receive v).stop = b.stop := by
  unfold Bri.receive
  split <;> rfl

/-- A STOP serves its request and leaves IDLE, where no work is left. -/
theorem toIdle_workLeft {b : Bri} (h : b.stop = true) : b.toIdle.workLeft < b.workLeft := by
  have hidle : b.toIdle.workLeft = 4 * b.start.toNat := by simp [Bri.workLeft, Bri.toIdle, Bri.phaseWork]
  rw [hidle, Bri.workLeft, h, Bool.toNat_true]
  omega

/-- In RX_DONE no work is left but a request. -/
theorem rxDone_workLeft (b : Bri) : Bri.workLeft { b with ph := .rxDone } ≤ b.workLeft := by
  simp [Bri.workLeft, Bri.phaseWork]

/-- Every enabled engine step uses up work. -/
theorem effect_workLeft {s : State} {e : EngineStep} (he : e.enabled s = true) :
    (e.effect s).bri.workLeft < s.bri.workLeft := by
  have hn := engineNext_of_enabled he
  cases e with
  | start =>
    obtain ⟨-, hs, hp, -⟩ := engineNext_start_iff.1 hn
    simp [EngineStep.effect, engineStart, Bri.workLeft, Bri.phaseWork, hs, hp]
  | addr =>
    obtain ⟨-, hp⟩ := engineNext_addr_iff.1 hn
    simp only [EngineStep.effect, engineAddr]
    split <;> simp [Bri.workLeft, Bri.phaseWork, hp]
  | txLoad =>
    obtain ⟨-, hp, ht, hs⟩ := engineNext_txLoad_iff.1 hn
    simp [EngineStep.effect, engineTxLoad, Bri.workLeft, Bri.phaseWork, hp, ht, hs]
  | txDone =>
    obtain ⟨hp, v, hs⟩ := guard_txDone (guard_of_enabled he)
    simp only [EngineStep.effect, hs, engineTxDone]
    split <;> simp [Bri.workLeft, Bri.phaseWork, hp, hs]
  | rx =>
    obtain ⟨-, hp, hs⟩ := engineNext_rx_iff.1 hn
    have hgot : (s.bri.receive s.slave.rxByte).workLeft < s.bri.workLeft := by
      rw [receive_eq]
      split <;> simp_all [Bri.workLeft, Bri.phaseWork]
    simp only [EngineStep.effect, engineRx]
    split
    · exact hgot
    · have hdone := (rxDone_workLeft (s.bri.receive s.slave.rxByte)).trans_lt hgot
      split
      · next hstop => exact (toIdle_workLeft (by rwa [← receive_stop s.slave.rxByte] at hstop)).trans hdone
      · exact hdone
  | stopTx => exact toIdle_workLeft (engineNext_stopTx_iff.1 hn).2.1
  | stopRxDone => exact toIdle_workLeft (engineNext_stopRxDone_iff.1 hn).2.1
  | stopHeld => exact toIdle_workLeft (engineNext_stopHeld_iff.1 hn).2.1
  | stopIdle =>
    obtain ⟨-, hs, hp⟩ := engineNext_stopIdle_iff.1 hn
    simp [EngineStep.effect, engineStopIdle, Bri.workLeft, Bri.phaseWork, hs, hp]

/-- An SR2 read that ends the address phase opens one with no more work (R65). -/
theorem afterSr2_workLeft (b : Bri) : b.afterSr2.workLeft ≤ b.workLeft := by
  have := Bool.toNat_le b.shift.isSome
  have := Bool.toNat_le (!b.rxne)
  unfold Bri.afterSr2 Bri.endAddrPhase
  split
  · split
    · next hp =>
      simp only [Bri.workLeft, Bri.phaseWork, hp, Bool.not_true, Bool.toNat_false]
      omega
    · next hp =>
      simp only [Bri.workLeft, Bri.phaseWork, hp]
      split <;> omega
    · rfl
  · rfl

/-- The read of a wait gives the engine no work. -/
theorem afterWaitRead_workLeft (i : Instr) (b : Bri) : (afterWaitRead i b).workLeft ≤ b.workLeft := by
  by_cases h : i = .waitIdle
  · rw [h, afterWaitRead_waitIdle]
    exact afterSr2_workLeft b
  · rw [afterWaitRead_sr1 h]
    rfl

end Sys2Proof.Machine
end

section
/-! SUPPORT. Fair runs end (spec/46_bus_engine.md R232, R233): along a run that keeps the block BUSY without a fault, what is left to
do falls at every point but the polls of a faithful wait, so from some point on the run only polls; fairness then leaves the engine
no step, and the state is stuck. -/

namespace Sys2Proof.Machine

/-! ### What is left to do -/

/-- What is left of a command: its way to RET; at one micro-op, the polls of a checked wait; between two polls, the engine's work. -/
def State.toDo (s : State) : ℕ ×ₗ ℕ ×ₗ ℕ :=
  toLex (s.seq.wayLeft, toLex (s.params.pollBudget - s.seq.polls, s.bri.workLeft))

theorem toDo_lt_of_way {s t : State} (h : t.seq.wayLeft < s.seq.wayLeft) : t.toDo < s.toDo :=
  Prod.Lex.toLex_lt_toLex.2 (.inl h)

theorem toDo_lt_of_polls {s t : State} (hw : t.seq.wayLeft = s.seq.wayLeft)
    (h : t.params.pollBudget - t.seq.polls < s.params.pollBudget - s.seq.polls) : t.toDo < s.toDo :=
  Prod.Lex.toLex_lt_toLex.2 (.inr ⟨hw, Prod.Lex.toLex_lt_toLex.2 (.inl h)⟩)

theorem toDo_lt_of_work {s t : State} (hs : t.seq = s.seq) (hp : t.params = s.params)
    (h : t.bri.workLeft < s.bri.workLeft) : t.toDo < s.toDo := by
  rw [State.toDo, State.toDo, hs, hp]
  exact Prod.Lex.toLex_lt_toLex.2 (.inr ⟨rfl, Prod.Lex.toLex_lt_toLex.2 (.inr ⟨rfl, h⟩)⟩)

theorem toDo_le_of_work {s t : State} (hs : t.seq = s.seq) (hp : t.params = s.params)
    (h : t.bri.workLeft ≤ s.bri.workLeft) : t.toDo ≤ s.toDo := by
  rw [State.toDo, State.toDo, hs, hp]
  exact Prod.Lex.toLex_le_toLex.2 (.inr ⟨rfl, Prod.Lex.toLex_le_toLex.2 (.inr ⟨rfl, h⟩)⟩)

/-! ### The poll of a faithful wait -/

/-- `t` is `s` after a poll of a faithful wait whose condition is false: its read was made, and that is all (R141). -/
def IdlePoll (s t : State) : Prop :=
  s.params.checked = false ∧ ∃ i, fetch s = .ok i ∧ waitBlocked s i = true ∧ t = s.setBri (afterWaitRead i s.bri)

theorem IdlePoll.toDo_le {s t : State} (h : IdlePoll s t) : t.toDo ≤ s.toDo := by
  obtain ⟨-, i, -, -, rfl⟩ := h
  exact toDo_le_of_work rfl rfl (afterWaitRead_workLeft i s.bri)

theorem afterSr2_addrSeen (b : Bri) : b.afterSr2.addrSeen = false := by
  unfold Bri.afterSr2
  split <;> rfl

theorem afterWaitRead_idem (i : Instr) (b : Bri) : afterWaitRead i (afterWaitRead i b) = afterWaitRead i b := by
  by_cases h : i = .waitIdle
  · rw [h, afterWaitRead_waitIdle, afterWaitRead_waitIdle]
    exact (afterSr2_forgets (.inl (afterSr2_addrSeen b))).trans (by rw [← afterSr2_addrSeen b])
  · simp [afterWaitRead_sr1 h]

/-- A second poll of the same wait changes nothing (R233). -/
theorem IdlePoll.again {s t u : State} (h : IdlePoll s t) (h' : IdlePoll t u) : u = t := by
  obtain ⟨-, i, hi, -, rfl⟩ := h
  obtain ⟨-, j, hj, -, rfl⟩ := h'
  obtain rfl : i = j := Except.ok.inj (hi.symm.trans hj)
  simp [State.setBri, afterWaitRead_idem]

/-! ### One point of a run -/

theorem mayMove_priority {s : State} {a : Agent} (hp : s.params.sched = .seqPriority) :
    mayMove s a = true ↔ a = priorityAgent s := by
  simp [mayMove, hp]

/-- While the block is BUSY the turn is the sequencer's or the engine's, and the engine's only when it has a step (R230, R231). -/
theorem mayMove_busy {s : State} {a : Agent} (hr : s.seq.run = .busy) (h : mayMove s a = true) :
    a = .sequencer ∨ (a = .engine ∧ engineCan s = true) := by
  unfold mayMove at h
  split at h
  · obtain rfl := of_decide_eq_true h
    rw [priorityAgent_busy hr]
    split <;> simp_all
  · cases a <;> simp_all

theorem isByteMove_of_isWait {i : Instr} (h : isWait i = true) : isByteMove i = false := by
  cases i with
  | rdData | wrData => cases h
  | _ => rfl

/-- The sequencer's turn raises a fault, ends the command, brings it forward, or is the poll of a faithful wait. -/
theorem sequencerTurn_toDo {s t : State} (hs : s.store = storeImage) (hr : s.seq.run = .busy) (h : sequencerTurn s = .next t)
    (hr' : t.seq.run = .busy) (hf : t.fault = none) : t.toDo < s.toDo ∨ IdlePoll s t := by
  rcases sequencerTurn_cases s with ⟨hready, -⟩ | ⟨-, -, he⟩ | ⟨-, i, hi, he⟩
  · cases hr.symm.trans hready
  · cases he.symm.trans h
    cases hf
  have hl : (s.seq.upc, i) ∈ imageListing := by
    have hd : decodeMicroOp (storeWord storeImage s.seq.upc) = .ok i := hs ▸ hi
    rcases image_word_cases s.seq.upc with ⟨-, -, hd'⟩ | ⟨-, j, hj, hd'⟩
    · cases hd.symm.trans hd'
    · cases hd.symm.trans hd'
      exact hj
  rw [he] at h
  cases hw : isWait i with
  | false => exact .inl (toDo_lt_of_way (exec_wayLeft hl (fetch_store hi) hw h hr' hf))
  | true =>
    rw [exec_wait hw] at h
    obtain rfl := Host.Outcome.next.inj h
    rcases waitStep_cases (!waitBlocked s i) (if i = .waitAddr then s.bri.af else false)
        (s.setBri (afterWaitRead i s.bri)) with
      ⟨-, e⟩ | ⟨-, -, -, e⟩ | ⟨-, -, -, -, e⟩ | ⟨-, -, -, hb, e⟩ | ⟨hb, hc, e⟩ <;> rw [e] at hr' ⊢
    · exact .inl (toDo_lt_of_way (wayLeft_of_placeLeft rfl (placeLeft_next _ hl (isByteMove_of_isWait hw))))
    · cases hr'
    · cases hr'
    · exact .inl (toDo_lt_of_polls rfl (Nat.sub_succ_lt_self _ _ (Nat.lt_of_succ_lt hb)))
    · exact .inr ⟨hc, i, hi, by simpa using hb, rfl⟩

/-- A turn of a BUSY block raises a fault, ends the command, leaves less to do, or is the sequencer's poll of a faithful wait. -/
theorem turn_toDo {a : Agent} {s t : State} (hs : s.store = storeImage) (hr : s.seq.run = .busy) (hm : mayMove s a = true)
    (h : agentTurn a s = .next t) (hr' : t.seq.run = .busy) (hf : t.fault = none) :
    t.toDo < s.toDo ∨ (a = .sequencer ∧ IdlePoll s t) := by
  rcases mayMove_busy hr hm with rfl | ⟨rfl, hc⟩
  · exact (sequencerTurn_toDo hs hr h hr' hf).imp_right fun h => ⟨rfl, h⟩
  · left
    obtain ⟨e, he⟩ := Option.isSome_iff_exists.1 hc
    obtain rfl : e.effect s = t := (engineTurn_of_next he).symm.trans (Host.Outcome.next.inj h)
    exact toDo_lt_of_work (effect_frame s e).seq (effect_frame s e).params (effect_workLeft (engineNext_iff.1 he))

/-! ### Runs that keep the block BUSY -/

/-- The run keeps the block BUSY for ever, and no fault is recorded. -/
structure KeepsBusy (who : Nat → Agent) (s : State) : Prop where
  busy : ∀ k, (runBy who s k).seq.run = .busy
  noFault : ∀ k, (runBy who s k).fault = none

section
variable {who : Nat → Agent} {s : State}

theorem Interleaves.turn (hi : Interleaves who s) {k : Nat} (hf : (runBy who s k).fault = none) :
    agentTurn (who k) (runBy who s k) = .next (runBy who s (k + 1)) := by
  have h := stepBy_turn (who k) hf
  rwa [mover_of_mayMove (hi k hf)] at h

/-- From some point on, such a run only polls a faithful wait: nothing that is left to do can fall for ever. -/
theorem KeepsBusy.polls (hb : KeepsBusy who s) (hs : s.store = storeImage) (hi : Interleaves who s) :
    ∃ n, ∀ m, n ≤ m → who m = .sequencer ∧ IdlePoll (runBy who s m) (runBy who s (m + 1)) := by
  have point : ∀ k, (runBy who s (k + 1)).toDo < (runBy who s k).toDo ∨
      (who k = .sequencer ∧ IdlePoll (runBy who s k) (runBy who s (k + 1))) := fun k =>
    turn_toDo ((runBy_fixed who s k).2.trans hs) (hb.busy k) (hi k (hb.noFault k)) (hi.turn (hb.noFault k))
      (hb.busy (k + 1)) (hb.noFault (k + 1))
  have anti : Antitone fun k => (runBy who s k).toDo :=
    antitone_nat_of_succ_le fun k => (point k).elim le_of_lt fun h => h.2.toDo_le
  obtain ⟨n, hn⟩ := WellFoundedLT.antitone_chain_condition anti
  refine ⟨n, fun m hm => (point m).resolve_left ?_⟩
  have hconst : (runBy who s (m + 1)).toDo = (runBy who s m).toDo := (hn (m + 1) (by omega)).symm.trans (hn m hm)
  exact hconst.not_lt

/-- A run that only polls rests after its first poll. -/
theorem rests_of_polls {n : Nat} (h : ∀ m, n ≤ m → IdlePoll (runBy who s m) (runBy who s (m + 1))) :
    ∀ m, n + 1 ≤ m → runBy who s m = runBy who s (n + 1) :=
  Nat.le_induction rfl fun m hm ih => by
    obtain ⟨j, rfl⟩ : ∃ j, m = j + 1 := ⟨m - 1, by omega⟩
    exact ((h j (by omega)).again (h (j + 1) (by omega))).trans ih

/-- A fair run that keeps the block BUSY comes to a stuck state: where it rests at a faithful wait, an engine step would stay
enabled, and be taken (R231, R232). -/
theorem KeepsBusy.stuck (hb : KeepsBusy who s) (hs : s.store = storeImage) (hi : Interleaves who s) (hw : WeaklyFair who s) :
    ∃ k, Stuck (runBy who s k) := by
  obtain ⟨n, hn⟩ := hb.polls hs hi
  have rests := rests_of_polls fun m hm => (hn m hm).2
  have hseq : ∀ m, n + 1 ≤ m → who m = .sequencer := fun m hm => (hn m (by omega)).1
  obtain ⟨hc, i, hfetch, hblocked, -⟩ := (hn (n + 1) (by omega)).2
  have hwait := (atBlockedWait_iff _).2 ⟨i, hfetch, hblocked⟩
  refine ⟨n + 1, hb.busy _, hb.noFault _, hwait, Option.eq_none_iff_forall_ne_some.2 fun e he => ?_, hc⟩
  cases hp : s.params.sched with
  | free =>
    obtain ⟨j, hj, hengine⟩ := hw hp e (n + 1) fun j hj => ⟨hb.noFault j, rests j hj ▸ engineNext_iff.1 he⟩
    cases (hseq j hj).symm.trans hengine
  | seqPriority =>
    have hp' : (runBy who s (n + 1)).params.sched = .seqPriority := (congrArg Params.sched (runBy_fixed who s _).1).trans hp
    have hengine := (mayMove_priority hp').1 (hi (n + 1) (hb.noFault _))
    cases (hseq (n + 1) le_rfl).symm.trans (hengine.trans (priorityAgent_engine (hb.busy _) hwait he))

end

/-! ### Unfair polling -/

/-- The read of a wait leaves its condition false (R144 to R149, R231). -/
theorem waitBlocked_afterWaitRead {i : Instr} {s : State} (h : waitBlocked s i = true) :
    waitBlocked (s.setBri (afterWaitRead i s.bri)) i = true := by
  by_cases hi : i = .waitIdle
  · subst hi
    have hph : s.bri.afterSr2.ph = .idle ↔ s.bri.ph = .idle := briMove_idle (.readSr2 (i := .waitIdle) (s := s))
    simpa [State.busy, afterWaitRead_waitIdle, hph] using h
  · rw [afterWaitRead_sr1 hi]
    cases i with
    | waitIdle => exact absurd rfl hi
    | _ => exact h

/-- A faithful BUSY block under FREE at a wait whose condition is false. -/
structure Polling (s : State) : Prop where
  busy : s.seq.run = .busy
  sched : s.params.sched = .free
  faithful : s.params.checked = false
  noFault : s.fault = none
  blocked : atBlockedWait s = true

theorem stepBy_polling {s : State} (h : Polling s) : Polling (stepBy .sequencer s) := by
  obtain ⟨i, hi, hb⟩ := (atBlockedWait_iff s).1 h.blocked
  have hturn := stepBy_turn .sequencer h.noFault
  rw [mover, h.sched, agentTurn, sequencerTurn_blocked h.busy h.faithful hi hb] at hturn
  rw [← Host.Outcome.next.inj hturn]
  exact { h with blocked := (atBlockedWait_iff _).2 ⟨i, hi, waitBlocked_afterWaitRead hb⟩ }

theorem runBy_polling {s : State} (h : Polling s) : ∀ k, Polling (runBy (fun _ => .sequencer) s k)
  | 0 => h
  | k + 1 => stepBy_polling (runBy_polling h k)

/-- Settles O59: a run that comes to none of the three keeps the block BUSY, and then a fair one is stuck; the sequencer alone polls
for ever. -/
theorem fairCommandEnds : Obligations.FairCommandEnds := by
  refine fun s hr => ⟨fun who hs hi hw => ?_, fun hp hc hf hb => ?_⟩
  · by_contra hend
    simp only [not_exists, not_or, not_not] at hend
    have hbusy : KeepsBusy who s :=
      { busy := fun k => by
          cases hk : (runBy who s k).seq.run with
          | busy => rfl
          | ready => exact absurd hk (hend k).1
        noFault := fun k => (hend k).2.1 }
    obtain ⟨k, hk⟩ := hbusy.stuck hs.store hi hw
    exact (hend k).2.2 hk
  · have polling : Polling s := ⟨hr, hp, hc, hf, hb⟩
    refine ⟨fun k _ => ?_, fun k => ⟨(runBy_polling polling k).busy, (runBy_polling polling k).noFault⟩⟩
    simp [mayMove, (runBy_polling polling k).sched, (runBy_polling polling k).busy]

end Sys2Proof.Machine
end

section
/-! SUPPORT. What a step does to the sequencer's registers and the fault record, said once for every agent, and the claims about a
step that raises a fault (spec/60_exceptions.md R243, R244) and about the status codes (R250, spec/10_state.md R20, R28). -/

namespace Sys2Proof.Machine

/-! ### What a step does to the sequencer and the fault record -/

/-- Nothing; or ILLEGAL_MICROOP; or a micro-op's move; or a command's refusal, its end at accept, or its start (R100, R107). -/
inductive SeqMove (s : State) : State → Prop
  | quiet (t : State) : t.seq = s.seq → t.fault = none → SeqMove s t
  | illegal (e : DecodeError) : s.seq.run = .busy → fetch s = .error e → SeqMove s (s.turnTaken.raise .illegalMicroop)
  | runs (i : Instr) (t : State) : s.seq.run = .busy → fetch s = .ok i → exec i s.turnTaken = .next t → Move i s.turnTaken t →
      SeqMove s t
  | refused (r : Request) (rest : List CallerAct) : SeqMove s (s.turnTaken.present r rest).refuse
  | rejected (r : Request) (rest : List CallerAct) (op : BitVec 2) (sa ra : Byte) : s.params.addrLsb = .reject →
      SeqMove s (((s.turnTaken.present r rest).latchCommand op sa ra).finish 4)
  | started (r : Request) (rest : List CallerAct) (op : BitVec 2) (sa ra : Byte) :
      SeqMove s (((s.turnTaken.present r rest).latchCommand op sa ra).goto (entryOf op))

theorem step_seqMove {s t : State} (h : step s = .next t) : SeqMove s t := by
  obtain ⟨hf, ⟨-, hm⟩ | ⟨-, hm⟩ | ⟨-, hm⟩⟩ := step_moves h
  · cases hm with
    | idle hr => exact .quiet _ (turnTaken_seq s) (by simpa using hf)
    | illegal e hr he => exact .illegal e hr he
    | runs i _ hr hi he hm => exact .runs i t hr hi he hm
  · cases hm with
    | idle => exact .quiet _ (turnTaken_seq s) (by simpa using hf)
    | steps e he =>
      have frame := effect_frame s.turnTaken e
      exact .quiet _ (by simpa using frame.seq) (by simpa [hf] using frame.fault)
  · cases hm with
    | idle => exact .quiet _ (turnTaken_seq s) (by simpa using hf)
    | refused r rest => exact .refused r rest
    | accepted r rest op sa ra =>
      rcases accept_cases op sa ra (s.turnTaken.present r rest) with ⟨-, e⟩ | ⟨-, hp, -, e⟩ | ⟨-, -, e⟩ <;> rw [e]
      · exact .refused r rest
      · exact .rejected r rest op sa ra (by simpa using hp)
      · exact .started r rest op sa ra
    | filled a b rest hc hr => exact .quiet _ (by simp) (by simpa using hf)

/-- No step changes the launch parameters or the control store (spec/10_state.md R41, spec/20_memory.md R63). -/
theorem step_fixed {s t : State} (h : step s = .next t) : t.params = s.params ∧ t.store = s.store :=
  (wireTraceOnlyGrows s t h).2

/-! ### Raising a fault (R243, R244) -/

theorem step_of_fault {s : State} {r : FaultRecord} (h : s.fault = some r) : step s = .fault r.kind := by
  simp [step, h]

/-- A micro-op that leaves a fault record did nothing but raise it. -/
theorem move_fault {i : Instr} {s t : State} {r : FaultRecord} (h : Move i s t) (hf : s.fault = none) (hr : t.fault = some r) :
    ∃ k, k ≠ .cmdRefused ∧ t = s.raise k := by
  cases h with
  | fault k hk => exact ⟨k, hk, rfl⟩
  | poll b hi hb hp => simp [hf] at hr
  | goes | result | received | sent | abort | finish => cases hf.symm.trans hr

/-- A step that leaves a fault record raised it at the sequencer's `upc`, or refused a command, and did nothing else. -/
theorem step_raises {s t : State} {r : FaultRecord} (h : step s = .next t) (hr : t.fault = some r) :
    (∃ k, k ≠ .cmdRefused ∧ t = s.turnTaken.raise k) ∨ ∃ q rest, t = (s.turnTaken.present q rest).refuse := by
  have hf : s.turnTaken.fault = none := (turnTaken_fault s).trans (step_cases h).1
  cases step_seqMove h with
  | quiet _ hseq hfault => cases hfault.symm.trans hr
  | illegal e hb he => exact .inl ⟨_, by decide, rfl⟩
  | runs i _ hb hi he hm => exact .inl (move_fault hm hf hr)
  | refused q rest => exact .inr ⟨q, rest, rfl⟩
  | rejected q rest op sa ra hp => cases hf.symm.trans hr
  | started q rest op sa ra => cases hf.symm.trans hr

/-- Settles O9: raising and refusing write the fault record only, and with a record no agent moves. -/
theorem raisingStepHasNoOtherEffect : Obligations.RaisingStepHasNoOtherEffect := by
  intro s t r hst hr
  rcases step_raises hst hr with ⟨k, hk, rfl⟩ | ⟨q, rest, rfl⟩
  · refine ⟨sameBlock_raise_turnTaken k s, ?_, step_of_fault hr⟩
    cases hr
    simp [hk]
  · refine ⟨by simp [SameBlock], ?_, step_of_fault hr⟩
    cases hr
    rfl

/-! ### Status codes and polls (R20, R28, R250) -/

/-- The status codes R250 allows. -/
def StatusAllowed (p : Params) (c : BitVec 3) : Prop :=
  c = 0 ∨ (p.checked = true ∧ (c = 1 ∨ c = 2 ∨ c = 3)) ∨ (p.addrLsb = .reject ∧ c = 4)

/-- The poll counts R28 and R140 allow. -/
def PollsAllowed (p : Params) (n : Nat) : Prop := n = 0 ∨ (p.checked = true ∧ n < p.pollBudget)

theorem statusInv_iff (s : State) :
    StatusInv s ↔ StatusAllowed s.params s.seq.status ∧ PollsAllowed s.params s.seq.polls := by
  have codes : ∀ c : BitVec 3, c.toNat ≤ 4 ↔ c = 0 ∨ c = 1 ∨ c = 2 ∨ c = 3 ∨ c = 4 := by decide
  constructor
  · intro ⟨hrange, hchecked, hreject, hpolls, hbudget⟩
    constructor
    · rcases (codes _).1 hrange with h | h | h | h | h <;> simp_all [StatusAllowed]
    · cases hc : s.params.checked <;> simp_all [PollsAllowed]
  · rintro ⟨hs, hp⟩
    refine ⟨(codes _).2 ?_, fun hc => ?_, fun hr h4 => ?_, fun hc => ?_, hp.imp_right And.right⟩
    · rcases hs with h | ⟨-, h | h | h⟩ | ⟨-, h⟩ <;> simp [h]
    · exact hs.imp_right fun h => (h.resolve_left (by simp [hc])).2
    · simp [StatusAllowed, h4, hr] at hs
    · exact hp.resolve_right (by simp [hc])

/-- A micro-op keeps the status code, or ends the command with one that R250 allows (R183, R252). -/
theorem move_status {i : Instr} {s t : State} (h : Move i s t) :
    t.seq.status = s.seq.status ∨ StatusAllowed s.params t.seq.status := by
  cases h with
  | fault | goes | result | received | sent => exact .inl rfl
  | poll b hi hb hp => simp [countPoll_eq]
  | abort b code hi hb hc hcode => exact .inr (.inr (.inl ⟨hc, hcode.imp_right .inl⟩))
  | finish code hi hcode => exact .inr (hcode.imp_right fun h => .inl ⟨h.2, .inr (.inr h.1)⟩)

/-- A micro-op keeps the poll count, clears it, or counts a poll within the budget of a checked wait (R140, R185). -/
theorem move_polls {i : Instr} {s t : State} (h : Move i s t) :
    t.seq.polls = s.seq.polls ∨ PollsAllowed s.params t.seq.polls := by
  cases h with
  | fault => exact .inl rfl
  | goes | result | received | sent | abort | finish => exact .inr (.inl rfl)
  | poll b hi hb hp =>
    cases hc : s.params.checked with
    | false => simp [countPoll_eq, hc]
    | true => simp [countPoll_eq, PollsAllowed, hc, hp hc]

/-- Settles O43: what a micro-op writes is allowed, and accept clears both or sets code 4 under REJECT. -/
theorem statusCodesKept : Obligations.StatusCodesKept := by
  intro s t hinv hst
  obtain ⟨hstatus, hpolls⟩ := (statusInv_iff s).1 hinv
  rw [statusInv_iff, (step_fixed hst).1]
  cases step_seqMove hst with
  | quiet _ hseq hf => exact hseq ▸ ⟨hstatus, hpolls⟩
  | illegal e hb he => simpa using And.intro hstatus hpolls
  | refused r rest => simpa using And.intro hstatus hpolls
  | runs i _ hb hi he hm =>
    have hs := move_status hm
    have hp := move_polls hm
    rw [turnTaken_seq, turnTaken_params] at hs hp
    exact ⟨hs.elim (fun e => e ▸ hstatus) id, hp.elim (fun e => e ▸ hpolls) id⟩
  | rejected r rest op sa ra hr => exact ⟨.inr (.inr ⟨hr, rfl⟩), .inl rfl⟩
  | started r rest op sa ra => exact ⟨.inl rfl, .inl rfl⟩

end Sys2Proof.Machine
end

section
/-! SUPPORT. The sequencer on the fixed control store: what can raise a fault, where each listed micro-op goes on, and that the
programs are never left (spec/60_exceptions.md R243; spec/30_encoding.md R91). -/

namespace Sys2Proof.Machine

/-! ### What a micro-op can raise (R29, R67, R68, R165, R166) -/

/-- A step that leaves no fault record raised none. -/
theorem next_ne_raise {s t : State} {k : Fault} (h : (.next t : Host.Outcome State Fault Refusal) = .next (s.raise k))
    (ht : t.fault = none) : False := by
  cases Host.Outcome.next.inj h
  cases ht

/-- The kind raised can be read off the record. -/
theorem raise_inj {s : State} {j k : Fault}
    (h : (.next (s.raise j) : Host.Outcome State Fault Refusal) = .next (s.raise k)) : j = k := by
  cases congrArg State.fault (Host.Outcome.next.inj h)
  rfl

/-- A micro-op that settles raises the fault its operations end with. -/
theorem settle_raises {s : State} {x : Except Fault State} {k : Fault} (hok : ∀ t, x = .ok t → t.fault = none)
    (h : settle s x = .next (s.raise k)) : x = .error k := by
  cases x with
  | ok t => exact (next_ne_raise h (hok t rfl)).elim
  | error j => exact congrArg _ (raise_inj h)

theorem sendByte_raises {s : State} {x : Option Byte} {form : Byte → Byte} {k : Fault} (hf : s.fault = none)
    (hx : x.isSome) (h : settle s (sendByte x form s) = .next (s.raise k)) : k = .briUnspec := by
  have hk := settle_raises (fun t ht => by obtain ⟨v, b, -, -, rfl⟩ := sendByte_ok ht; exact hf) h
  exact (sendByte_error hk).resolve_left fun hn => by simp [hn.2] at hx

theorem branchOnRem_quiet {s : State} {n : Count} {a : MicroAddr} {k : Fault} (hf : s.fault = none)
    (hr : s.seq.rem.isSome) : settle s (branchOnRem n a s) ≠ .next (s.raise k) := by
  obtain ⟨rem, hrem⟩ := Option.isSome_iff_exists.1 hr
  rw [branchOnRem_of n rem a s hrem]
  exact fun h => next_ne_raise h (by split <;> exact hf)

/-- A byte move with its latches written and a byte left has its operands. -/
theorem takeByteCount_of_latched {s : State} (hl : Latched s.seq) (hz : s.seq.rem ≠ some 0) : ∃ c, takeByteCount s = .ok c := by
  obtain ⟨rem, hrem⟩ := Option.isSome_iff_exists.1 hl.rem
  obtain ⟨buf, hbuf⟩ := Option.isSome_iff_exists.1 hl.buf
  obtain ⟨cur, hcur⟩ := Option.isSome_iff_exists.1 hl.cur
  exact ⟨_, takeByteCount_of hrem (fun h => hz (h ▸ hrem)) hbuf hcur⟩

/-- With every latch written and a byte left to move, a micro-op raises nothing but BRI_UNSPEC. -/
theorem exec_raises {i : Instr} {s : State} {k : Fault} (hf : s.fault = none) (hl : Latched s.seq)
    (hz : isByteMove i = true → s.seq.rem ≠ some 0) (hi : i.space = .store) (h : exec i s = .next (s.raise k)) :
    k = .briUnspec := by
  cases i with
  | byteRead | burstRead | burstWrite => cases hi
  | waitIdle | waitSb | waitAddr | waitTxe | waitBtf | waitRxne => exact (next_ne_raise h (by simpa using hf)).elim
  | clrAddr | rdRes | ackOn | ackOff | genStop | jmp => exact (next_ne_raise h hf).elim
  | optStop => exact (next_ne_raise h (by split <;> exact hf)).elim
  | genStart =>
    simp only [exec, execGenStart] at h
    cases hb : s.bri.requestStart with
    | ok b => rw [hb] at h; exact (next_ne_raise h hf).elim
    | error j => rw [hb] at h; exact raise_inj h ▸ requestStart_error hb
  | wrAddrW | wrAddrROr | wrAddrRInc => exact sendByte_raises hf hl.sa h
  | wrReg => exact sendByte_raises hf hl.ra h
  | rdData =>
    obtain ⟨c, hc⟩ := takeByteCount_of_latched hl (hz rfl)
    exact (next_ne_raise ((exec_rdData hc).symm.trans h) hf).elim
  | wrData =>
    obtain ⟨c, hc⟩ := takeByteCount_of_latched hl (hz rfl)
    simp only [exec, execWrData, hc] at h
    cases hw : s.bri.writeDr (s.mem.read (bufAddr c.buf c.cur)) with
    | ok b => rw [hw] at h; exact (next_ne_raise h hf).elim
    | error j => rw [hw] at h; exact raise_inj h ▸ writeDr_error hw
  | brRemZero | brRemOne => exact absurd h (branchOnRem_quiet hf hl.rem)
  | ret =>
    obtain ⟨op, hop⟩ := Option.isSome_iff_exists.1 hl.op
    exact (next_ne_raise ((exec_ret hop rfl).symm.trans h) hf).elim

/-! ### Where the listed micro-ops go on (R91) -/

/-- Every micro-op but RET has its successor inside the program. -/
theorem listed_next : ∀ p ∈ imageListing, p.2 ≠ .ret → inProgram (p.1 + 1) = true := by decide

/-- A byte move stands where a byte is left, and its successor needs none. -/
theorem listed_byteMove :
    ∀ p ∈ imageListing, isByteMove p.2 = true → holdsByte p.1 = true ∧ holdsByte (p.1 + 1) ≠ true := by decide

/-- BR_REM_ZERO and JMP. -/
def isLoopBranch : Instr → Bool
  | .brRemZero _ => true
  | .jmp _ => true
  | _ => false

/-- In front of a word that needs a byte left stands one that does too, or a BR_REM_ZERO or JMP. -/
theorem listed_holdsByte :
    ∀ p ∈ imageListing, holdsByte (p.1 + 1) = true → holdsByte p.1 = true ∨ isLoopBranch p.2 = true := by decide

theorem listed_loopTarget :
    ∀ p ∈ imageListing, isLoopBranch p.2 = true → (branchTarget p.2).all (fun t => !holdsByte t) = true := by decide

/-- BR_REM_ZERO and JMP go where no byte need be left. -/
theorem loopTarget_needsNoByte {i : Instr} {a t : MicroAddr} (hm : (a, i) ∈ imageListing) (hi : isLoopBranch i = true)
    (ht : branchTarget i = some t) : holdsByte t ≠ true := by
  simpa [ht] using listed_loopTarget _ hm hi

/-! ### The sequencer stays on course -/

/-- The sequencer of a BUSY block on the fixed control store, as `SeqInv` has it. -/
structure OnCourse (q : Seq) : Prop where
  latched : Latched q
  inside : inProgram q.upc = true
  byteLeft : holdsByte q.upc = true → q.rem ≠ some 0

theorem seqInv_iff (s : State) :
    SeqInv s ↔ s.store = storeImage ∧ (s.seq.run = .busy → OnCourse s.seq) ∧
      ∀ r, s.fault = some r → r.kind = .briUnspec ∨ r.kind = .cmdRefused :=
  ⟨fun h => ⟨h.store, fun hr => ⟨h.latched hr, h.inside hr, h.byteLeft hr⟩, h.fault⟩,
    fun ⟨hs, hc, hf⟩ => ⟨hs, fun hr => (hc hr).latched, fun hr => (hc hr).inside, fun hr => (hc hr).byteLeft, hf⟩⟩

/-- A micro-op never leaves a latch without a value. -/
theorem move_keeps_latched {i : Instr} {s t : State} (h : Move i s t) (hl : Latched s.seq) : Latched t.seq := by
  obtain ⟨hop, hsa, hra, hbuf⟩ := move_operands h
  obtain ⟨hrem, hcur⟩ : t.seq.rem.isSome ∧ t.seq.cur.isSome := by
    rcases move_cursor h with ⟨hr, hc⟩ | ⟨c, -, hr, hc⟩
    · exact hr ▸ hc ▸ ⟨hl.rem, hl.cur⟩
    · simp [hr, hc]
  exact ⟨hop ▸ hl.op, hsa ▸ hl.sa, hra ▸ hl.ra, hrem, hcur, hbuf ▸ hl.buf⟩

/-- BR_REM_ZERO with no byte left, and JMP, go to their target. -/
theorem exec_loopBranch {i : Instr} {s : State} (hi : isLoopBranch i = true) (hz : s.seq.rem = some 0) :
    ∃ a, branchTarget i = some a ∧ exec i s = .next (s.goto a) := by
  cases i with
  | brRemZero a => exact ⟨a, rfl, exec_brRemZero_taken hz⟩
  | jmp a => exact ⟨a, rfl, rfl⟩
  | _ => cases hi

section
variable {i : Instr} {s t : State}

/-- A micro-op that goes on to the next address stays in the program; with no byte left it does not come to where one is needed,
because the two that stand there would have gone to their target. -/
theorem onCourse_next (hc : OnCourse s.seq) (hm : (s.seq.upc, i) ∈ imageListing) (hi : i ≠ .ret)
    (h : exec i s = .next t) (hl : Latched t.seq) (hrem : t.seq.rem = s.seq.rem) (hupc : t.seq.upc = s.seq.upc + 1) :
    OnCourse t.seq := by
  refine ⟨hl, hupc ▸ listed_next _ hm hi, fun hb hz => ?_⟩
  rw [hrem] at hz
  rcases listed_holdsByte _ hm (hupc ▸ hb) with hheld | hloop
  · exact hc.byteLeft hheld hz
  · obtain ⟨a, ha, he⟩ := exec_loopBranch hloop hz
    cases he.symm.trans h
    exact loopTarget_needsNoByte hm hloop ha hb

/-- A listed micro-op that does not end the command keeps the sequencer on course. -/
theorem exec_keeps_course (hc : OnCourse s.seq) (hm : (s.seq.upc, i) ∈ imageListing)
    (h : exec i s = .next t) (hmove : Move i s t) (hr' : t.seq.run = .busy) : OnCourse t.seq := by
  have hl := move_keeps_latched hmove hc.latched
  have hret : i ≠ .ret := by
    rintro rfl
    obtain ⟨op, hop⟩ := Option.isSome_iff_exists.1 hc.latched.op
    cases (exec_ret hop rfl).symm.trans h
    cases hr'
  have target : ∀ a, branchTarget i = some a → inProgram a = true := fun a ha => by simpa [ha] using listed_targets _ hm
  have moved : isByteMove i = true → t.seq.upc = s.seq.upc + 1 → OnCourse t.seq := fun hi hu =>
    ⟨hl, hu ▸ listed_next _ hm hret, fun hb => absurd (hu ▸ hb) (listed_byteMove _ hm hi).2⟩
  cases hmove with
  | fault k hk => exact hc
  | goes b a hb ha =>
    cases ha with
    | next => exact onCourse_next hc hm hret h hl rfl rfl
    | zero a hi hz =>
      subst hi
      exact ⟨hl, target a rfl, fun hb => absurd hb (loopTarget_needsNoByte hm rfl rfl)⟩
    | one a hi ho => exact ⟨hl, target a (hi ▸ rfl), fun _ hz => by simp [ho] at hz⟩
    | jump a hi =>
      subst hi
      exact ⟨hl, target a rfl, fun hb => absurd hb (loopTarget_needsNoByte hm rfl rfl)⟩
  | result b hi hb => exact onCourse_next hc hm hret h hl rfl rfl
  | received b c hi hc' hb => exact moved (hi ▸ rfl) rfl
  | sent b c hi hc' hb => exact moved (hi ▸ rfl) rfl
  | poll b hi hb hp => exact ⟨hl, by simpa [countPoll_eq] using hc.inside, by simpa [countPoll_eq] using hc.byteLeft⟩
  | abort b code hi hb hc' hcode => cases hr'
  | finish code hi hcode => cases hr'

end

/-- Accept writes every latch and starts at the entry of a program (R82, R100). -/
theorem onCourse_started (s : State) (op : BitVec 2) (sa ra : Byte) :
    OnCourse ((s.latchCommand op sa ra).goto (entryOf op)).seq := by
  have entry : ∀ op, inProgram (entryOf op) = true ∧ holdsByte (entryOf op) ≠ true := by decide
  exact ⟨⟨rfl, rfl, rfl, rfl, rfl, rfl⟩, (entry op).1, fun hb => absurd hb (entry op).2⟩

/-- Settles O41: what is fetched is listed, so the sequencer stays on course, and it raises nothing but BRI_UNSPEC. -/
theorem fixedStoreNeverRunsAstray : Obligations.FixedStoreNeverRunsAstray := by
  intro s t hinv hst
  obtain ⟨hstore, hcourse, -⟩ := (seqInv_iff s).1 hinv
  have hf := (step_cases hst).1
  have hfetch : s.seq.run = .busy → ∃ i, (s.seq.upc, i) ∈ imageListing ∧ fetch s = .ok i := fun hr =>
    fetch_inProgram hstore (hcourse hr).inside
  refine (seqInv_iff t).2 ⟨(step_fixed hst).2.trans hstore, ?_⟩
  cases step_seqMove hst with
  | quiet _ hseq hfault => exact ⟨hseq ▸ hcourse, fun r hr => by cases hfault.symm.trans hr⟩
  | illegal e hr he =>
    obtain ⟨i, -, hi⟩ := hfetch hr
    cases he.symm.trans hi
  | runs i _ hr hi he hmove =>
    obtain ⟨j, hm, hj⟩ := hfetch hr
    cases hi.symm.trans hj
    rw [← turnTaken_seq s] at hm hcourse hr
    refine ⟨exec_keeps_course (hcourse hr) hm he hmove, fun r hr' => .inl ?_⟩
    rw [← turnTaken_fault s] at hf
    obtain ⟨k, -, rfl⟩ := move_fault hmove hf hr'
    cases hr'
    exact exec_raises hf (hcourse hr).latched (fun hb => (hcourse hr).byteLeft (listed_byteMove _ hm hb).1) (fetch_store hi) he
  | refused r rest => exact ⟨by simpa using hcourse, fun r hr => by cases hr; exact .inr rfl⟩
  | rejected r rest op sa ra hp => exact ⟨nofun, fun r hr => by cases hf.symm.trans ((turnTaken_fault s).symm.trans hr)⟩
  | started r rest op sa ra =>
    exact ⟨fun _ => onCourse_started _ op sa ra, fun r hr => by cases hf.symm.trans ((turnTaken_fault s).symm.trans hr)⟩

end Sys2Proof.Machine
end

section
/-! SUPPORT. Under SEQ_PRIORITY a run is the host's step by step, whatever is offered, and a stuck command of a faithful block stays
BUSY for ever: the claim about hangs (spec/60_exceptions.md R240; spec/46_bus_engine.md R231 to R233). -/

namespace Sys2Proof.Machine

/-! ### The run under SEQ_PRIORITY (R231) -/

/-- A run that answers a next state does so at every earlier point. -/
theorem run_split (j : Nat) : ∀ (k : Nat) {s t : State}, Sys2Proof.core.run (k + j) s = .next t →
    ∃ u, Sys2Proof.core.run k s = .next u ∧ Sys2Proof.core.run j u = .next t
  | 0, s, t, h => ⟨s, rfl, by rwa [Nat.zero_add] at h⟩
  | k + 1, s, t, h => by
    rw [Nat.add_right_comm] at h
    obtain ⟨v, hv, h⟩ := run_succ_cases _ h
    obtain ⟨u, hu, ht⟩ := run_split j k h
    exact ⟨u, (run_succ_next k hv).trans hu, ht⟩

theorem runBy_sched (who : Nat → Agent) (s : State) (k : Nat) : (runBy who s k).params.sched = s.params.sched :=
  congrArg Params.sched (runBy_fixed who s k).1

/-- Where the host's run answers a next state, every run has come to it. -/
theorem runBy_of_run (who : Nat → Agent) {s : State} (hp : s.params.sched = .seqPriority) :
    ∀ (k : Nat) {t : State}, Sys2Proof.core.run k s = .next t → runBy who s k = t
  | 0, t, h => by cases h; rfl
  | k + 1, t, h => by
    obtain ⟨u, hu, h⟩ := run_split 1 k h
    obtain ⟨v, hv, h⟩ := run_succ_cases 0 h
    cases h
    have hk := runBy_of_run who hp k hu
    have hs := step_of_stepBy (who k) (hk ▸ (runBy_sched who s k).trans hp) (step_cases hv).1
    rw [runBy_succ, hk]
    exact Host.Outcome.next.inj (hs.symm.trans hv)

/-- A fault recorded on the way would have stopped the host's run (R244). -/
theorem noFault_of_run (who : Nat → Agent) {s t : State} {j k : Nat} (hp : s.params.sched = .seqPriority)
    (h : Sys2Proof.core.run k s = .next t) (hj : j < k) : (runBy who s j).fault = none := by
  obtain ⟨m, rfl⟩ := Nat.exists_eq_add_of_lt hj
  obtain ⟨u, hu, h⟩ := run_split (m + 1) j h
  obtain ⟨v, hstep, -⟩ := run_succ_cases m h
  rw [runBy_of_run who hp j hu]
  exact (step_cases hstep).1

theorem stepBy_priority (a b : Agent) {s : State} (h : s.params.sched = .seqPriority) : stepBy a s = stepBy b s := by
  simp [stepBy, offering_priority _ h]

theorem runBy_priority (who who' : Nat → Agent) {s : State} (h : s.params.sched = .seqPriority) :
    ∀ k, runBy who s k = runBy who' s k
  | 0 => rfl
  | k + 1 => by
    rw [runBy_succ, runBy_succ, runBy_priority who who' h k]
    exact stepBy_priority _ _ ((runBy_sched who' s k).trans h)

/-- The agents R231 gives along the run; every run has the same points, so any names them. -/
def priorityTurns (s : State) (k : Nat) : Agent := priorityAgent (runBy (fun _ => .sequencer) s k)

theorem priorityTurns_interleave {s : State} (h : s.params.sched = .seqPriority) : Interleaves (priorityTurns s) s := by
  intro k _
  rw [mayMove_priority ((runBy_sched _ s k).trans h), priorityTurns,
    runBy_priority (priorityTurns s) (fun _ => .sequencer) h k]

/-- Fairness asks nothing of a run under SEQ_PRIORITY (R232). -/
theorem weaklyFair_priority (who : Nat → Agent) {s : State} (h : s.params.sched = .seqPriority) : WeaklyFair who s :=
  fun hfree => by cases h.symm.trans hfree

/-! ### A stuck command stays BUSY -/

/-- A faithful command at a wait whose condition is false, with nothing to come that could make it true: no engine step is enabled;
or it waits for the bus to be free, with no STOP requested. -/
structure Hung (s : State) : Prop where
  busy : s.seq.run = .busy
  noFault : s.fault = none
  faithful : s.params.checked = false
  sched : s.params.sched = .seqPriority
  waits : ∃ i, fetch s = .ok i ∧ waitBlocked s i = true ∧
    (engineNext s = none ∨ (i = .waitIdle ∧ s.bri.stop = false))

/-- The engine does not look at the address flag or at the latch of its clear. -/
theorem engineNext_addrFlags (s : State) (a d : Bool) :
    engineNext (s.setBri { s.bri with addr := a, addrSeen := d }) = engineNext s :=
  congrArg (fun p => engineSteps.find? p) (funext fun e => by cases e <;> rfl)

/-- No STOP is requested at ADDR_ACKED while the engine rests and the peripheral is live (R212). -/
theorem noStop_of_engineOff {s : State} {d : Bool} (h : engineNext s = none) (hl : s.params.periphLive = true)
    (hp : s.bri.ph = .addrAcked d) : s.bri.stop = false := by
  have := engineNext_none_iff.1 h .stopHeld
  simpa [enabled_eq, EngineStep.guard, Phase.isHeld, hl, hp] using this

theorem afterSr2_stop (b : Bri) : b.afterSr2.stop = b.stop := by
  unfold Bri.afterSr2 Bri.endAddrPhase
  split
  · split <;> rfl
  · rfl

/-- The SR2 read gives the engine a step only where it ends an address phase, and there no STOP is requested (R65). -/
theorem engineOff_afterSr2 {s : State} (h : engineNext s = none) :
    engineNext (s.setBri s.bri.afterSr2) = none ∨ s.bri.stop = false := by
  by_cases hseen : s.bri.addrSeen = true ∧ s.bri.addr = true
  · rw [afterSr2_completes hseen.1 hseen.2]
    by_cases hp : ∃ d, s.bri.ph = .addrAcked d
    · obtain ⟨d, hp⟩ := hp
      cases hl : s.params.periphLive with
      | true => exact .inr (noStop_of_engineOff h hl hp)
      | false => exact .inl (engineNext_none_iff.2 fun e => by simp [enabled_eq, hl])
    · rw [endAddrPhase_elsewhere (not_exists.1 hp)]
      exact .inl ((engineNext_addrFlags s false false).trans h)
  · rw [afterSr2_forgets (by simpa [imp_iff_not_or] using hseen)]
    exact .inl ((engineNext_addrFlags s s.bri.addr false).trans h)

/-- The status read of a wait gives the engine no step, but for WAIT_IDLE's SR2 read with no STOP requested (R142). -/
theorem engineOff_afterWaitRead {s : State} (i : Instr) (h : engineNext s = none) :
    engineNext (s.setBri (afterWaitRead i s.bri)) = none ∨ (i = .waitIdle ∧ s.bri.stop = false) := by
  by_cases hi : i = .waitIdle
  · rw [hi, afterWaitRead_waitIdle]
    exact (engineOff_afterSr2 h).imp_right fun hs => ⟨rfl, hs⟩
  · rw [afterWaitRead_sr1 hi]
    exact .inl ((engineNext_addrFlags s s.bri.addr _).trans h)

/-- With no STOP requested the engine requests none, and does not come back to IDLE (R206, R210 to R212). -/
theorem effect_noStop {s : State} {e : EngineStep} (he : e.enabled s = true) (hs : s.bri.stop = false) :
    (e.effect s).bri.stop = false ∧ (s.bri.ph ≠ .idle → (e.effect s).bri.ph ≠ .idle) := by
  have hg := guard_of_enabled he
  cases e with
  | start => exact ⟨hs, fun _ => nofun⟩
  | addr =>
    simp only [EngineStep.effect, engineAddr]
    split <;> exact ⟨hs, fun _ => nofun⟩
  | txLoad => exact ⟨hs, id⟩
  | txDone =>
    obtain ⟨-, v, hv⟩ := guard_txDone hg
    simp only [EngineStep.effect, hv, engineTxDone]
    split
    · exact ⟨hs, id⟩
    · exact ⟨hs, fun _ => nofun⟩
  | rx =>
    simp only [EngineStep.effect, engineRx, hs]
    split <;> simp [hs]
  | stopTx | stopRxDone | stopHeld | stopIdle => simp [EngineStep.guard, hs] at hg

theorem hung_of_stuck {s : State} (h : Stuck s) (hp : s.params.sched = .seqPriority) : Hung s := by
  obtain ⟨i, hi, hb⟩ := (atBlockedWait_iff s).1 h.blocked
  exact ⟨h.busy, h.noFault, h.faithful, hp, i, hi, hb, .inl h.engineOff⟩

/-- The poll keeps a command hung, and so does an engine step that WAIT_IDLE's SR2 read has enabled. -/
theorem Hung.keeps {s : State} (h : Hung s) (a : Agent) : Hung (stepBy a s) := by
  obtain ⟨i, hi, hb, hw⟩ := h.waits
  have hturn := stepBy_turn a h.noFault
  rw [mover, h.sched] at hturn
  cases hnext : engineNext s with
  | none =>
    simp only [priorityAgent_sequencer h.busy (.inr hnext), agentTurn, sequencerTurn_blocked h.busy h.faithful hi hb] at hturn
    rw [← Host.Outcome.next.inj hturn]
    refine { h with waits := ⟨i, hi, waitBlocked_afterWaitRead hb, ?_⟩ }
    refine (engineOff_afterWaitRead i hnext).imp_right fun ⟨hidle, hs⟩ => ⟨hidle, ?_⟩
    rw [setBri_bri, hidle, afterWaitRead_waitIdle, afterSr2_stop, hs]
  | some e =>
    obtain ⟨rfl, hs⟩ := hw.resolve_left (by simp [hnext])
    have hblocked := (atBlockedWait_iff s).2 ⟨.waitIdle, hi, hb⟩
    simp only [priorityAgent_engine h.busy hblocked hnext, agentTurn, engineTurn_of_next hnext] at hturn
    rw [← Host.Outcome.next.inj hturn]
    have frame := effect_frame s e
    obtain ⟨hstop, hph⟩ := effect_noStop (engineNext_iff.1 hnext) hs
    have hfetch : fetch (e.effect s) = fetch s := by rw [fetch, frame.store, frame.seq, fetch]
    refine ⟨frame.seq ▸ h.busy, frame.fault ▸ h.noFault, frame.params ▸ h.faithful, frame.params ▸ h.sched, .waitIdle,
      hfetch.trans hi, ?_, .inr ⟨rfl, hstop⟩⟩
    simp only [waitBlocked_waitIdle, State.busy, Bool.or_eq_true, decide_eq_true_eq, frame.params] at hb ⊢
    exact hb.imp_left hph

theorem Hung.atPoint {s : State} (h : Hung s) (who : Nat → Agent) : ∀ k, Hung (runBy who s k)
  | 0 => h
  | k + 1 => (h.atPoint who k).keeps (who k)

/-- The run from a later point of a run. -/
theorem runBy_add (who : Nat → Agent) (s : State) (k : Nat) :
    ∀ j, runBy who s (k + j) = runBy (fun m => who (k + m)) (runBy who s k) j
  | 0 => rfl
  | j + 1 => by rw [← Nat.add_assoc, runBy_succ, runBy_succ, runBy_add who s k j]

/-- Settles O60: a run that stays BUSY for ever comes to a stuck state; and from a stuck state it stays BUSY for ever. -/
theorem hangsExactlyWhenStuck : Obligations.HangsExactlyWhenStuck := by
  intro s hinv hp _
  constructor
  · rintro ⟨who, hi, hw, hbusy⟩
    have keeps : KeepsBusy who s := ⟨fun k => (hbusy k).1, fun k => (hbusy k).2⟩
    obtain ⟨k, hk⟩ := keeps.stuck hinv.store hi hw
    have hrun := fun j => run_of_runBy who hp j fun m _ => keeps.noFault m
    exact ⟨k, _, hrun k, hk, fun j _ => ⟨_, hrun j, keeps.busy j⟩⟩
  · rintro ⟨k, t, hk, hstuck, hbefore⟩
    refine ⟨priorityTurns s, priorityTurns_interleave hp, weaklyFair_priority _ hp, fun j => ?_⟩
    obtain hj | ⟨m, rfl⟩ : j < k ∨ ∃ m, j = k + m := (Nat.lt_or_ge j k).imp_right Nat.exists_eq_add_of_le
    · obtain ⟨u, hu, hbusy⟩ := hbefore j hj
      exact ⟨runBy_of_run _ hp j hu ▸ hbusy, noFault_of_run _ hp hk hj⟩
    · have ht := runBy_of_run (priorityTurns s) hp k hk
      have hpt : t.params.sched = .seqPriority := ht ▸ (runBy_sched _ s k).trans hp
      have hung := (hung_of_stuck hstuck hpt).atPoint (fun j => priorityTurns s (k + j)) m
      rw [runBy_add, ht]
      exact ⟨hung.busy, hung.noFault⟩

end Sys2Proof.Machine
end

section
/-! SUPPORT. The launch state: the table of its values and the invariants it meets (spec/70_reset_and_hazards.md R270). -/

namespace Sys2Proof.Machine

section
variable (p : Params) (ack : Bool) (dr : Byte)

/-- No command runs and no fault is on record, so only the control store is left to look at. -/
theorem launch_seqInv : SeqInv (State.launch p ack dr) := (seqInv_iff _).2 ⟨rfl, nofun, nofun⟩

/-- No flag is set, nothing is requested and the shift register is empty: the flags of IDLE. -/
theorem launch_briInv : BriInv (State.launch p ack dr).bri :=
  Bri.FlagsIn.inv (p := .idle) (by simp [Bri.FlagsIn, State.launch]) rfl

theorem launch_statusInv : StatusInv (State.launch p ack dr) := (statusInv_iff _).2 ⟨.inl rfl, .inl rfl⟩

theorem launch_mem_wf : (State.launch p ack dr).mem.wf := ⟨.nil, nofun⟩

end

/-- Settles O39: the launch is written out value by value, and in IDLE `busy` is the parameter alone. -/
theorem resetTable : Obligations.ResetTable := fun p _ _ =>
  ⟨rfl, rfl, Bool.false_or p.extBusy, rfl, rfl, rfl, rfl⟩

/-- Settles O40, invariant by invariant. -/
theorem launchMeetsInvariants : Obligations.LaunchMeetsInvariants := fun p ack dr =>
  ⟨launch_seqInv p ack dr, launch_briInv p ack dr, launch_statusInv p ack dr, launch_mem_wf p ack dr⟩

end Sys2Proof.Machine
end

section
/-! SUPPORT. The two-read clear of an acknowledged address (spec/70_reset_and_hazards.md R284). -/

namespace Sys2Proof.Machine

/-- The SR2 read that completes the two-read clear opens the data phase of the acknowledged direction (R65). -/
theorem afterSr2_opensDataPhase {b : Bri} {d : Bool} (hs : b.addrSeen = true) (ha : b.addr = true) (hp : b.ph = .addrAcked d) :
    b.afterSr2.addr = false ∧ b.afterSr2.ph = if d then .rx else .tx := by
  rw [afterSr2_completes hs ha]
  cases d with
  | false => rw [endAddrPhase_transmit hp]; exact ⟨rfl, rfl⟩
  | true => rw [endAddrPhase_receive hp]; exact ⟨rfl, rfl⟩

/-- WAIT_ADDR that finds `addr = 1` completes, and its SR1 read is remembered (R64, R146). -/
theorem exec_waitAddr_met {s : State} (ha : s.bri.addr = true) :
    exec .waitAddr s = .next (s.setBri { s.bri with addrSeen := true }).advance := by
  rw [exec_sr1Wait_met rfl (by simp) (by simp [ha]), ha, Bool.true_or]

/-- Settles O20: the control writes touch neither `addr`, `addrSeen` nor the phase, so CLR_ADDR finds the SR1 read remembered; on
its own it only forgets it. -/
theorem twoReadAddressClear : Obligations.TwoReadAddressClear := by
  intro s d ha hp
  refine ⟨⟨_, _, _, _, exec_waitAddr_met ha, rfl, rfl, exec_clrAddr _, ?_⟩, fun hs => ⟨_, exec_clrAddr s, ?_⟩⟩
  · exact afterSr2_opensDataPhase (b := ({ s.bri with addrSeen := true }.setAck false).requestStop) rfl ha hp
  · simp [afterSr2_forgets (.inl hs), ha, hp]

end Sys2Proof.Machine
end

section
/-! SUPPORT. Why byteRead NACKs its byte under every schedule (spec/70_reset_and_hazards.md R280): its words from the ADDR clear on
are entered through ACK_OFF only, and hold no ACK_ON; the engine answers a byte with the acknowledge enable. -/

namespace Sys2Proof.Machine

/-! ### The words of byteRead from its ADDR clear to RET (R91) -/

/-- The micro-addresses 0x0D to 0x11. -/
abbrev inByteReadTail (a : MicroAddr) : Prop := 0x0D ≤ a.toNat ∧ a.toNat ≤ 0x11

theorem listed_tail_notAckOn : ∀ p ∈ imageListing, inByteReadTail p.1 → p.2 ≠ .ackOn := by decide

theorem listed_before_tail : ∀ p ∈ imageListing, inByteReadTail (p.1 + 1) → inByteReadTail p.1 ∨ p.2 = .ackOff := by decide

theorem listed_target_notTail :
    ∀ p ∈ imageListing, (branchTarget p.2).all (fun t => decide ¬inByteReadTail t) = true := by decide

theorem entry_notTail : ∀ op, ¬inByteReadTail (entryOf op) := by decide

/-- A micro-op stays where it is, goes on to the next address, or goes to its branch target (R180 to R185). -/
theorem move_upc {i : Instr} {s t : State} (h : Move i s t) :
    t.seq.upc = s.seq.upc ∨ t.seq.upc = s.seq.upc + 1 ∨ branchTarget i = some t.seq.upc := by
  cases h with
  | fault | abort | finish => exact .inl rfl
  | poll b hi hb hp => simp [countPoll_eq]
  | result | received | sent => exact .inr (.inl rfl)
  | goes b a hb ha =>
    cases ha with
    | next => exact .inr (.inl rfl)
    | zero _ hi | one _ hi | jump _ hi => exact .inr (.inr (hi ▸ rfl))

/-- A listed micro-op that comes to the tail stands in it or is ACK_OFF. -/
theorem move_to_tail {i : Instr} {s t : State} (hl : (s.seq.upc, i) ∈ imageListing) (h : Move i s t)
    (ht : inByteReadTail t.seq.upc) : inByteReadTail s.seq.upc ∨ i = .ackOff := by
  rcases move_upc h with e | e | e
  · exact .inl (e ▸ ht)
  · exact listed_before_tail _ hl (e ▸ ht)
  · have hn := listed_target_notTail _ hl
    rw [e] at hn
    exact absurd ht (of_decide_eq_true hn)

/-- A step that leaves a block BUSY in the tail began there, or ran ACK_OFF. -/
theorem step_to_tail {s t : State} (hinv : SeqInv s) (h : step s = .next t) (hr : t.seq.run = .busy)
    (ht : inByteReadTail t.seq.upc) : (s.seq.run = .busy ∧ inByteReadTail s.seq.upc) ∨ t.bri.ack = false := by
  cases step_seqMove h with
  | quiet _ hseq hf => exact .inl (hseq ▸ ⟨hr, ht⟩)
  | illegal e hb he => exact .inl ⟨hb, by simpa using ht⟩
  | refused r rest => exact .inl (by simpa using And.intro hr ht)
  | rejected r rest op sa ra hp => cases hr
  | started r rest op sa ra => exact absurd ht (entry_notTail op)
  | runs i _ hb hi he hm =>
    obtain ⟨j, hl, hj⟩ := fetch_inProgram hinv.store (hinv.inside hb)
    cases hi.symm.trans hj
    rw [← turnTaken_seq s] at hl hb ⊢
    refine (move_to_tail hl hm ht).imp (And.intro hb) ?_
    rintro rfl
    cases he
    rfl

/-! ### The acknowledge enable in the tail, and the answer to a byte (R36, R206) -/

/-- In the tail no step of any agent sets the acknowledge enable: ACK_ON alone does (R36), and it does not stand there. -/
theorem step_in_tail_ack {s t : State} (hinv : SeqInv s) (h : step s = .next t) (hs : inByteReadTail s.seq.upc)
    (ha : s.bri.ack = false) : t.bri.ack = false := by
  by_contra hne
  obtain ⟨-, hb, ⟨hf, -⟩ | ⟨-, ha'⟩ | ⟨-, -, ha', -⟩⟩ := ackEnableWriters s t h (ha ▸ hne)
  · obtain ⟨i, hl, hi⟩ := fetch_inProgram hinv.store (hinv.inside hb)
    cases hf.symm.trans hi
    exact listed_tail_notAckOn _ hl hs rfl
  · exact hne ha'
  · exact hne ha'

/-- A byte a step receives is answered with the acknowledge enable as it was before the step (R206). -/
theorem step_receive {s t : State} (h : step s = .next t) :
    ∃ evs, t.wire = s.wire ++ evs ∧ ∀ v k, .receive v k ∈ evs → k = s.bri.ack := by
  obtain ⟨evs, hw, hquiet⟩ := step_wire h
  obtain ⟨-, ⟨hp, -⟩ | ⟨-, rfl⟩ | ⟨hp, -⟩⟩ := step_cases h
  · exact ⟨evs, hw, by simp [hquiet (by simp [hp])]⟩
  · rcases engineTurn_cases s.turnTaken with ⟨e, -, -, he⟩ | ⟨-, he⟩ <;> rw [he]
    · simpa using effect_receive s.turnTaken e
    · exact ⟨[], by simp, by simp⟩
  · exact ⟨evs, hw, by simp [hquiet (by simp [hp])]⟩

/-- Settles O51: the tail is entered through ACK_OFF and holds no ACK_ON; the engine answers with the acknowledge enable. -/
theorem singleByteIsNacked : Obligations.SingleByteIsNacked := by
  intro s t hinv hst hack
  constructor
  · intro hr hlo hhi
    rcases step_to_tail hinv hst hr ⟨hlo, hhi⟩ with ⟨hb, hs⟩ | ha
    · exact step_in_tail_ack hinv hst hs (hack hb hs.1 hs.2)
    · exact ha
  · intro hb hlo hhi evs v k hw hm
    obtain ⟨evs', hw', hk⟩ := step_receive hst
    cases List.append_cancel_left (hw.symm.trans hw')
    exact (hk v k hm).trans (hack hb hlo hhi)

end Sys2Proof.Machine
end
